-- ==== Sys2Proof/Config.lean ====
section
/-! DEFINITION. What an implementation fixes: the constants of 00_scope R6 as named constants (93 U9 asks
that an audit can change one place), and the parameters of R7 as plain data (log 7). The model has no
free value: the spec leaves no result value open while the machine goes on. -/

namespace Sys2Proof

namespace Config

/-- REC_WORDS: words of an Instruction Record, and cells of the assembly buffer (R6). -/
abbrev recordWords : Nat := 5

/-- REC_BYTES = 0x28: bytes of a record, and the size of the instruction window (R6, R52). -/
def windowBytes : Nat := 0x28

/-- TRIGGER_OFFSET: the device offset of word 4 (R6). -/
def triggerOffset : Nat := 0x20

/-- W_STRIDE_MINOR (R6). -/
abbrev strideMinorBits : Nat := 20

/-- W_STRIDE_MAJOR (R6). -/
abbrev strideMajorBits : Nat := 20

/-- W_BASE (R6). -/
abbrev baseBits : Nat := 24

/-- W_DIM (R6). -/
abbrev dimBits : Nat := 8

/-- W_ITYPE (R6). -/
abbrev itypeBits : Nat := 5

/-- BLOCK: matrix elements per block along one dimension (R6). -/
def blockSize : Nat := 64

/-- The role alignment of the multiplicand operands `A` and `B` (R6). -/
def multiplicandAlign : Nat := 4096

/-- The role alignment of the accumulator operands `Din` and `Dout` (R6). -/
def accumulatorAlign : Nat := 16384

/-- STRIDE_MAJOR_TX: the `stride_major` the encoder transmits (R6, R111). -/
def strideMajorTx : Nat := 1

/-- RESERVED_TX: Meta bit 24 as transmitted (R7, the spec's own choice D11, log 31). -/
def reservedTx : Nat := 0

/-- ITYPE_DEFAULT (R7, the spec's own choice D10, log 31). -/
def itypeDefault : Nat := 1

/-- The one `instruction_type` value the source shows, mnemonic GEMM (R93). -/
def gemmType : BitVec itypeBits := 1#5

/-- STATUS_RECEIVED: the fixed "received" value (R6, R174). -/
def statusReceived : BitVec 64 := 0x0000000000000001#64

/-- STATUS_RESET (R7, R28, the spec's own choice D5, log 17). -/
def statusReset : BitVec 64 := 0#64

end Config

/-- The parameters of R7 that the source leaves open. The two sides carry their own copy of the base and the
status offset, since R212 makes it a duty of the set-up that they agree, and R119 speaks of a run in which
they do not (log 7). No step changes them. -/
structure Params where
  /-- DEVICE_BASE as the path routes by it: the system address that device offset 0 answers at (R51, R212). -/
  devBase : Nat
  /-- STATUS_OFFSET as the device answers at it (R52, R53). -/
  devStatus : Nat
  /-- DEVICE_BASE as the encoder uses it (R116, R212). -/
  encBase : Nat
  /-- STATUS_OFFSET as the encoder uses it (R116, R212). -/
  encStatus : Nat
  /-- ADDR_BITS: width of a system address and of an operand address (R7). -/
  addrBits : Nat
deriving DecidableEq, Repr

/-- R7's constraints: bases and status offset are multiples of 8, the status window lies above the
instruction window, addresses have at least 38 bits; and both windows lie inside the system address space
(the last is DEDUCED, log 7). -/
def Params.wf (p : Params) : Bool :=
  p.devBase % 8 == 0 && p.encBase % 8 == 0 && p.devStatus % 8 == 0 &&
    decide (Config.windowBytes ≤ p.devStatus) && decide (38 ≤ p.addrBits) &&
    decide (p.devBase + p.devStatus + 8 ≤ 2 ^ p.addrBits)

/-- R212 (1) and (2): encoder and device share the base and the status offset. -/
def Params.shared (p : Params) : Bool :=
  p.encBase == p.devBase && p.encStatus == p.devStatus

/-- The parameters of the reset state: STATUS_OFFSET and ADDR_BITS at R7's defaults; DEVICE_BASE, for which
R7 gives no default, at 0 on both sides (DESIGN CHOICE, log 7). -/
def Params.default : Params :=
  { devBase := 0, devStatus := 0x1000, encBase := 0, encStatus := 0x1000, addrBits := 64 }

end Sys2Proof
end

