-- ==== Sys2Proof/Word.lean ====
section
/-! DEFINITION. The word types of the block: bytes, the 64-bit cells and registers, the 32-bit halves
(00_scope R6, R8). All values are unsigned (R9). -/

namespace Sys2Proof

/-- One byte of a payload. -/
abbrev Byte := BitVec 8

/-- One 64-bit word: an assembly-buffer cell, `STATUS`, a staging word (R6 WORD_BITS, STATUS_BITS). -/
abbrev Word64 := BitVec 64

/-- The 32 bits a narrow access carries (R54). -/
abbrev Word32 := BitVec 32

end Sys2Proof
end

