-- ==== Sys2Proof/Syntax.lean ====
section
/-! DEFINITION. The vocabulary of the spec as data: roles, dimensions, error names, accesses, encoder
commands, the instructions (one constructor per row of opcode_table.json), the lines of a script and the
events a script is made of. -/

namespace Sys2Proof

/-- The four operand roles, in the order of their words in the record (00_scope R11; the order of words 1 to 3
is the spec's own choice D4, log 22). -/
inductive Role where
  | din | b | a | dout
deriving DecidableEq, Repr

/-- The three dimensions of the matrix shape (40_encoder R112). -/
inductive Dim where
  | m | n | k
deriving DecidableEq, Repr

/-- The direction of an access (30_encoding R95). -/
inductive Op where
  | write | read
deriving DecidableEq, Repr

/-- The windows of the device offset space (20_memory R53). -/
inductive Window where
  | insn | status | none
deriving DecidableEq, Repr

/-- The decoder's error names (60_exceptions R180 to R182). -/
inductive AccessError where
  | invalidOffset | invalidWidth
deriving DecidableEq, Repr

/-- The field a value to be packed does not fit (60_exceptions R183, 40_encoder R113, 30_encoding R85, R86). -/
inductive FieldName where
  | dim (d : Dim)
  | strideMinor
  | strideMajor
  | baseAddr
  | baseAddrOf (r : Role)
  | ifBTranspose
  | ifATranspose
  | instructionType
deriving DecidableEq, Repr

/-- An encoder error with the info it carries for diagnostics (R180). -/
inductive EncError where
  | overflowField (f : FieldName) (value : Nat)
  | nonMultipleAddress (r : Role) (addr : Nat)
  | invalidDimension (d : Dim)
deriving DecidableEq, Repr

/-- The encoder's error names: what `err` holds (10_state R32). -/
inductive EncErrName where
  | overflowField | nonMultipleAddress | invalidDimension
deriving DecidableEq, Repr

/-- One access presented to the decoder device: the tuple (op, offset, width, payload) of R95 and R96. A read
has no payload. -/
structure Access where
  op    : Op
  off   : Nat
  n     : Nat
  bytes : List Byte
deriving DecidableEq, Repr

/-- The inputs of one encoder command (40_encoder R112). Omitting the last three gives the source's contract
form (the spec's own choice D10, log 31). -/
structure Cmd where
  m : Nat
  n : Nat
  k : Nat
  aDin : Nat
  aB : Nat
  aA : Nat
  aDout : Nat
  tA : Nat := 0
  tB : Nat := 0
  itype : Nat := Config.itypeDefault
deriving DecidableEq, Repr

/-- The instructions: one constructor per row of opcode_table.json, in the table's order. The three mnemonics
with two rows have a constructor for words 0 to 3 and one for word 4. -/
inductive Instr where
  /-- WR8_W: 8-byte write of word `i` (R142). -/
  | wr8W (i : Fin 4) (v : Word64)
  /-- WR8_TRIG: 8-byte write of word 4, the trigger (R143). -/
  | wr8Trig (v : Word64)
  /-- WR4_W, words 0 to 3 (R144). -/
  | wr4W (i : Fin 4) (v : Word32)
  /-- WR4_W, word 4 (R144). -/
  | wr4Meta (v : Word32)
  /-- RD8_W, words 0 to 3 (R161). -/
  | rd8W (i : Fin 4)
  /-- RD8_W, word 4 (R161). -/
  | rd8Meta
  /-- RD4_W, words 0 to 3 (R162). -/
  | rd4W (i : Fin 4)
  /-- RD4_W, word 4 (R162). -/
  | rd4Meta
  /-- RD8_ST (R170). -/
  | rd8St
  /-- RD4_ST (R171). -/
  | rd4St
  /-- WR8_ST (R172). -/
  | wr8St (v : Word64)
  /-- WR4_ST (R173). -/
  | wr4St (v : Word32)
  /-- BAD_WR: a write no other row matches (R145). -/
  | badWr (off n : Nat) (bytes : List Byte)
  /-- BAD_RD: a read no other row matches (R163). -/
  | badRd (off n : Nat)
  /-- GEMM: a Meta word with `instruction_type` 1 (R83, R93). -/
  | gemm (k n m : BitVec 8) (rsv tB tA : BitVec 1) (pad : Word32)
  /-- RECORD: a Meta word with any other `instruction_type` (R83, R93). -/
  | record (k n m : BitVec 8) (rsv tB tA : BitVec 1) (itype : BitVec 5) (pad : Word32)
  /-- OPD.Din: the Operand Descriptor of word 0 (R82). -/
  | opdDin (sm sM : BitVec 20) (ba : BitVec 24)
  /-- OPD.B: the Operand Descriptor of word 1 (R82). -/
  | opdB (sm sM : BitVec 20) (ba : BitVec 24)
  /-- OPD.A: the Operand Descriptor of word 2 (R82). -/
  | opdA (sm sM : BitVec 20) (ba : BitVec 24)
  /-- OPD.Dout: the Operand Descriptor of word 3 (R82). -/
  | opdDout (sm sM : BitVec 20) (ba : BitVec 24)
  /-- BLOCKS (R110). -/
  | blocks (d : Nat)
  /-- STRIDES (R111). -/
  | strides (nBlock kBlock : Nat)
  /-- VALIDATE (R113). -/
  | validate (c : Cmd)
  /-- PACK_OPD (R85). -/
  | packOpd (sm sM ba : Nat)
  /-- PACK_META (R86). -/
  | packMeta (k n m tB tA itype : Nat)
  /-- SCALE (R87). -/
  | scale (r : Role) (addr : Nat)
  /-- ENCODE (R115). -/
  | encode (c : Cmd)
  /-- TRANSMIT (R116). -/
  | transmit
  /-- SUBMIT (R117). -/
  | submit (c : Cmd)
  /-- DECODE (R147). -/
  | decode
  /-- SET_RECEIVED (R174). -/
  | setReceived
  /-- RESET (R210). -/
  | reset
deriving DecidableEq, Repr

/-- The names of the operations that have inputs but no bit encoding (R95, last paragraph; R96, R97). -/
inductive CmdName where
  | blocks | strides | validate | packOpd | packMeta | scale | encode | transmit | submit
  | decode | setReceived | reset
deriving DecidableEq, Repr

/-- One undecoded line of a script (R96): an access as its tuple, word `idx` of an Instruction Record as its
bytes in bus order (R80, R84), or a command as its name and list of inputs (R97; log 3). -/
inductive Line where
  | access (a : Access)
  | word (idx : Fin 5) (bytes : List Byte)
  | command (c : CmdName) (args : List Nat)
deriving DecidableEq, Repr

/-- Why a line is no access and no command (log 37). -/
inductive LineError where
  /-- a write whose payload has not exactly `n` bytes, or a read with a payload (R140, R96) -/
  | payloadLength
  /-- a record word that has not exactly 8 bytes (R80) -/
  | wordLength
  /-- a command with the wrong number of inputs (R112, R97) -/
  | inputs
  /-- an operand or system address of more than ADDR_BITS bits (R50, R112) -/
  | addressTooWide
  /-- a role number above 3 (R11) -/
  | noSuchRole
deriving DecidableEq, Repr

/-- One event of a script. All but `line` belong to the producer, the path and the schedule and have no row in
the opcode table. -/
inductive Event where
  /-- an access, a record word or a command; accesses arrive at the device from any master (R191, R193) -/
  | line (l : Line)
  /-- the producer's store, presented at once: `MemWrite` (R10, R51) -/
  | memWrite (addr : Nat) (bytes : List Byte)
  /-- the producer's load: `MemRead` (R10, R51) -/
  | memRead (addr n : Nat)
  /-- the producer issues a store that is in flight until it is delivered (R59, log 15) -/
  | post (addr : Nat) (bytes : List Byte)
  /-- the path delivers the `j`-th store in flight, if the barriers let it arrive now (R59, log 15) -/
  | deliver (j : Nat)
  /-- BARRIER.C (R60, R96) -/
  | compilerBarrier
  /-- BARRIER.F (R61, R96) -/
  | fullBarrier
  /-- a TRANSMIT begins and is run one position at a time (R30, R116, log 10) -/
  | txBegin
  /-- the serializer takes its next position (R30, R116, log 10) -/
  | txAdvance
  /-- the encoder returns to its reset values (R33, R211, log 14) -/
  | encoderReset
deriving DecidableEq, Repr

end Sys2Proof
end

