-- ==== Sys2Proof/Machine/Access.lean ====
section
/-! DEFINITION. What the classification of an access and the bit layouts share: byte order (20_memory R54),
window selection (R53), the order of checks of R140 and R160, and the word layouts of 30_encoding R82
and R83. It stands under Machine so that a later repair may mend it; WellFormed and Decode use it. -/

namespace Sys2Proof.Machine

/-! ### Byte order -/

/-- `le_bytes(v, n)`: the `n` bytes of `v`, least significant first (R8, R10). -/
def leBytes (n v : Nat) : List Byte :=
  (List.range n).map fun j => BitVec.ofNat 8 (v >>> (8 * j))

/-- `from_le(bytes)` (R10). -/
def fromLE (bytes : List Byte) : Nat :=
  bytes.foldr (fun b acc => b.toNat + 256 * acc) 0

/-- The 64-bit value of a payload (R141). -/
def payload64 (bytes : List Byte) : Word64 := BitVec.ofNat 64 (fromLE bytes)

/-- The 32-bit value of a payload (R141). -/
def payload32 (bytes : List Byte) : Word32 := BitVec.ofNat 32 (fromLE bytes)

/-- The 8 bytes of a word in bus order (R54). -/
def wordBytes (w : Word64) : List Byte := leBytes 8 w.toNat

/-- The 4 bytes of a half in bus order (R54). -/
def halfBytes (w : Word32) : List Byte := leBytes 4 w.toNat

/-- Bits [31:0] of a word: what a 4-byte access carries (R54). -/
def lowHalf (w : Word64) : Word32 := w.extractLsb' 0 32

/-- `{ w[63:32], v[31:0] }`: a narrow write's result (R144, R173). -/
def replaceLow (w : Word64) (v : Word32) : Word64 := (w.extractLsb' 32 32) ++ v

/-! ### Windows and checks -/

/-- `window(off)` of R53. -/
def window (p : Params) (off : Nat) : Window :=
  if off < Config.windowBytes then .insn
  else if off = p.devStatus then .status
  else .none

/-- ACCESS_WIDTHS: 4 or 8 bytes (R6, R56). -/
def legalWidth (n : Nat) : Bool := n == 4 || n == 8

/-- The error an access raises, in the order of checks of R140 and R160 (the order and the names are the spec's
own choice D12, log 27); `none` where the access succeeds. -/
def accessError (p : Params) (off n : Nat) : Option AccessError :=
  match window p off with
  | .none => some .invalidOffset
  | .insn =>
    if !legalWidth n then some .invalidWidth
    else if off % 8 ≠ 0 then some .invalidWidth
    else none
  | .status => if !legalWidth n then some .invalidWidth else none

/-- The name of the error of an access that fails (R181, R182): InvalidOffset exactly where the offset lies in no
window. -/
def accessErrorName (p : Params) (off : Nat) : AccessError :=
  if window p off = .none then .invalidOffset else .invalidWidth

/-! ### Word layouts -/

/-- The Operand Descriptor word: `base_addr` [63:40], `stride_major` [39:20], `stride_minor` [19:0] (R82). -/
def opdWord (sm sM : BitVec 20) (ba : BitVec 24) : Word64 := ba ++ sM ++ sm

/-- The Meta word: padding [63:32], `instruction_type` [31:27], `if_A_transpose` [26], `if_B_transpose` [25],
reserved [24], `M` [23:16], `N` [15:8], `K` [7:0] (R83). -/
def metaWord (k n m : BitVec 8) (rsv tB tA : BitVec 1) (itype : BitVec 5) (pad : Word32) : Word64 :=
  pad ++ itype ++ tA ++ tB ++ rsv ++ m ++ n ++ k

/-- `w[19:0]` (R82, R90). -/
def strideMinorOf (w : Word64) : BitVec 20 := w.extractLsb' 0 20
/-- `w[39:20]` (R82, R90). -/
def strideMajorOf (w : Word64) : BitVec 20 := w.extractLsb' 20 20
/-- `w[63:40]` (R82, R90). -/
def baseAddrOf (w : Word64) : BitVec 24 := w.extractLsb' 40 24
/-- `w[7:0]` (R83, R90). -/
def kOf (w : Word64) : BitVec 8 := w.extractLsb' 0 8
/-- `w[15:8]` (R83, R90). -/
def nOf (w : Word64) : BitVec 8 := w.extractLsb' 8 8
/-- `w[23:16]` (R83, R90). -/
def mOf (w : Word64) : BitVec 8 := w.extractLsb' 16 8
/-- `w[24]`, the reserved bit (R83, R91). -/
def reservedOf (w : Word64) : BitVec 1 := w.extractLsb' 24 1
/-- `w[25]`, `if_B_transpose` (R83, R90). -/
def bTransposeOf (w : Word64) : BitVec 1 := w.extractLsb' 25 1
/-- `w[26]`, `if_A_transpose` (R83, R90). -/
def aTransposeOf (w : Word64) : BitVec 1 := w.extractLsb' 26 1
/-- `w[31:27]`, `instruction_type` (R83, R90). -/
def itypeOf (w : Word64) : BitVec 5 := w.extractLsb' 27 5
/-- `w[63:32]`, the padding of word 4 (R83, R92). -/
def paddingOf (w : Word64) : Word32 := w.extractLsb' 32 32

end Sys2Proof.Machine
end

