-- ==== Sys2Proof/WellFormed.lean ====
section
/-! DEFINITION. Which instructions are well formed, given the parameters: the checks that the types of the
constructors' fields do not carry. -/

namespace Sys2Proof

/-- The operand addresses of a command have ADDR_BITS bits (R112). -/
def Cmd.wf (p : Params) (c : Cmd) : Bool :=
  decide (c.aDin < 2 ^ p.addrBits) && decide (c.aB < 2 ^ p.addrBits) &&
    decide (c.aA < 2 ^ p.addrBits) && decide (c.aDout < 2 ^ p.addrBits)

/-- Well-formedness of an instruction: BAD_WR and BAD_RD stand for failing accesses only, the payload of a write
has exactly as many bytes as its width (R140), a RECORD is no GEMM (the table lists GEMM first), and
operand addresses have ADDR_BITS bits (R112). Every other instruction is well formed by its types. -/
def Instr.wf (p : Params) (i : Instr) : Bool :=
  match i with
  | .badWr off n bytes => (Machine.accessError p off n).isSome && bytes.length == n
  | .badRd off n => (Machine.accessError p off n).isSome
  | .record _ _ _ _ _ _ itype _ => itype != Config.gemmType
  | .validate c => c.wf p
  | .encode c => c.wf p
  | .submit c => c.wf p
  | .scale _ addr => decide (addr < 2 ^ p.addrBits)
  | .wr8W _ _ | .wr8Trig _ | .wr4W _ _ | .wr4Meta _ | .rd8W _ | .rd8Meta | .rd4W _ | .rd4Meta
  | .rd8St | .rd4St | .wr8St _ | .wr4St _ | .gemm _ _ _ _ _ _ _ | .opdDin _ _ _ | .opdB _ _ _
  | .opdA _ _ _ | .opdDout _ _ _ | .blocks _ | .strides _ _ | .packOpd _ _ _
  | .packMeta _ _ _ _ _ _ | .transmit | .decode | .setReceived | .reset => true

/-- Well-formedness of a line's bytes: a write carries exactly as many bytes as its width and a read none (R96, R140), a
record word has 8 (R80). -/
def Line.wf (l : Line) : Bool :=
  match l with
  | .access a =>
    match a.op with
    | .write => a.bytes.length == a.n
    | .read => a.bytes.length == 0
  | .word _ bytes => bytes.length == 8
  | .command _ _ => true

end Sys2Proof
end

