-- ==== Sys2Proof/Decode.lean ====
section
/-! DEFINITION. Decoding a script line into an instruction, total and rejecting by name, and the encoder after
it. An access is classified by R95, R140, R160 (its encoding is the tuple itself, R96); a record word by the
bits of R82, R83; a command by its name and its inputs in the table's order (R97, R112; log 3). -/

namespace Sys2Proof

open Machine

/-- The answer of the decoder. -/
inductive Decoded where
  | instr (i : Instr)
  | rejected (e : LineError)
deriving DecidableEq, Repr

/-- The first four words of the instruction window, by offset: the rows with mask `~0x18` (R95). -/
def wordIndex (off : Nat) : Option (Fin 4) :=
  if off = 0x00 then some 0
  else if off = 0x08 then some 1
  else if off = 0x10 then some 2
  else if off = 0x18 then some 3
  else none

/-- A write access by the rows of R95, first match wins. -/
def decodeWrite (p : Params) (off n : Nat) (bytes : List Byte) : Decoded :=
  if bytes.length ≠ n then .rejected .payloadLength
  else if n = 8 ∧ off = Config.triggerOffset then .instr (.wr8Trig (payload64 bytes))
  else if n = 4 ∧ off = Config.triggerOffset then .instr (.wr4Meta (payload32 bytes))
  else if n = 8 ∧ window p off = .status then .instr (.wr8St (payload64 bytes))
  else if n = 4 ∧ window p off = .status then .instr (.wr4St (payload32 bytes))
  else match wordIndex off with
    | some i =>
      if n = 8 then .instr (.wr8W i (payload64 bytes))
      else if n = 4 then .instr (.wr4W i (payload32 bytes))
      else .instr (.badWr off n bytes)
    | none => .instr (.badWr off n bytes)

/-- A read access by the rows of R95, first match wins. -/
def decodeRead (p : Params) (off n : Nat) : Decoded :=
  if n = 8 ∧ off = Config.triggerOffset then .instr .rd8Meta
  else if n = 4 ∧ off = Config.triggerOffset then .instr .rd4Meta
  else if n = 8 ∧ window p off = .status then .instr .rd8St
  else if n = 4 ∧ window p off = .status then .instr .rd4St
  else match wordIndex off with
    | some i =>
      if n = 8 then .instr (.rd8W i)
      else if n = 4 then .instr (.rd4W i)
      else .instr (.badRd off n)
    | none => .instr (.badRd off n)

/-- An access. A read carries no payload. -/
def decodeAccess (p : Params) (a : Access) : Decoded :=
  match a.op with
  | .write => decodeWrite p a.off a.n a.bytes
  | .read => if a.bytes.length ≠ 0 then .rejected .payloadLength else decodeRead p a.off a.n

/-- Word 4 by its `instruction_type`: GEMM is the specific row, RECORD the generic one (R93). -/
def decodeMeta (w : Word64) : Instr :=
  if itypeOf w = Config.gemmType then
    .gemm (kOf w) (nOf w) (mOf w) (reservedOf w) (bTransposeOf w) (aTransposeOf w) (paddingOf w)
  else
    .record (kOf w) (nOf w) (mOf w) (reservedOf w) (bTransposeOf w) (aTransposeOf w) (itypeOf w)
      (paddingOf w)

/-- Word `idx` of a record (R80, R82, R83). -/
def decodeRecordWord (idx : Fin 5) (w : Word64) : Instr :=
  match idx with
  | 0 => .opdDin (strideMinorOf w) (strideMajorOf w) (baseAddrOf w)
  | 1 => .opdB (strideMinorOf w) (strideMajorOf w) (baseAddrOf w)
  | 2 => .opdA (strideMinorOf w) (strideMajorOf w) (baseAddrOf w)
  | 3 => .opdDout (strideMinorOf w) (strideMajorOf w) (baseAddrOf w)
  | 4 => decodeMeta w

/-- A record word in bus order: exactly 8 bytes, and every value of them decodes (R90, R93, R94). -/
def decodeWordBytes (idx : Fin 5) (bytes : List Byte) : Decoded :=
  if bytes.length ≠ 8 then .rejected .wordLength
  else .instr (decodeRecordWord idx (payload64 bytes))

/-- A role by its place in word order (R11). -/
def roleOfNat : Nat → Option Role
  | 0 => some .din
  | 1 => some .b
  | 2 => some .a
  | 3 => some .dout
  | _ => none

/-- A role's place in word order (R11, R80). -/
def roleIndex : Role → Nat
  | .din => 0
  | .b => 1
  | .a => 2
  | .dout => 3

/-- The inputs of ENCODE, SUBMIT and VALIDATE in the table's order, the last three optional (R97, R112). -/
def cmdOfInputs : List Nat → Option Cmd
  | [m, n, k, aDin, aB, aA, aDout] => some { m, n, k, aDin, aB, aA, aDout }
  | [m, n, k, aDin, aB, aA, aDout, tA] => some { m, n, k, aDin, aB, aA, aDout, tA }
  | [m, n, k, aDin, aB, aA, aDout, tA, tB] => some { m, n, k, aDin, aB, aA, aDout, tA, tB }
  | [m, n, k, aDin, aB, aA, aDout, tA, tB, itype] =>
    some { m, n, k, aDin, aB, aA, aDout, tA, tB, itype }
  | _ => none

/-- A command whose inputs are those of R112. -/
def decodeCmd (p : Params) (make : Cmd → Instr) (args : List Nat) : Decoded :=
  match cmdOfInputs args with
  | some c => if c.wf p then .instr (make c) else .rejected .addressTooWide
  | none => .rejected .inputs

/-- SCALE's inputs: a role and an address (R87). -/
def decodeScale (p : Params) (args : List Nat) : Decoded :=
  match args with
  | [r, addr] =>
    match roleOfNat r with
    | some r => if addr < 2 ^ p.addrBits then .instr (.scale r addr) else .rejected .addressTooWide
    | none => .rejected .noSuchRole
  | _ => .rejected .inputs

/-- An operation without inputs. -/
def decodeNullary (i : Instr) (args : List Nat) : Decoded :=
  match args with
  | [] => .instr i
  | _ => .rejected .inputs

/-- A command by its name and its inputs (R95, R97; the "in" lists of the table). -/
def decodeCommand (p : Params) (c : CmdName) (args : List Nat) : Decoded :=
  match c with
  | .blocks =>
    match args with
    | [d] => .instr (.blocks d)
    | _ => .rejected .inputs
  | .strides =>
    match args with
    | [nb, kb] => .instr (.strides nb kb)
    | _ => .rejected .inputs
  | .validate => decodeCmd p .validate args
  | .packOpd =>
    match args with
    | [sm, sM, ba] => .instr (.packOpd sm sM ba)
    | _ => .rejected .inputs
  | .packMeta =>
    match args with
    | [k, n, m, tB, tA, it] => .instr (.packMeta k n m tB tA it)
    | _ => .rejected .inputs
  | .scale => decodeScale p args
  | .encode => decodeCmd p .encode args
  | .transmit => decodeNullary .transmit args
  | .submit => decodeCmd p .submit args
  | .decode => decodeNullary .decode args
  | .setReceived => decodeNullary .setReceived args
  | .reset => decodeNullary .reset args

/-- The decoder: total on every line. -/
def decode (p : Params) (l : Line) : Decoded :=
  match l with
  | .access a => decodeAccess p a
  | .word idx bytes => decodeWordBytes idx bytes
  | .command c args => decodeCommand p c args

/-! ### The encoder -/

/-- An 8-byte write in bus order (R96). -/
def writeLine8 (off : Nat) (v : Word64) : Line := .access ⟨.write, off, 8, wordBytes v⟩

/-- A 4-byte write in bus order (R96). -/
def writeLine4 (off : Nat) (v : Word32) : Line := .access ⟨.write, off, 4, halfBytes v⟩

/-- A read (R96). -/
def readLine (off n : Nat) : Line := .access ⟨.read, off, n, []⟩

/-- A record word in bus order (R84). -/
def wordLine (idx : Fin 5) (w : Word64) : Line := .word idx (wordBytes w)

/-- All ten inputs of a command, in the table's order. -/
def cmdInputs (c : Cmd) : List Nat :=
  [c.m, c.n, c.k, c.aDin, c.aB, c.aA, c.aDout, c.tA, c.tB, c.itype]

/-- The line an instruction stands for: the table's offset and width, the layouts of R82 and R83, the inputs of
a command. -/
def encode (p : Params) (i : Instr) : Line :=
  match i with
  | .wr8W i v => writeLine8 (8 * i.val) v
  | .wr8Trig v => writeLine8 Config.triggerOffset v
  | .wr4W i v => writeLine4 (8 * i.val) v
  | .wr4Meta v => writeLine4 Config.triggerOffset v
  | .rd8W i => readLine (8 * i.val) 8
  | .rd8Meta => readLine Config.triggerOffset 8
  | .rd4W i => readLine (8 * i.val) 4
  | .rd4Meta => readLine Config.triggerOffset 4
  | .rd8St => readLine p.devStatus 8
  | .rd4St => readLine p.devStatus 4
  | .wr8St v => writeLine8 p.devStatus v
  | .wr4St v => writeLine4 p.devStatus v
  | .badWr off n bytes => .access ⟨.write, off, n, bytes⟩
  | .badRd off n => readLine off n
  | .gemm k n m rsv tB tA pad => wordLine 4 (metaWord k n m rsv tB tA Config.gemmType pad)
  | .record k n m rsv tB tA it pad => wordLine 4 (metaWord k n m rsv tB tA it pad)
  | .opdDin sm sM ba => wordLine 0 (opdWord sm sM ba)
  | .opdB sm sM ba => wordLine 1 (opdWord sm sM ba)
  | .opdA sm sM ba => wordLine 2 (opdWord sm sM ba)
  | .opdDout sm sM ba => wordLine 3 (opdWord sm sM ba)
  | .blocks d => .command .blocks [d]
  | .strides nb kb => .command .strides [nb, kb]
  | .validate c => .command .validate (cmdInputs c)
  | .packOpd sm sM ba => .command .packOpd [sm, sM, ba]
  | .packMeta k n m tB tA it => .command .packMeta [k, n, m, tB, tA, it]
  | .scale r addr => .command .scale [roleIndex r, addr]
  | .encode c => .command .encode (cmdInputs c)
  | .transmit => .command .transmit []
  | .submit c => .command .submit (cmdInputs c)
  | .decode => .command .decode []
  | .setReceived => .command .setReceived []
  | .reset => .command .reset []

/-! ### Pseudo-operations and the table's numbering -/

/-- CLEAR: `W8 ST, 0` (R97). -/
def clearLine (p : Params) : Line := writeLine8 p.devStatus 0#64

/-- ACK: `R8 ST` (R97). -/
def ackLine (p : Params) : Line := readLine p.devStatus 8

/-- The line of a word numbered as opcode_table.json numbers it. The only rows whose bits the table fixes are
those of the Meta word (GEMM, RECORD), so `w` is word 4 of a record; its bytes at or above `nbits` are 0, and
a number of more than 64 bits gives more than 8 bytes, which the decoder refuses (log 4). -/
def tableLine (nbits w : Nat) : Line :=
  .word 4 (leBytes (max 8 ((nbits + 7) / 8)) (w % 2 ^ nbits))

/-- The instruction the decoder reads from a word of the opcode table (log 4). -/
def decodeTableWord (nbits w : Nat) : Option Instr :=
  match decode Params.default (tableLine nbits w) with
  | .instr i => some i
  | .rejected _ => none

end Sys2Proof
end

