-- ==== Sys2Proof/Machine/State.lean ====
section
/-! DEFINITION. The state of the machine as plain data: the decoder device (10_state R20 to R25), the encoder
(R30 to R32), the parameters (00_scope R7), and the model's own fields: the script of pending events, the
stores in flight, and the reply of the last event. -/

namespace Sys2Proof.Machine

/-- The decoder's state machine (10_state R23). `triggered` exists only inside the trigger step. -/
inductive Fsm where
  | idle | filling | triggered
deriving DecidableEq, Repr

/-- One operand entry of a decoded record: `real_addr` is exact, so a natural number (41_decoder_write R147). -/
structure DecodedOpd where
  strideMinor : BitVec 20
  strideMajor : BitVec 20
  baseAddr    : BitVec 24
  realAddr    : Nat
deriving DecidableEq, Repr

/-- The decoded record handed to the execute collaborator (R147). -/
structure DecodedRecord where
  din  : DecodedOpd
  b    : DecodedOpd
  a    : DecodedOpd
  dout : DecodedOpd
  k : BitVec 8
  n : BitVec 8
  m : BitVec 8
  ifBTranspose : BitVec 1
  ifATranspose : BitVec 1
  instructionType : BitVec 5
deriving DecidableEq, Repr

/-- The decoder device with the Status Register controller. -/
structure Device where
  /-- `W[0]` to `W[4]` (R20) -/
  w : Vector Word64 Config.recordWords
  /-- the validity flag (R21) -/
  valid : Bool
  /-- the state machine (R23) -/
  fsm : Fsm
  /-- the Status Register (R24) -/
  status : Word64
  /-- the instruction counter (R25; width and wrap are the spec's own choice D6, log 18) -/
  icount : BitVec 64
  /-- the execute trace, oldest first (R22; the spec's own device D14, log 19) -/
  execLog : List DecodedRecord
deriving DecidableEq, Repr

/-- The serializer's position (10_state R30). -/
inductive EncStep where
  | eIdle | tx0 | tx1 | tx2 | tx3 | tx4 | fence | readStatus
deriving DecidableEq, Repr

/-- The encoder (10_state R30 to R32). -/
structure Encoder where
  /-- the sequencer position (R30) -/
  step : EncStep
  /-- `REC[0]` to `REC[4]` (R31) -/
  recWords : Vector Word64 Config.recordWords
  /-- whether an ENCODE has written `REC` (R33, U11; log 8) -/
  recWritten : Bool
  /-- the acknowledgement (R32) -/
  ack : Word64
  /-- whether a completed TRANSMIT has written `ack` (R32, R33; log 8) -/
  ackWritten : Bool
  /-- none, or one error name (R32) -/
  err : Option EncErrName
deriving DecidableEq, Repr

/-- What an event returns to its caller (00_scope R3, R10; 60_exceptions R188). Error names with their info are
for diagnostics only: no other definition of the machine reads a reply (log 6). -/
inductive Reply where
  /-- nothing has been returned yet, or the event returns nothing -/
  | nothing
  /-- `ok = true`, no data -/
  | ok
  /-- `ok = true` with the data of a read -/
  | data (bytes : List Byte)
  /-- `ok = false`; no data; the name, offset and width are the diagnostic -/
  | failed (e : AccessError) (off n : Nat)
  /-- a store in flight went to an address that is not routed to the device: what it returned is not this block's (R51,
  D18; log 12) -/
  | elsewhere
  /-- a command ended with `err = none` and no value -/
  | done
  /-- a pure function's number (BLOCKS, SCALE) -/
  | number (v : Nat)
  /-- STRIDES' result: (`stride_minor`, `stride_major`) of Din, B, A, Dout -/
  | strides (s : List (Nat × Nat))
  /-- a packed word (PACK_OPD, PACK_META) -/
  | word (w : Word64)
  /-- DECODE's record -/
  | decoded (d : DecodedRecord)
  /-- the acknowledgement of TRANSMIT and SUBMIT -/
  | ack (v : Word64)
  /-- a command refused by a check -/
  | refused (e : EncError)
  /-- a command presented while the encoder is not idle, or a delivery the barriers do not let happen now:
  turned away with no effect (log 9, log 15) -/
  | turnedAway
deriving DecidableEq, Repr

/-- The producer's accesses on their way to the device (20_memory R59 to R61; log 15). -/
inductive PathItem where
  | store (addr : Nat) (bytes : List Byte)
  | barrier
deriving DecidableEq, Repr

/-- The whole state. -/
structure State where
  /-- the parameters; no step changes them (R7, R212) -/
  params : Params
  /-- the decoder device -/
  dev : Device
  /-- the encoder -/
  enc : Encoder
  /-- stores in flight, oldest first (model's own, log 15) -/
  path : List PathItem
  /-- events still to come; the head comes next (model's own, log 1) -/
  script : List Event
  /-- what the last event returned (model's own, log 6) -/
  reply : Reply
  /-- what the stores that were in flight returned, `ok`, `failed` or `elsewhere`, one answer for each in the order of
  arrival (model's own, log 42; nothing the block does depends on it) -/
  reports : List Reply
deriving DecidableEq, Repr

/-- Why the machine stops with a fault. -/
inductive Fault where
  /-- A position of the serializer reads a `REC` that no ENCODE has written: "reading them has no meaning (`fault`); not
  zero" (93 U11), "must not be read before an ENCODE" (R33, D19). Raised by `storeWord`. Safe. -/
  | recNotWritten
  /-- a bus access of the serializer failed: "a fault of the run" (R119, U10). Raised by `serializerStep`. Safe. -/
  | busAccessFailed
deriving DecidableEq, Repr

/-- Why the model gives an event no meaning. -/
inductive Refusal where
  /-- An instruction that has no meaning yet. Raised by no arm of this model. Safe. -/
  | notModelled (mnemonic : String)
  /-- An access the producer issues at once, or the serializer's, at a system address below DEVICE_BASE or of more than
  ADDR_BITS bits: "the host's wiring and outside this block" (R51, D18). Raised by `presentStore`, `presentLoad`, `storeWord`
  and `readAcknowledge`. Safe. -/
  | unroutedAddress
  /-- A script line that is no access and no command. Raised by `runLine`. Safe. -/
  | malformedLine (e : LineError)
deriving DecidableEq, Repr

/-- The outcome of one step. -/
abbrev StepOutcome := Host.Outcome State Fault Refusal

/-- The device after a device reset (R26 to R29, R210). `STATUS`, `icount` and `exec_log` at reset are the spec's
own choices D5, D6, D14 (log 17, 18, 19). -/
def Device.reset : Device :=
  { w := #v[0#64, 0#64, 0#64, 0#64, 0#64]
    valid := false
    fsm := .idle
    status := Config.statusReset
    icount := 0#64
    execLog := [] }

/-- The encoder at the start (R33, R211). `REC` and `ack` are unspecified there and are not read before they are
written; the zeros are a DESIGN CHOICE (log 8). -/
def Encoder.reset : Encoder :=
  { step := .eIdle
    recWords := #v[0#64, 0#64, 0#64, 0#64, 0#64]
    recWritten := false
    ack := 0#64
    ackWritten := false
    err := none }

/-- The machine right after reset: no event pending, nothing in flight (log 1, log 15). -/
def State.reset : State :=
  { params := Params.default
    dev := Device.reset
    enc := Encoder.reset
    path := []
    script := []
    reply := .nothing
    reports := [] }

end Sys2Proof.Machine
end

