-- ==== Sys2Proof/Machine/Operands.lean ====
section
/-! DEFINITION. The pure computations on operands: block counts, strides, scaling, packing, the encoder's checks
(40_encoder R110 to R115, 30_encoding R85 to R88) and the decoder's unpacking (R90, R147). -/

namespace Sys2Proof.Machine

/-! ### Roles -/

/-- `ALIGN(r)` (00_scope R6, R11). -/
def align : Role → Nat
  | .din => Config.accumulatorAlign
  | .b => Config.multiplicandAlign
  | .a => Config.multiplicandAlign
  | .dout => Config.accumulatorAlign

/-- The address a command gives for a role (R112). -/
def addrOf (c : Cmd) : Role → Nat
  | .din => c.aDin
  | .b => c.aB
  | .a => c.aA
  | .dout => c.aDout

/-- The size a command gives for a dimension (R112). -/
def dimOf (c : Cmd) : Dim → Nat
  | .m => c.m
  | .n => c.n
  | .k => c.k

/-! ### Encoder direction -/

/-- BLOCKS: `block(d) = (d + 63) div 64` (R110). -/
def block (d : Nat) : Nat := (d + (Config.blockSize - 1)) / Config.blockSize

/-- STRIDES: `stride_minor` of a role (R111). -/
def strideMinorTx (nBlock kBlock : Nat) : Role → Nat
  | .din => nBlock
  | .b => nBlock
  | .a => kBlock
  | .dout => nBlock

/-- STRIDES: both stride fields of the four descriptors, in word order (R111). -/
def stridesTx (nBlock kBlock : Nat) : List (Nat × Nat) :=
  [Role.din, Role.b, Role.a, Role.dout].map fun r => (strideMinorTx nBlock kBlock r, Config.strideMajorTx)

/-- SCALE: `addr div ALIGN(r)` (R87). -/
def scaleAddr (r : Role) (addr : Nat) : Nat := addr / align r

/-- The packed Operand Descriptor as R85 writes it, without its precondition. -/
def packOpdValue (sm sM ba : Nat) : Word64 := BitVec.ofNat 64 (sm ||| (sM <<< 20) ||| (ba <<< 40))

/-- The packed Meta word as R86 writes it, without its precondition: `zext_64(meta32)`. -/
def packMetaValue (k n m tB tA itype : Nat) : Word64 :=
  BitVec.ofNat 64 (k ||| (n <<< 8) ||| (m <<< 16) ||| (Config.reservedTx <<< 24) ||| (tB <<< 25) |||
    (tA <<< 26) ||| (itype <<< 27))

/-- OverflowField where a value has not the field's width (R183). -/
def overflow (bits : Nat) (f : FieldName) (v : Nat) : Option EncError :=
  if 2 ^ bits ≤ v then some (.overflowField f v) else none

/-- The first check that fails (R113, R187). -/
def firstError : List (Option EncError) → Option EncError
  | [] => none
  | some e :: _ => some e
  | none :: rest => firstError rest

/-- The precondition of `pack_opd` (R85; the order of its checks is DEDUCED, log 36). -/
def packOpdError (sm sM ba : Nat) : Option EncError :=
  firstError
    [overflow Config.strideMinorBits .strideMinor sm, overflow Config.strideMajorBits .strideMajor sM,
     overflow Config.baseBits .baseAddr ba]

/-- The precondition of `pack_meta` (R86; the order of its checks is DEDUCED, log 36). -/
def packMetaError (k n m tB tA itype : Nat) : Option EncError :=
  firstError
    [overflow Config.dimBits (.dim .k) k, overflow Config.dimBits (.dim .n) n,
     overflow Config.dimBits (.dim .m) m, overflow 1 .ifBTranspose tB, overflow 1 .ifATranspose tA,
     overflow Config.itypeBits .instructionType itype]

/-- The check that a dimension is positive (R113, R185; the error is the spec's own choice D13, log 28). -/
def dimZeroError (c : Cmd) (d : Dim) : Option EncError :=
  if dimOf c d = 0 then some (.invalidDimension d) else none

/-- The check that a block count fits (R113). -/
def dimSizeError (c : Cmd) (d : Dim) : Option EncError :=
  overflow Config.dimBits (.dim d) (block (dimOf c d))

/-- The check that an address is a multiple of its role alignment (R113, R184). -/
def multipleError (c : Cmd) (r : Role) : Option EncError :=
  if addrOf c r % align r ≠ 0 then some (.nonMultipleAddress r (addrOf c r)) else none

/-- The check that a scaled address fits `base_addr` (R113, R183). -/
def baseError (c : Cmd) (r : Role) : Option EncError :=
  overflow Config.baseBits (.baseAddrOf r) (scaleAddr r (addrOf c r))

/-- VALIDATE: every check in the order of R113 (the order is the spec's own choice D13, log 28). -/
def validateCmd (c : Cmd) : Option EncError :=
  firstError
    [dimZeroError c .m, dimZeroError c .n, dimZeroError c .k,
     dimSizeError c .m, dimSizeError c .n, dimSizeError c .k,
     overflow 1 .ifBTranspose c.tB, overflow 1 .ifATranspose c.tA,
     overflow Config.itypeBits .instructionType c.itype,
     multipleError c .din, baseError c .din, multipleError c .b, baseError c .b,
     multipleError c .a, baseError c .a, multipleError c .dout, baseError c .dout]

/-- One Operand Descriptor of the record ENCODE builds (R115). -/
def buildOpd (c : Cmd) (r : Role) : Word64 :=
  packOpdValue (strideMinorTx (block c.n) (block c.k) r) Config.strideMajorTx (scaleAddr r (addrOf c r))

/-- The Meta word of the record ENCODE builds (R115). -/
def buildMeta (c : Cmd) : Word64 :=
  packMetaValue (block c.k) (block c.n) (block c.m) c.tB c.tA c.itype

/-- The record ENCODE builds once VALIDATE has passed (R115; the order of words 1 to 3 is the spec's own choice D4,
log 22). -/
def buildRecord (c : Cmd) : Vector Word64 Config.recordWords :=
  #v[buildOpd c .din, buildOpd c .b, buildOpd c .a, buildOpd c .dout, buildMeta c]

/-- The name of an error, without its info (R32, R180). -/
def errName : EncError → EncErrName
  | .overflowField _ _ => .overflowField
  | .nonMultipleAddress _ _ => .nonMultipleAddress
  | .invalidDimension _ => .invalidDimension

/-! ### Decoder direction -/

/-- `real_addr(r, ba) = ba * ALIGN(r)`, exact (R88). -/
def realAddr (r : Role) (ba : BitVec 24) : Nat := ba.toNat * align r

/-- `unpack_opd` with the reconstructed address of a role (R90, R147). -/
def unpackOpd (r : Role) (w : Word64) : DecodedOpd :=
  { strideMinor := strideMinorOf w
    strideMajor := strideMajorOf w
    baseAddr := baseAddrOf w
    realAddr := realAddr r (baseAddrOf w) }

/-- DECODE of five words (R147): bit 24 and the padding of word 4 are dropped. -/
def decodeRecord (w : Vector Word64 Config.recordWords) : DecodedRecord :=
  { din := unpackOpd .din w[0]
    b := unpackOpd .b w[1]
    a := unpackOpd .a w[2]
    dout := unpackOpd .dout w[3]
    k := kOf w[4]
    n := nOf w[4]
    m := mOf w[4]
    ifBTranspose := bTransposeOf w[4]
    ifATranspose := aTransposeOf w[4]
    instructionType := itypeOf w[4] }

end Sys2Proof.Machine
end

