-- ==== Sys2Proof/Machine/Flags.lean ====
section
/-! DEFINITION. The decoder's flags, which are `valid`, `fsm` and `icount` (41_decoder_write, first paragraph), and the
encoder's one flag, `err` (40_encoder, first paragraph). -/

namespace Sys2Proof.Machine

/-- A successful instruction-window write that is no trigger makes `fsm` `Filling` (R142, R144, R149; the event is the
spec's own choice D8, log 20). -/
def Device.setFilling (d : Device) : Device := { d with fsm := .filling }

/-- "marked valid": `valid <- true; fsm <- Triggered` (R143). -/
def Device.markValid (d : Device) : Device := { d with valid := true, fsm := .triggered }

/-- "immediately consumed (reset to invalid)": `valid <- false; fsm <- Idle` (R143). -/
def Device.consume (d : Device) : Device := { d with valid := false, fsm := .idle }

/-- `icount <- (icount + 1) mod 2^64` (R25, R143). -/
def Device.countTrigger (d : Device) : Device := { d with icount := d.icount + 1#64 }

/-- The encoder's flag after a command that raises: the error's name; after one that passes its checks: none (R32,
R10; log 13). -/
def Encoder.setErr (e : Encoder) (r : Option EncError) : Encoder := { e with err := r.map errName }

end Sys2Proof.Machine
end

