-- ==== Sys2Proof/Machine/Ops.lean ====
section
/-! DEFINITION. The named operations of the machine: reading and writing a cell, a word write, a narrow write, the
trigger, the device's dispatch of an access (R140, R160), how an error is taken on either side (R188), routing
(R51), and the serializer (R116). -/

namespace Sys2Proof.Machine

/-! ### Cells and the Status Register -/

/-- `W[i]` (R10, R20). -/
def Device.cell (d : Device) (i : Fin 5) : Word64 := d.w[i]

/-- `W[i] <- v` (R10, R20). -/
def Device.setCell (d : Device) (i : Fin 5) (v : Word64) : Device := { d with w := d.w.set i v }

/-- `STATUS <- v`, all 64 bits (R24). -/
def Device.setStatus (d : Device) (v : Word64) : Device := { d with status := v }

/-- SET_RECEIVED: `STATUS <- STATUS_RECEIVED`, all 64 bits replaced (R174; assignment and not OR is the spec's own
choice D21, log 25). -/
def Device.setReceived (d : Device) : Device := d.setStatus Config.statusReceived

/-! ### Instruction-window accesses -/

/-- An 8-byte write that does not trigger: `W[i] <- v; fsm <- Filling` (R142). -/
def Device.storeWhole (d : Device) (i : Fin 5) (v : Word64) : Device := (d.setCell i v).setFilling

/-- A narrow write: `W[i] <- { W[i][63:32], v[31:0] }; fsm <- Filling` (R144). -/
def Device.storeLow (d : Device) (i : Fin 5) (v : Word32) : Device :=
  (d.setCell i (replaceLow (d.cell i) v)).setFilling

/-- `emit Exec(d)`: the decoded cells are handed to the execute collaborator (R147, R148). -/
def Device.handOff (d : Device) : Device := { d with execLog := d.execLog ++ [decodeRecord d.w] }

/-- The trigger, one atomic step, in the order of R143's pseudocode. The cells keep their values (the spec's own
choice D7, log 21). -/
def Device.trigger (d : Device) (v : Word64) : Device :=
  ((((d.setCell 4 v).markValid).handOff.setReceived).countTrigger).consume

/-- The bytes of an 8-byte read of a cell (R161). -/
def Device.readWhole (d : Device) (i : Fin 5) : List Byte := wordBytes (d.cell i)

/-- The bytes of a 4-byte read of a cell: bits [31:0] (R162; the half is the spec's own choice D20, log 24). -/
def Device.readLow (d : Device) (i : Fin 5) : List Byte := halfBytes (lowHalf (d.cell i))

/-! ### Status-window accesses -/

/-- A 4-byte status write keeps the high half (R173; the spec's own choice D9, log 23). -/
def Device.storeStatusLow (d : Device) (v : Word32) : Device := d.setStatus (replaceLow d.status v)

/-- The bytes of an 8-byte status read (R170). -/
def Device.readStatus (d : Device) : List Byte := wordBytes d.status

/-- The bytes of a 4-byte status read (R171). -/
def Device.readStatusLow (d : Device) : List Byte := halfBytes (lowHalf d.status)

/-! ### Dispatch of an access -/

/-- The cell an offset of the instruction window addresses: `off div 8` (R20, R142). -/
def cellOf (off : Nat) : Fin 5 := ⟨off / 8 % 5, Nat.mod_lt _ (by decide)⟩

/-- `DevWrite(off, n, bytes)` (R140): the error it raises, or the device after it. -/
def devWrite (p : Params) (off n : Nat) (bytes : List Byte) (d : Device) : Except AccessError Device :=
  match accessError p off n with
  | some e => .error e
  | none =>
    match window p off with
    | .status => .ok (if n = 8 then d.setStatus (payload64 bytes) else d.storeStatusLow (payload32 bytes))
    | _ =>
      if n = 8 then
        if off = Config.triggerOffset then .ok (d.trigger (payload64 bytes))
        else .ok (d.storeWhole (cellOf off) (payload64 bytes))
      else .ok (d.storeLow (cellOf off) (payload32 bytes))

/-- `DevRead(off, n)` (R160): the error it raises, or the bytes it returns. -/
def devRead (p : Params) (off n : Nat) (d : Device) : Except AccessError (List Byte) :=
  match accessError p off n with
  | some e => .error e
  | none =>
    match window p off with
    | .status => .ok (if n = 8 then d.readStatus else d.readStatusLow)
    | _ => .ok (if n = 8 then d.readWhole (cellOf off) else d.readLow (cellOf off))

/-! ### Replies, and how an error is taken -/

/-- The event returns `r`. -/
def State.respond (s : State) (r : Reply) : State := { s with reply := r }

/-- The device is replaced and the write returns `ok = true`. -/
def State.wrote (s : State) (d : Device) : State := { s with dev := d, reply := .ok }

/-- Decoder side: an access fails. `ok = false`, no data, no state of the block changes (R145, R163, R188); there is
nothing to return from (R189). -/
def failAccess (e : AccessError) (off n : Nat) (s : State) : StepOutcome :=
  .next (s.respond (.failed e off n))

/-- A write is presented to the device at an offset, and the device answers: the device after it and `ok = true`, or
`ok = false` with nothing changed (R140, R188). -/
def State.storeAt (s : State) (off : Nat) (bytes : List Byte) : State :=
  match devWrite s.params off bytes.length bytes s.dev with
  | .ok d => s.wrote d
  | .error e => s.respond (.failed e off bytes.length)

/-- Encoder side: a command is refused by a check. `err` holds the error's name; `REC`, `step` and the device are
untouched and no access is issued (R114, R188). -/
def refuseCommand (e : EncError) (s : State) : StepOutcome :=
  .next { s with enc := s.enc.setErr (some e), reply := .refused e }

/-- A command is accepted only when `step = EIdle` (R117); another one is turned away with no effect (DEDUCED, log 9). -/
def whenIdle (s : State) (command : StepOutcome) : StepOutcome :=
  if s.enc.step = .eIdle then command else .next (s.respond .turnedAway)

/-! ### Routing -/

/-- The device offset of a system address; none where routing is not this block's (R51, D18, log 12). -/
def route (p : Params) (addr : Nat) : Option Nat :=
  if p.devBase ≤ addr ∧ addr < 2 ^ p.addrBits then some (addr - p.devBase) else none

/-- `MemWrite(addr, n, v)` presented to the device as one access (R10, R51, R217). -/
def presentStore (addr : Nat) (bytes : List Byte) (s : State) : StepOutcome :=
  match route s.params addr with
  | none => .refused .unroutedAddress
  | some off => .next (s.storeAt off bytes)

/-- `MemRead(addr, n)` presented to the device as one access (R10, R51). -/
def presentLoad (addr n : Nat) (s : State) : StepOutcome :=
  match route s.params addr with
  | none => .refused .unroutedAddress
  | some off =>
    match devRead s.params off n s.dev with
    | .ok bytes => .next (s.respond (.data bytes))
    | .error e => failAccess e off n s

/-! ### The path between producer and device -/

/-- Whether an item of the path is a store. -/
def PathItem.isStore : PathItem → Bool
  | .store _ _ => true
  | .barrier => false

/-- The stores that may arrive now: those issued before the first compiler barrier in flight (R60). -/
def readyStores (path : List PathItem) : List PathItem := path.takeWhile PathItem.isStore

/-- The path without its `j`-th item; a barrier with nothing left before it orders nothing more. -/
def withoutItem (path : List PathItem) (j : Nat) : List PathItem :=
  (path.eraseIdx j).dropWhile fun x => !x.isStore

/-- What a store that was in flight returned is reported to the producer, once (R188, R189; how it returns is a DESIGN CHOICE,
log 42). -/
def State.report (s : State) (r : Reply) : State := { s with reports := s.reports ++ [r], reply := .nothing }

/-- A store that was in flight arrives. At a routed address it is presented to the device as any access. At another address it
is performed outside this block (R51, D18): no state of the block changes, what it returned is not this block's, and it is
in flight no longer, so that a barrier which orders it, "to any address", completes (R61; log 12). -/
def arriveStore (addr : Nat) (bytes : List Byte) (s : State) : State :=
  match route s.params addr with
  | none => s.report .elsewhere
  | some off => (s.storeAt off bytes).report (s.storeAt off bytes).reply

/-- The `j`-th store in flight arrives, if no barrier holds it back; else it is turned away (R59, R60, log 15). -/
def deliverStore (j : Nat) (s : State) : StepOutcome :=
  match (readyStores s.path)[j]? with
  | some (.store addr bytes) => .next (arriveStore addr bytes { s with path := withoutItem s.path j })
  | _ => .next (s.respond .turnedAway)

/-- BARRIER.C: stores issued later may not arrive before those in flight now (R60). -/
def compilerBarrier (s : State) : StepOutcome :=
  .next { s with path := if s.path = [] then [] else s.path ++ [.barrier], reply := .nothing }

/-- The stores of a path arrive one after another, oldest first; each is reported, and one that fails changes nothing and
lets the next arrive (R188, R189). -/
def performStores : List PathItem → State → State
  | [], s => s
  | .barrier :: rest, s => performStores rest s
  | .store addr bytes :: rest, s => performStores rest (arriveStore addr bytes s)

/-- BARRIER.F: when it completes, the device has performed every earlier store (R61). It always completes, whatever the stores'
addresses; the barrier itself returns nothing, and what became of each store, a failure included, is in `reports`. The spec
leaves open what the producer sees of a store in flight that fails while a barrier waits for it: DESIGN CHOICE, log 42. -/
def fullBarrier (s : State) : StepOutcome :=
  .next ((performStores s.path { s with path := [] }).respond .nothing)

/-- The items of a path up to its last compiler barrier: what must arrive before a store issued now (R60). -/
def heldByBarrier (path : List PathItem) : List PathItem :=
  (path.reverse.dropWhile PathItem.isStore).reverse

/-- The stores of a path behind its last compiler barrier: they may arrive after a store issued now (R59). -/
def behindBarrier (path : List PathItem) : List PathItem :=
  (path.reverse.takeWhile PathItem.isStore).reverse

/-- Before a store the producer issues now can arrive, every store that a compiler barrier orders before it arrives
(R60). -/
def settle (s : State) : State := performStores (heldByBarrier s.path) { s with path := behindBarrier s.path }

/-- The producer's store, issued and presented at once: `MemWrite` (R10, R51, R60). -/
def producerStore (addr : Nat) (bytes : List Byte) (s : State) : StepOutcome := presentStore addr bytes (settle s)

/-! ### The encoder -/

/-- `REC <- r; err <- none` (R115). -/
def Encoder.setRecord (e : Encoder) (r : Vector Word64 Config.recordWords) : Encoder :=
  { e with recWords := r, recWritten := true, err := none }

/-- `step <- p`. -/
def Encoder.goto (e : Encoder) (p : EncStep) : Encoder := { e with step := p }

/-- `ack <- v; step <- EIdle` (R116). -/
def Encoder.acknowledge (e : Encoder) (v : Word64) : Encoder :=
  { e with ack := v, ackWritten := true, step := .eIdle }

/-- ENCODE's own effect, once the command is accepted (R115, R114). -/
def encodeAccepted (c : Cmd) (s : State) : StepOutcome :=
  match validateCmd c with
  | some e => refuseCommand e s
  | none => .next { s with enc := s.enc.setRecord (buildRecord c), reply := .done }

/-- `step <- Tx0` (R116); `REC` is not read yet. -/
def beginTransmit (s : State) : State := { s with enc := s.enc.goto .tx0, reply := .nothing }

/-- One store of the serializer: `MemWrite(DEVICE_BASE + 8*i, 8, REC[i])` and the next position. A failed access is a
fault of the run (R116, R119, log 11). So is the read of a `REC[i]` that no ENCODE has written: "must not be read before an
ENCODE" (R33), "reading them has no meaning (`fault`); not zero" (93 U11, D19). -/
def storeWord (i : Fin 5) (next : EncStep) (s : State) : StepOutcome :=
  if s.enc.recWritten then
    match route s.params (s.params.encBase + 8 * i.val) with
    | none => .refused .unroutedAddress
    | some off =>
      match devWrite s.params off 8 (wordBytes s.enc.recWords[i]) s.dev with
      | .ok d => .next { s.wrote d with enc := s.enc.goto next }
      | .error _ => .fault .busAccessFailed
  else .fault .recNotWritten

/-- The serializer's load: `ack <- MemRead(DEVICE_BASE + STATUS_OFFSET, 8)`; `step <- EIdle` (R116, R118). -/
def readAcknowledge (s : State) : StepOutcome :=
  match route s.params (s.params.encBase + s.params.encStatus) with
  | none => .refused .unroutedAddress
  | some off =>
    match devRead s.params off 8 s.dev with
    | .ok bytes =>
      .next { s with enc := s.enc.acknowledge (payload64 bytes), reply := .ack (payload64 bytes) }
    | .error _ => .fault .busAccessFailed

/-- A position that stores `REC[i]`: what an earlier barrier orders before it arrives, then the store (R60, R116). -/
def sendWord (i : Fin 5) (next : EncStep) (s : State) : StepOutcome := storeWord i next (settle s)

/-- A position that stores `REC[i]` and lets the compiler barrier of R116 follow it. -/
def sendWordBarrier (i : Fin 5) (next : EncStep) (s : State) : StepOutcome :=
  match sendWord i next s with
  | .next t => compilerBarrier t
  | .fault r => .fault r
  | .refused r => .refused r

/-- One position of the serializer (R30, R116). At `Fence` the full barrier completes: every store the producer still
has in flight arrives before the status read (R61). -/
def serializerStep (s : State) : StepOutcome :=
  match s.enc.step with
  | .eIdle => .next (s.respond .turnedAway)
  | .tx0 => sendWordBarrier 0 .tx1 s
  | .tx1 => sendWordBarrier 1 .tx2 s
  | .tx2 => sendWordBarrier 2 .tx3 s
  | .tx3 => sendWordBarrier 3 .tx4 s
  | .tx4 => sendWord 4 .fence s
  | .fence => fullBarrier { s with enc := s.enc.goto .readStatus }
  | .readStatus => readAcknowledge s

/-- `k` positions of the serializer, stopping where one stops. -/
def serializerRun : Nat → State → StepOutcome
  | 0, s => .next s
  | k + 1, s =>
    match serializerStep s with
    | .next t => serializerRun k t
    | .fault r => .fault r
    | .refused r => .refused r

/-- The positions from `Tx0` to the acknowledgement: five stores, the fence, the status read (R116). -/
def transmitPositions : Nat := 7

/-- TRANSMIT's own effect, once the command is accepted: all of R116 in one step, for the single producer that issues
its accesses in program order (R116, R193, log 10). -/
def transmitAccepted (s : State) : StepOutcome := serializerRun transmitPositions (beginTransmit s)

end Sys2Proof.Machine
end

