-- ==== Sys2Proof/Machine/BusRead.lean ====
section
/-! DEFINITION. The read accesses of the device: rows RD8_W and RD4_W (two rows each), RD8_ST, RD4_ST and BAD_RD
(42_decoder_read R161 to R163, 43_status R170, R171). No read changes any state of the block (R57; the spec's own
choice D17, log 29). -/

namespace Sys2Proof.Machine

/-- RD8_W, words 0 to 3 (R161). -/
def execRd8W (i : Fin 4) (s : State) : StepOutcome :=
  .next (s.respond (.data (s.dev.readWhole i.castSucc)))

/-- RD8_W, word 4 (R161): a read at 0x20 never triggers. -/
def execRd8Meta (s : State) : StepOutcome :=
  .next (s.respond (.data (s.dev.readWhole 4)))

/-- RD4_W, words 0 to 3 (R162). -/
def execRd4W (i : Fin 4) (s : State) : StepOutcome :=
  .next (s.respond (.data (s.dev.readLow i.castSucc)))

/-- RD4_W, word 4 (R162). -/
def execRd4Meta (s : State) : StepOutcome :=
  .next (s.respond (.data (s.dev.readLow 4)))

/-- RD8_ST (R170). -/
def execRd8St (s : State) : StepOutcome :=
  .next (s.respond (.data s.dev.readStatus))

/-- RD4_ST (R171). -/
def execRd4St (s : State) : StepOutcome :=
  .next (s.respond (.data s.dev.readStatusLow))

/-- BAD_RD (R163): the read fails and delivers no data (log 30). -/
def execBadRd (off n : Nat) (s : State) : StepOutcome :=
  failAccess (accessErrorName s.params off) off n s

end Sys2Proof.Machine
end

