-- ==== Sys2Proof/Machine/BusWrite.lean ====
section
/-! DEFINITION. The write accesses of the device: rows WR8_W, WR8_TRIG, WR4_W (two rows), WR8_ST, WR4_ST and BAD_WR
(41_decoder_write R142 to R145, 43_status R172, R173). -/

namespace Sys2Proof.Machine

/-- WR8_W (R142): replace word `i`, no trigger. -/
def execWr8W (i : Fin 4) (v : Word64) (s : State) : StepOutcome :=
  .next (s.wrote (s.dev.storeWhole i.castSucc v))

/-- WR8_TRIG (R143): replace word 4 and trigger. -/
def execWr8Trig (v : Word64) (s : State) : StepOutcome :=
  .next (s.wrote (s.dev.trigger v))

/-- WR4_W, words 0 to 3 (R144): replace the low half of word `i`. -/
def execWr4W (i : Fin 4) (v : Word32) (s : State) : StepOutcome :=
  .next (s.wrote (s.dev.storeLow i.castSucc v))

/-- WR4_W, word 4 (R144): replace the Meta Descriptor, never trigger. -/
def execWr4Meta (v : Word32) (s : State) : StepOutcome :=
  .next (s.wrote (s.dev.storeLow 4 v))

/-- WR8_ST (R172). -/
def execWr8St (v : Word64) (s : State) : StepOutcome :=
  .next (s.wrote (s.dev.setStatus v))

/-- WR4_ST (R173). -/
def execWr4St (v : Word32) (s : State) : StepOutcome :=
  .next (s.wrote (s.dev.storeStatusLow v))

/-- BAD_WR (R145): the write fails, whatever its payload. -/
def execBadWr (off n : Nat) (_bytes : List Byte) (s : State) : StepOutcome :=
  failAccess (accessErrorName s.params off) off n s

end Sys2Proof.Machine
end

