-- ==== Sys2Proof/Machine/Commands.lean ====
section
/-! DEFINITION. The encoder's operations: rows BLOCKS, STRIDES, VALIDATE, PACK_OPD, PACK_META, SCALE, ENCODE, TRANSMIT,
SUBMIT (40_encoder R110 to R117, 30_encoding R85 to R87). -/

namespace Sys2Proof.Machine

/-- BLOCKS (R110): a pure function, no flag, no error. -/
def execBlocks (d : Nat) (s : State) : StepOutcome := .next (s.respond (.number (block d)))

/-- STRIDES (R111): a pure function, no flag, no error. -/
def execStrides (nBlock kBlock : Nat) (s : State) : StepOutcome :=
  .next (s.respond (.strides (stridesTx nBlock kBlock)))

/-- SCALE (R87): a pure function, no flag, no error. -/
def execScale (r : Role) (addr : Nat) (s : State) : StepOutcome := .next (s.respond (.number (scaleAddr r addr)))

/-- VALIDATE's own effect, once the command is accepted: its one flag is `err`, none or the first error (R113, log 13). -/
def validateAccepted (c : Cmd) (s : State) : StepOutcome :=
  match validateCmd c with
  | some e => refuseCommand e s
  | none => .next { s with enc := s.enc.setErr none, reply := .done }

/-- VALIDATE (R113). -/
def execValidate (c : Cmd) (s : State) : StepOutcome := whenIdle s (validateAccepted c s)

/-- A pure function with a precondition: the value, or the raise of R10; it needs no idle encoder (R95; log 9). -/
def checkedValue (check : Option EncError) (value : Reply) (s : State) : StepOutcome :=
  match check with
  | some e => refuseCommand e s
  | none => .next (s.respond value)

/-- PACK_OPD (R85). -/
def execPackOpd (sm sM ba : Nat) (s : State) : StepOutcome :=
  checkedValue (packOpdError sm sM ba) (.word (packOpdValue sm sM ba)) s

/-- PACK_META (R86). -/
def execPackMeta (k n m tB tA itype : Nat) (s : State) : StepOutcome :=
  checkedValue (packMetaError k n m tB tA itype) (.word (packMetaValue k n m tB tA itype)) s

/-- ENCODE (R115). -/
def execEncode (c : Cmd) (s : State) : StepOutcome := whenIdle s (encodeAccepted c s)

/-- TRANSMIT (R116). -/
def execTransmit (s : State) : StepOutcome := whenIdle s (transmitAccepted s)

/-- SUBMIT (R117): ENCODE, and TRANSMIT if `err` is none. -/
def execSubmit (c : Cmd) (s : State) : StepOutcome :=
  whenIdle s
    (match encodeAccepted c s with
    | .next t => if t.enc.err = none then transmitAccepted t else .next t
    | .fault r => .fault r
    | .refused r => .refused r)

end Sys2Proof.Machine
end

