-- ==== Sys2Proof/Machine/Internal.lean ====
section
/-! DEFINITION. The decoder's internal operations and the reset event: rows DECODE, SET_RECEIVED, RESET
(41_decoder_write R147, 43_status R174, 70_reset_and_hazards R210). -/

namespace Sys2Proof.Machine

/-- DECODE (R147): a total pure function of the five cells; as a step of its own it returns the record and changes no
state (log 35). -/
def execDecode (s : State) : StepOutcome := .next (s.respond (.decoded (decodeRecord s.dev.w)))

/-- SET_RECEIVED (R174): `STATUS <- 0x1`, all 64 bits (log 35). -/
def execSetReceived (s : State) : StepOutcome := .next { s with dev := s.dev.setReceived, reply := .nothing }

/-- RESET (R210): the decoder device takes its reset values; the encoder and what is in flight are untouched (DESIGN CHOICE,
log 14). -/
def execReset (s : State) : StepOutcome := .next { s with dev := Device.reset, reply := .nothing }

end Sys2Proof.Machine
end

