-- ==== Sys2Proof/Machine/Records.lean ====
section
/-! DEFINITION. The words of an Instruction Record on receipt: rows GEMM, RECORD, OPD.Din, OPD.B, OPD.A, OPD.Dout.
A word is received by the 8-byte write at its device offset (30_encoding R80, R95, the table's `device_offset`;
log 5): words 0 to 3 are stored (R142), word 4 triggers (R143). -/

namespace Sys2Proof.Machine

/-- An operand word is received: an 8-byte write of word `i`, no trigger (R142). -/
def receiveOperand (i : Fin 4) (sm sM : BitVec 20) (ba : BitVec 24) (s : State) : StepOutcome :=
  .next (s.wrote (s.dev.storeWhole i.castSucc (opdWord sm sM ba)))

/-- The Meta word is received: the trigger (R143), identical for every `instruction_type`, reserved bit and padding
(R91 to R93). -/
def receiveMeta (w : Word64) (s : State) : StepOutcome :=
  .next (s.wrote (s.dev.trigger w))

/-- GEMM (R93, R143). -/
def execGemm (k n m : BitVec 8) (rsv tB tA : BitVec 1) (pad : Word32) (s : State) : StepOutcome :=
  receiveMeta (metaWord k n m rsv tB tA Config.gemmType pad) s

/-- RECORD (R93, R143). -/
def execRecord (k n m : BitVec 8) (rsv tB tA : BitVec 1) (itype : BitVec 5) (pad : Word32) (s : State) :
    StepOutcome :=
  receiveMeta (metaWord k n m rsv tB tA itype pad) s

/-- OPD.Din: word 0 (R80, R82, R142). -/
def execOpdDin (sm sM : BitVec 20) (ba : BitVec 24) (s : State) : StepOutcome := receiveOperand 0 sm sM ba s

/-- OPD.B: word 1 (R80, R82, R142; the word is the spec's own choice D4, log 22). -/
def execOpdB (sm sM : BitVec 20) (ba : BitVec 24) (s : State) : StepOutcome := receiveOperand 1 sm sM ba s

/-- OPD.A: word 2 (R80, R82, R142; D4, log 22). -/
def execOpdA (sm sM : BitVec 20) (ba : BitVec 24) (s : State) : StepOutcome := receiveOperand 2 sm sM ba s

/-- OPD.Dout: word 3 (R80, R82, R142; D4, log 22). -/
def execOpdDout (sm sM : BitVec 20) (ba : BitVec 24) (s : State) : StepOutcome := receiveOperand 3 sm sM ba s

end Sys2Proof.Machine
end

