-- ==== Sys2Proof/Machine/Dispatch.lean ====
section
/-! DEFINITION. The one match from an instruction to its meaning. -/

namespace Sys2Proof.Machine

def exec (i : Instr) (s : State) : Host.Outcome State Fault Refusal :=
  match i with
  | .wr8W i' v => Sys2Proof.Machine.execWr8W i' v s
  | .wr8Trig v => Sys2Proof.Machine.execWr8Trig v s
  | .wr4W i' v => Sys2Proof.Machine.execWr4W i' v s
  | .wr4Meta v => Sys2Proof.Machine.execWr4Meta v s
  | .rd8W i' => Sys2Proof.Machine.execRd8W i' s
  | .rd8Meta => Sys2Proof.Machine.execRd8Meta s
  | .rd4W i' => Sys2Proof.Machine.execRd4W i' s
  | .rd4Meta => Sys2Proof.Machine.execRd4Meta s
  | .rd8St => Sys2Proof.Machine.execRd8St s
  | .rd4St => Sys2Proof.Machine.execRd4St s
  | .wr8St v => Sys2Proof.Machine.execWr8St v s
  | .wr4St v => Sys2Proof.Machine.execWr4St v s
  | .badWr off n bytes => Sys2Proof.Machine.execBadWr off n bytes s
  | .badRd off n => Sys2Proof.Machine.execBadRd off n s
  | .gemm k n m rsv tB tA pad => Sys2Proof.Machine.execGemm k n m rsv tB tA pad s
  | .record k n m rsv tB tA itype pad => Sys2Proof.Machine.execRecord k n m rsv tB tA itype pad s
  | .opdDin sm sM ba => Sys2Proof.Machine.execOpdDin sm sM ba s
  | .opdB sm sM ba => Sys2Proof.Machine.execOpdB sm sM ba s
  | .opdA sm sM ba => Sys2Proof.Machine.execOpdA sm sM ba s
  | .opdDout sm sM ba => Sys2Proof.Machine.execOpdDout sm sM ba s
  | .blocks d => Sys2Proof.Machine.execBlocks d s
  | .strides nBlock kBlock => Sys2Proof.Machine.execStrides nBlock kBlock s
  | .validate c => Sys2Proof.Machine.execValidate c s
  | .packOpd sm sM ba => Sys2Proof.Machine.execPackOpd sm sM ba s
  | .packMeta k n m tB tA itype => Sys2Proof.Machine.execPackMeta k n m tB tA itype s
  | .scale r addr => Sys2Proof.Machine.execScale r addr s
  | .encode c => Sys2Proof.Machine.execEncode c s
  | .transmit => Sys2Proof.Machine.execTransmit s
  | .submit c => Sys2Proof.Machine.execSubmit c s
  | .decode => Sys2Proof.Machine.execDecode s
  | .setReceived => Sys2Proof.Machine.execSetReceived s
  | .reset => Sys2Proof.Machine.execReset s

end Sys2Proof.Machine
end

