-- ==== Sys2Proof/Machine/Events.lean ====
section
/-! DEFINITION. What one event of a script does (log 1): a line is decoded and its instruction executed; the other
events are the producer's accesses and barriers, the path's deliveries, and the serializer's positions. -/

namespace Sys2Proof.Machine

/-- A line is decoded under the state's parameters and executed; a line that is no access and no command is refused by
name (log 37). -/
def runLine (l : Line) (s : State) : StepOutcome :=
  match decode s.params l with
  | .instr i => exec i s
  | .rejected e => .refused (.malformedLine e)

/-- The producer issues a store that stays in flight (R59, log 15). -/
def postStore (addr : Nat) (bytes : List Byte) (s : State) : StepOutcome :=
  .next { s with path := s.path ++ [.store addr bytes], reply := .nothing }

/-- The encoder returns to its reset values (R33, R211). The device and what the producer has in flight, stores and barrier
marks, stay: R211 says only that the device keeps its partly written record, so what becomes of the stores in flight is a
DESIGN CHOICE (log 14). -/
def resetEncoder (s : State) : StepOutcome := .next { s with enc := Encoder.reset, reply := .nothing }

/-- One event. -/
def runEvent (e : Event) (s : State) : StepOutcome :=
  match e with
  | .line l => runLine l s
  | .memWrite addr bytes => producerStore addr bytes s
  | .memRead addr n => presentLoad addr n s
  | .post addr bytes => postStore addr bytes s
  | .deliver j => deliverStore j s
  | .compilerBarrier => compilerBarrier s
  | .fullBarrier => fullBarrier s
  | .txBegin => whenIdle s (.next (beginTransmit s))
  | .txAdvance => serializerStep s
  | .encoderReset => resetEncoder s

/-- The next event of the script is taken and run; with no event pending nothing happens (R221, log 2). -/
def runNext (s : State) : StepOutcome :=
  match s.script with
  | [] => .next s
  | e :: rest => runEvent e { s with script := rest }

end Sys2Proof.Machine
end

