-- ==== Sys2Proof/Machine/Step.lean ====
section
/-! DEFINITION. One step of the machine, and how a word of the opcode table is placed where the next step takes it. -/

namespace Sys2Proof.Machine

/-- One step: the next event of the script (log 1). -/
def step (s : State) : Host.Outcome State Fault Refusal := runNext s

/-- The state whose next event is the record word that opcode_table.json numbers `w` (log 4). -/
def State.withFetchWord (s : State) (nbits w : Nat) : State :=
  { s with script := .line (tableLine nbits w) :: s.script }

end Sys2Proof.Machine
end

