-- ==== Sys2Proof/Safety.lean ====
section
/-! DEFINITION. What claims about runs are stated in: the configuration both sides must share (70_reset_and_hazards R212),
what arriving stores do and which an event presents (20_memory R59 to R61), and the invariant of every step. -/

namespace Sys2Proof.Machine

/-- The set-up of R212 (1) and (2), with R7's constraints on the parameters. -/
def State.Ready (s : State) : Prop := s.params.wf = true ∧ s.params.shared = true

/-- What one item of the path does to the device and to the reports when it arrives: the write of R140 and its answer (R188),
and outside this block nothing but the report that it went there (R51). The fold of it over a path is what a barrier that waits
for the path must have done (R61). -/
def arrival (p : Params) (acc : Device × List Reply) : PathItem → Device × List Reply
  | .barrier => acc
  | .store addr bytes =>
    match route p addr with
    | none => (acc.1, acc.2 ++ [.elsewhere])
    | some off =>
      match devWrite p off bytes.length bytes acc.1 with
      | .ok d => (d, acc.2 ++ [.ok])
      | .error e => (acc.1, acc.2 ++ [.failed e off bytes.length])

/-- The stores an event that is no line presents, in the order in which they arrive: those in flight that it lets arrive (R59 to
R61), then its own. A load, a barrier that waits for nothing, the start of a transmission and a reset of the encoder present
none; what a line does is `exec` of its instruction. -/
def presented (s : State) : Event → List PathItem
  | .line _ | .memRead _ _ | .post _ _ | .compilerBarrier | .txBegin | .encoderReset => []
  | .memWrite addr bytes => heldByBarrier s.path ++ [.store addr bytes]
  | .deliver j => (readyStores s.path)[j]?.toList
  | .fullBarrier => s.path
  | .txAdvance =>
    match s.enc.step with
    | .eIdle | .readStatus => []
    | .fence => s.path
    | .tx0 => heldByBarrier s.path ++ [recordStore s 0]
    | .tx1 => heldByBarrier s.path ++ [recordStore s 1]
    | .tx2 => heldByBarrier s.path ++ [recordStore s 2]
    | .tx3 => heldByBarrier s.path ++ [recordStore s 3]
    | .tx4 => heldByBarrier s.path ++ [recordStore s 4]
where
  /-- The serializer's store of `REC[i]` (R116). -/
  recordStore (s : State) (i : Fin 5) : PathItem := .store (s.params.encBase + 8 * i.val) (wordBytes s.enc.recWords[i])

/-- How many stores a path holds. -/
def storesIn (path : List PathItem) : Nat := path.countP PathItem.isStore

/-- The contract on a command's inputs (R112, R219): dimensions 1 to 16320, flags 0 or 1, `instruction_type` at most 31,
every address a multiple of its role alignment and within R89's range. -/
structure Contract (c : Cmd) : Prop where
  dims : (1 ≤ c.m ∧ c.m ≤ 16320) ∧ (1 ≤ c.n ∧ c.n ≤ 16320) ∧ (1 ≤ c.k ∧ c.k ≤ 16320)
  flags : c.tA ≤ 1 ∧ c.tB ≤ 1 ∧ c.itype ≤ 31
  multiples : c.aDin % 16384 = 0 ∧ c.aB % 4096 = 0 ∧ c.aA % 4096 = 0 ∧ c.aDout % 16384 = 0
  ranges : c.aDin < 2 ^ 38 ∧ c.aB < 2 ^ 36 ∧ c.aA < 2 ^ 36 ∧ c.aDout < 2 ^ 38

/-- The invariant of the machine: what no step of any run breaks. -/
structure State.Inv (s : State) : Prop where
  /-- `valid` is false between steps (R21). -/
  validClear : s.dev.valid = false
  /-- `Triggered` exists only inside the trigger step (R23). -/
  notTriggered : s.dev.fsm ≠ .triggered
  /-- `icount` is the number of triggers recorded in `exec_log`, modulo 2^64 (R22, R25). -/
  countsTriggers : s.dev.icount = BitVec.ofNat 64 s.dev.execLog.length
  /-- `REC` holds only a record that passed every check (R31, R114). -/
  recordChecked : s.enc.recWritten = true → ∃ c, validateCmd c = none ∧ s.enc.recWords = buildRecord c
  /-- Past its first read of `REC` the serializer is under way only with a written one (R33, R116). -/
  sendingWritten : s.enc.step ≠ .eIdle → s.enc.step ≠ .tx0 → s.enc.recWritten = true

end Sys2Proof.Machine
end

