-- ==== Sys2Proof/Certificates/Slice0/Obligations.lean ====
section
/-! DEFINITION. The statements for the provers. A docstring names the rule of spec/ a statement formalises; where a clause
rests on a decision the spec marks as its own or on a choice of this model, it says so. -/

open Sys2Proof Sys2Proof.Machine

/-! ### Lines, words and steps -/

/-- Decoding the line of a well-formed instruction gives the instruction back, with every operand (30_encoding sections 1, 2,
5 and 6; the form of a command's line is the model's choice, log 3, and that a record word is a line of its own is log 5). -/
def Obligations.DecodeEncodeRoundTrip : Prop :=
  ∀ (p : Params) (i : Instr), p.wf = true → i.wf p = true → decode p (encode p i) = .instr i

/-- Every 8 bytes are a record word, and encoding what they decode to gives them back: no bit of a word is dropped, the
reserved bit and the padding included (30_encoding R90, R91, R94; word-level rows are log 5). -/
def Obligations.RecordWordsRoundTrip : Prop :=
  ∀ (p : Params) (idx : Fin 5) (bytes : List Byte), bytes.length = 8 →
    ∃ i, decode p (.word idx bytes) = .instr i ∧ i.wf p = true ∧ encode p i = .word idx bytes

/-- Every access with a payload of its width decodes, and encoding the instruction gives the access back: R95's rows cover
every access, and no two accesses share an instruction. -/
def Obligations.AccessLinesRoundTrip : Prop :=
  ∀ (p : Params) (a : Access), (Line.access a).wf = true →
    ∃ i, decode p (.access a) = .instr i ∧ i.wf p = true ∧ encode p i = .access a

/-- Lines of each family decode to the instruction they stand for: accesses and record words as 30_encoding and 95_test_vectors write them out
(S1, V4, V5, V7, P1 to P3). That a record word is a line of its own is log 5, the name GEMM the spec's own choice D10 (log 31), and the form of
SUBMIT's line, which the spec does not give, the model's choice, log 3, with its omitted inputs by D10. -/
def Obligations.SpecLinesDecode : Prop :=
  decode Params.default (.access ⟨.write, 0x08, 8, [0x02, 0x00, 0x10, 0x00, 0x00, 0x02, 0x00, 0x00]⟩) =
      .instr (.wr8W 1 0x0000020000100002#64) ∧
    decode Params.default (.access ⟨.write, 0x20, 8, [0x02, 0x02, 0x02, 0x08, 0x00, 0x00, 0x00, 0x00]⟩) =
      .instr (.wr8Trig 0x0000000008020202#64) ∧
    decode Params.default (.access ⟨.read, 0x1000, 8, []⟩) = .instr .rd8St ∧
    decode Params.default (.access ⟨.write, 0x24, 4, [0xFF, 0xFF, 0xFF, 0xFF]⟩) =
      .instr (.badWr 0x24 4 [0xFF, 0xFF, 0xFF, 0xFF]) ∧
    decode Params.default (.word 4 [0x01, 0x02, 0x03, 0x0A, 0x00, 0x00, 0x00, 0x00]) =
      .instr (.gemm 1 2 3 0 1 0 0) ∧
    decode Params.default (.word 0 [0x45, 0x23, 0xA1, 0x89, 0x67, 0xF0, 0xDE, 0xBC]) =
      .instr (.opdDin 0x12345 0x6789A 0xBCDEF0) ∧
    decode Params.default (.command .submit [128, 128, 128, 0x4000, 0x2000, 0x1000, 0x8000]) =
      .instr (.submit { m := 128, n := 128, k := 128, aDin := 0x4000, aB := 0x2000, aA := 0x1000, aDout := 0x8000 })

/-- One step takes the head of the script: a line that decodes is executed on the state without it, a line that does not is
refused by name, and with no event pending nothing happens (the script is the model's own, logs 1, 2 and 37). -/
def Obligations.StepRunsDecodedLine : Prop :=
  ∀ (s : State) (rest : List Event),
    (∀ l i, s.script = .line l :: rest → decode s.params l = .instr i → step s = exec i { s with script := rest }) ∧
    (∀ l e, s.script = .line l :: rest → decode s.params l = .rejected e → step s = .refused (.malformedLine e)) ∧
    (s.script = [] → step s = .next s)

/-- A word of the opcode table that decodes is what the very next step runs, on the state as it was (log 4). -/
def Obligations.TableWordRunsNext : Prop :=
  ∀ (s : State) (nbits w : Nat) (i : Instr), decodeTableWord nbits w = some i →
    step (s.withFetchWord nbits w) = exec i s

/-! ### The device's dispatch and its errors -/

/-- Decoding an access by the rows of R95 and executing the instruction is the dispatch of R140 and R160 (the names of errors
are the spec's own choice D12). -/
def Obligations.AccessLinesFollowDispatch : Prop :=
  ∀ (s : State) (off n : Nat) (bytes : List Byte),
    (bytes.length = n →
      runLine (.access ⟨.write, off, n, bytes⟩) s =
        match devWrite s.params off n bytes s.dev with
        | .ok d => .next (s.wrote d)
        | .error e => .next (s.respond (.failed e off n))) ∧
    runLine (.access ⟨.read, off, n, []⟩) s =
      match devRead s.params off n s.dev with
      | .ok data => .next (s.respond (.data data))
      | .error e => .next (s.respond (.failed e off n))

/-- An access succeeds exactly with width 4 or 8 at the start of one of the five words or at STATUS_OFFSET; whatever happens,
the machine goes on and the encoder is untouched (20_memory sections 2 and 4; the extent of the status window is the spec's
own choice D22). -/
def Obligations.AccessSucceedsExactly : Prop :=
  ∀ (s : State) (a : Access), s.params.wf = true → (Line.access a).wf = true →
    ∃ t, runLine (.access a) s = .next t ∧ t.enc = s.enc ∧ t.params = s.params ∧ t.path = s.path ∧
      t.script = s.script ∧
      ((t.reply = .ok ∨ ∃ data, data.length = a.n ∧ t.reply = .data data) ↔
        (a.n = 4 ∨ a.n = 8) ∧ (a.off ∈ [0x00, 0x08, 0x10, 0x18, 0x20] ∨ a.off = s.params.devStatus))

/-- R145: any other length, offset or alignment combination of a write fails without side effects. -/
def Obligations.FailedWriteChangesNothing : Prop :=
  ∀ (s : State) (off n : Nat) (bytes : List Byte), s.params.wf = true → bytes.length = n →
    ¬((n = 4 ∨ n = 8) ∧ (off ∈ [0x00, 0x08, 0x10, 0x18, 0x20] ∨ off = s.params.devStatus)) →
    ∃ e, runLine (.access ⟨.write, off, n, bytes⟩) s = .next { s with reply := .failed e off n }

/-- A read of any other offset or width fails, changes nothing and delivers no data (42_decoder_read; that no data is delivered is
the spec's own choice D15). -/
def Obligations.FailedReadDeliversNothing : Prop :=
  ∀ (s : State) (off n : Nat), s.params.wf = true →
    ¬((n = 4 ∨ n = 8) ∧ (off ∈ [0x00, 0x08, 0x10, 0x18, 0x20] ∨ off = s.params.devStatus)) →
    ∃ e, runLine (.access ⟨.read, off, n, []⟩) s = .next { s with reply := .failed e off n }

/-- R181: an access of either direction and any width whose offset lies in neither window raises InvalidOffset. -/
def Obligations.OutsideWindowsIsInvalidOffset : Prop :=
  ∀ (s : State) (off n : Nat) (bytes : List Byte), 0x28 ≤ off → off ≠ s.params.devStatus →
    (bytes.length = n →
      runLine (.access ⟨.write, off, n, bytes⟩) s = .next { s with reply := .failed .invalidOffset off n }) ∧
    runLine (.access ⟨.read, off, n, []⟩) s = .next { s with reply := .failed .invalidOffset off n }

/-- An access in a window whose width is not 4 or 8, or in the instruction window at an offset that is no multiple of 8, raises
InvalidWidth (60_exceptions section 1; the class of a misaligned access is the spec's own choice D12). -/
def Obligations.WrongWidthOrAlignmentIsInvalidWidth : Prop :=
  ∀ (s : State) (off n : Nat) (bytes : List Byte),
    (off < 0x28 ∧ (off % 8 ≠ 0 ∨ ¬(n = 4 ∨ n = 8))) ∨
      (0x28 ≤ off ∧ off = s.params.devStatus ∧ ¬(n = 4 ∨ n = 8)) →
    (bytes.length = n →
      runLine (.access ⟨.write, off, n, bytes⟩) s = .next { s with reply := .failed .invalidWidth off n }) ∧
    runLine (.access ⟨.read, off, n, []⟩) s = .next { s with reply := .failed .invalidWidth off n }

/-- BAD_WR and BAD_RD as instructions: they fail and change nothing of the block, whatever their operands; a well-formed one
fails with the error of the dispatch (R145, R163; the names are the spec's own choice D12). -/
def Obligations.BadAccessesComplete : Prop :=
  ∀ (s : State) (off n : Nat) (bytes : List Byte),
    ∃ e, exec (.badWr off n bytes) s = .next { s with reply := .failed e off n } ∧
      exec (.badRd off n) s = .next { s with reply := .failed e off n } ∧
      (Instr.wf s.params (.badRd off n) = true → accessError s.params off n = some e)

/-! ### Writes of the instruction window -/

/-- WR8_W replaces the whole word and nothing else of the block but `fsm`, which becomes `Filling` (41_decoder_write section 2;
the event is the spec's own choice D8). -/
def Obligations.WordWriteReplacesCell : Prop :=
  ∀ (s : State) (i : Fin 4) (v : Word64),
    ∃ t, exec (.wr8W i v) s = .next t ∧
      (∀ j : Fin 5, t.dev.cell j = if j.val = i.val then v else s.dev.cell j) ∧
      t = { s with dev := { s.dev with w := t.dev.w, fsm := .filling }, reply := .ok }

/-- The four operand words are received as 8-byte writes of words 0 to 3, whose bits are the three fields in the places of R82
(which operand is word 1, 2, 3 is the spec's own choice D4; that a record word is received so is log 5). -/
def Obligations.OperandWordsAreWordWrites : Prop :=
  ∀ (s : State) (sm sM : BitVec 20) (ba : BitVec 24),
    ∃ v : Word64, v.toNat = sm.toNat + sM.toNat * 2 ^ 20 + ba.toNat * 2 ^ 40 ∧
      ∃ t0 t1 t2 t3,
        exec (.opdDin sm sM ba) s = .next t0 ∧ exec (.wr8W 0 v) s = .next t0 ∧
        exec (.opdB sm sM ba) s = .next t1 ∧ exec (.wr8W 1 v) s = .next t1 ∧
        exec (.opdA sm sM ba) s = .next t2 ∧ exec (.wr8W 2 v) s = .next t2 ∧
        exec (.opdDout sm sM ba) s = .next t3 ∧ exec (.wr8W 3 v) s = .next t3

/-- A narrow write of any word, word 4 included, replaces bits [31:0], keeps bits [63:32] and every other cell, and triggers
nothing: `STATUS`, `icount`, the trace and `valid` are unchanged (41_decoder_write section 2; `fsm` is the spec's own choice D8). -/
def Obligations.NarrowWriteReplacesLowHalf : Prop :=
  ∀ (s : State) (v : Word32),
    (∀ i : Fin 4, ∃ t, exec (.wr4W i v) s = .next t ∧
      (∀ j : Fin 5, (t.dev.cell j).toNat =
        if j.val = i.val then (s.dev.cell j).toNat / 2 ^ 32 * 2 ^ 32 + v.toNat else (s.dev.cell j).toNat) ∧
      t = { s with dev := { s.dev with w := t.dev.w, fsm := .filling }, reply := .ok }) ∧
    ∃ t, exec (.wr4Meta v) s = .next t ∧
      (∀ j : Fin 5, (t.dev.cell j).toNat =
        if j.val = 4 then (s.dev.cell j).toNat / 2 ^ 32 * 2 ^ 32 + v.toNat else (s.dev.cell j).toNat) ∧
      t = { s with dev := { s.dev with w := t.dev.w, fsm := .filling }, reply := .ok }

/-- The trigger in one step: word 4 is replaced and the other cells kept, the record decoded from the cells as they then stand is
handed over, `STATUS` is 0x1, `icount` one more, `valid` false, `fsm` `Idle`, whatever the state was (41_decoder_write section 2;
kept cells, the trace, the counter's width and the assignment of `STATUS` are the spec's own choices D7, D14, D6, D21). -/
def Obligations.TriggerCompletes : Prop :=
  ∀ (s : State) (v : Word64),
    ∃ t, exec (.wr8Trig v) s = .next t ∧
      (∀ j : Fin 5, t.dev.cell j = if j.val = 4 then v else s.dev.cell j) ∧
      t.dev.icount.toNat = (s.dev.icount.toNat + 1) % 2 ^ 64 ∧
      t = { s with
        dev :=
          { w := t.dev.w, valid := false, fsm := .idle, status := 0x0000000000000001#64, icount := t.dev.icount,
            execLog := s.dev.execLog ++ [decodeRecord t.dev.w] }
        reply := .ok }

/-- GEMM and RECORD are the trigger with a Meta word whose bits are the fields in the places of R83; GEMM's `instruction_type` is 1
(the mnemonic is the spec's own choice D10; that a record word is received so is log 5). -/
def Obligations.MetaWordsTrigger : Prop :=
  ∀ (s : State) (k n m : BitVec 8) (rsv tB tA : BitVec 1) (pad : Word32) (itype : BitVec 5),
    ∃ v1 v2 : Word64,
      v1.toNat = k.toNat + n.toNat * 2 ^ 8 + m.toNat * 2 ^ 16 + rsv.toNat * 2 ^ 24 + tB.toNat * 2 ^ 25 +
        tA.toNat * 2 ^ 26 + 1 * 2 ^ 27 + pad.toNat * 2 ^ 32 ∧
      v2.toNat = k.toNat + n.toNat * 2 ^ 8 + m.toNat * 2 ^ 16 + rsv.toNat * 2 ^ 24 + tB.toNat * 2 ^ 25 +
        tA.toNat * 2 ^ 26 + itype.toNat * 2 ^ 27 + pad.toNat * 2 ^ 32 ∧
      ∃ t1 t2, exec (.gemm k n m rsv tB tA pad) s = .next t1 ∧ exec (.wr8Trig v1) s = .next t1 ∧
        exec (.record k n m rsv tB tA itype pad) s = .next t2 ∧ exec (.wr8Trig v2) s = .next t2

/-- Every `instruction_type`, reserved bit and padding triggers identically: two records that differ in those alone leave the same
device but for word 4, and hand over the same record but for `instruction_type`, which is the number received (30_encoding section
4; ignoring the reserved bit on receipt and the trace in which the hand-over is seen are the spec's own choices D11 and D14). -/
def Obligations.EveryTypeTriggersAlike : Prop :=
  ∀ (s : State) (k n m : BitVec 8) (rsv rsv' tB tA : BitVec 1) (pad pad' : Word32) (it it' : BitVec 5),
    ∃ (t t' : State) (r : DecodedRecord), exec (.record k n m rsv tB tA it pad) s = .next t ∧
      exec (.record k n m rsv' tB tA it' pad') s = .next t' ∧
      t' = { t with dev := { t.dev with w := t'.dev.w, execLog := t'.dev.execLog } } ∧
      (∀ j : Fin 5, j.val ≠ 4 → t'.dev.cell j = t.dev.cell j) ∧
      t.dev.execLog = s.dev.execLog ++ [{ r with instructionType := it }] ∧
      t'.dev.execLog = s.dev.execLog ++ [{ r with instructionType := it' }]

/-- Padding (30_encoding section 4): it is zero in every record that ENCODE writes and zero in word 4 of the device after every TRANSMIT,
SUBMIT and last store of a transmission run by positions, whatever is in flight; the trigger stores whatever it receives there, an 8-byte
read returns it, the decoded record does not depend on it, and no 4-byte write, at whatever offset, can change it. That word 4 is still there
after its trigger is the spec's own choice D7 (log 21), the trace and the counter are D14 and D6; TRANSMIT and SUBMIT as one step and
`txAdvance` are log 10, the path logs 12, 15 and 42. -/
def Obligations.PaddingIsCarriedNotDecoded : Prop :=
  (∀ c, validateCmd c = none → (buildRecord c)[4].toNat < 2 ^ 32) ∧
  (∀ (s : State) (c : Cmd), s.enc.step = .eIdle → validateCmd c = none →
    (∃ t, exec (.encode c) s = .next t ∧ t.enc.recWords[4].toNat < 2 ^ 32) ∧
      (s.Ready → ∃ t, exec (.submit c) s = .next t ∧ (t.dev.cell 4).toNat < 2 ^ 32)) ∧
  (∀ s : State, s.Inv → s.Ready →
    (s.enc.step = .eIdle → s.enc.recWritten = true →
      ∃ t, exec .transmit s = .next t ∧ (t.dev.cell 4).toNat < 2 ^ 32) ∧
    (s.enc.step = .tx4 → ∃ t, runEvent .txAdvance s = .next t ∧ (t.dev.cell 4).toNat < 2 ^ 32)) ∧
  (∀ (s : State) (v : Word64), ∃ t u bytes, exec (.wr8Trig v) s = .next t ∧ exec .rd8Meta t = .next u ∧
    u.reply = .data bytes ∧ fromLE bytes / 2 ^ 32 = v.toNat / 2 ^ 32) ∧
  (∀ (s : State) (v v' : Word64), v.toNat % 2 ^ 32 = v'.toNat % 2 ^ 32 →
    ∃ t t', exec (.wr8Trig v) s = .next t ∧ exec (.wr8Trig v') s = .next t' ∧ t'.dev.execLog = t.dev.execLog ∧
      t'.dev.status = t.dev.status ∧ t'.dev.icount = t.dev.icount) ∧
  (∀ (s : State) (v : Word32), ∃ t, exec (.wr4Meta v) s = .next t ∧
    (t.dev.cell 4).toNat / 2 ^ 32 = (s.dev.cell 4).toNat / 2 ^ 32) ∧
  ∀ (s : State) (off : Nat) (bytes : List Byte), bytes.length = 4 →
    ∃ t, runLine (.access ⟨.write, off, 4, bytes⟩) s = .next t ∧
      (t.dev.cell 4).toNat / 2 ^ 32 = (s.dev.cell 4).toNat / 2 ^ 32

/-- R90 and R88: unpacking reads the bit fields of R90, for every 64-bit value, and the real address is the field times the role
alignment, exactly. -/
def Obligations.UnpackReadsTheFields : Prop :=
  (∀ (r : Role) (w : Word64),
    (unpackOpd r w).strideMinor.toNat = w.toNat % 2 ^ 20 ∧
    (unpackOpd r w).strideMajor.toNat = w.toNat / 2 ^ 20 % 2 ^ 20 ∧
    (unpackOpd r w).baseAddr.toNat = w.toNat / 2 ^ 40 ∧
    (unpackOpd r w).realAddr =
      w.toNat / 2 ^ 40 * (match r with | .din => 16384 | .dout => 16384 | .b => 4096 | .a => 4096)) ∧
  ∀ w : Vector Word64 5,
    (decodeRecord w).k.toNat = w[4].toNat % 2 ^ 8 ∧
    (decodeRecord w).n.toNat = w[4].toNat / 2 ^ 8 % 2 ^ 8 ∧
    (decodeRecord w).m.toNat = w[4].toNat / 2 ^ 16 % 2 ^ 8 ∧
    (decodeRecord w).ifBTranspose.toNat = w[4].toNat / 2 ^ 25 % 2 ∧
    (decodeRecord w).ifATranspose.toNat = w[4].toNat / 2 ^ 26 % 2 ∧
    (decodeRecord w).instructionType.toNat = w[4].toNat / 2 ^ 27 % 2 ^ 5

/-- DECODE returns the record of the cells with words 0 to 3 as Din, B, A, Dout, and changes nothing (41_decoder_write section 3;
the word order is the spec's own choice D4; DECODE as a step of its own is log 35). -/
def Obligations.DecodeReturnsTheRecord : Prop :=
  ∀ s : State, ∃ r, exec .decode s = .next { s with reply := .decoded r } ∧
    r.din = unpackOpd .din (s.dev.cell 0) ∧ r.b = unpackOpd .b (s.dev.cell 1) ∧
    r.a = unpackOpd .a (s.dev.cell 2) ∧ r.dout = unpackOpd .dout (s.dev.cell 3) ∧ r = decodeRecord s.dev.w

/-! ### Reads -/

/-- Reads of the five words: the cell, or its bits [31:0], least significant byte first; nothing changes (42_decoder_read; that reads
change no state and which half a 4-byte read returns are the spec's own choices D17 and D20). -/
def Obligations.WordReadsReturnTheCell : Prop :=
  ∀ s : State,
    (∀ i : Fin 4,
      (∃ b, exec (.rd8W i) s = .next { s with reply := .data b } ∧ b.length = 8 ∧
        fromLE b = (s.dev.cell i.castSucc).toNat) ∧
      ∃ b, exec (.rd4W i) s = .next { s with reply := .data b } ∧ b.length = 4 ∧
        fromLE b = (s.dev.cell i.castSucc).toNat % 2 ^ 32) ∧
    (∃ b, exec .rd8Meta s = .next { s with reply := .data b } ∧ b.length = 8 ∧ fromLE b = (s.dev.cell 4).toNat) ∧
    ∃ b, exec .rd4Meta s = .next { s with reply := .data b } ∧ b.length = 4 ∧
      fromLE b = (s.dev.cell 4).toNat % 2 ^ 32

/-- Reads of the Status Register: its value, or its low half; nothing changes, so a second read returns the same (43_status; that
reads change no state is the spec's own choice D17). -/
def Obligations.StatusReadsReturnStatus : Prop :=
  ∀ s : State,
    (∃ b, exec .rd8St s = .next { s with reply := .data b } ∧ b.length = 8 ∧ fromLE b = s.dev.status.toNat) ∧
    ∃ b, exec .rd4St s = .next { s with reply := .data b } ∧ b.length = 4 ∧
      fromLE b = s.dev.status.toNat % 2 ^ 32

/-! ### The Status Register -/

/-- An 8-byte status write stores every 64-bit value as written, leaves the rest of the device alone, and an 8-byte read after it returns
exactly that value (43_status); that this read in turn leaves the device as it was is the spec's own choice D17 (log 29). -/
def Obligations.StatusWriteRoundTrip : Prop :=
  ∀ (s : State) (v : Word64), ∃ t u b,
    exec (.wr8St v) s = .next t ∧ t = { s with dev := { s.dev with status := v }, reply := .ok } ∧
    exec .rd8St t = .next u ∧ u.dev = t.dev ∧ u.reply = .data b ∧ fromLE b = v.toNat

/-- A 4-byte status write replaces the low half, keeps the high half and changes nothing else (43_status; the kept half is the
spec's own choice D9). -/
def Obligations.StatusNarrowWriteKeepsHigh : Prop :=
  ∀ (s : State) (v : Word32), ∃ x : Word64,
    exec (.wr4St v) s = .next { s with dev := { s.dev with status := x }, reply := .ok } ∧
    x.toNat = s.dev.status.toNat / 2 ^ 32 * 2 ^ 32 + v.toNat

/-- SET_RECEIVED replaces all 64 bits by 0x1 (43_status; assignment and not OR is the spec's own choice D21; SET_RECEIVED as a step
of its own is log 35). -/
def Obligations.SetReceivedCompletes : Prop :=
  ∀ s : State, exec .setReceived s =
    .next { s with dev := { s.dev with status := 0x0000000000000001#64 }, reply := .nothing }

/-- A store is seen at its own offset alone: after each storing access, every read at another offset, of any width, returns or fails as
before; after a trigger, every read but those of word 4 and of the status window (20_memory sections 2 and 5; that a trigger keeps the
cells, so that words 0 to 3 read as before, is the spec's own choice D7, log 21). -/
def Obligations.StoresLeaveOtherOffsets : Prop :=
  ∀ (s t : State) (off n : Nat),
    (∀ (i : Fin 4) (v : Word64) (h : Word32),
      exec (.wr8W i v) s = .next t ∨ exec (.wr4W i h) s = .next t → off ≠ 8 * i.val →
        devRead t.params off n t.dev = devRead s.params off n s.dev) ∧
    (∀ h : Word32, exec (.wr4Meta h) s = .next t → off ≠ 0x20 →
      devRead t.params off n t.dev = devRead s.params off n s.dev) ∧
    (∀ (v : Word64) (h : Word32), exec (.wr8St v) s = .next t ∨ exec (.wr4St h) s = .next t →
      off ≠ s.params.devStatus → devRead t.params off n t.dev = devRead s.params off n s.dev) ∧
    ∀ v : Word64, exec (.wr8Trig v) s = .next t → off ≠ 0x20 → off ≠ s.params.devStatus →
      devRead t.params off n t.dev = devRead s.params off n s.dev

/-! ### Reset -/

/-- RESET gives the device its reset values and leaves the encoder and what is in flight alone (70_reset_and_hazards section 1; the reset
values of `STATUS`, `icount` and `exec_log` are the spec's own choices D5, D6, D14). A reset of the encoder puts it in `EIdle` with no
error and with `REC` and `ack` unwritten (10_state section 3; the spec's own choice D19) and leaves the device alone. That either reset
leaves the other side and what is in flight alone is the model's choice, log 14. -/
def Obligations.ResetCompletes : Prop :=
  ∀ s : State,
    (∃ t, exec .reset s = .next t ∧ (∀ j : Fin 5, t.dev.cell j = 0#64) ∧
      t = { s with
        dev := { w := t.dev.w, valid := false, fsm := .idle, status := 0#64, icount := 0#64, execLog := [] }
        reply := .nothing } ∧ t.dev = State.reset.dev) ∧
    ∃ t, runEvent .encoderReset s = .next t ∧ t.enc.step = .eIdle ∧ t.enc.err = none ∧ t.enc.recWritten = false ∧
      t.enc.ackWritten = false ∧ t = { s with enc := t.enc, reply := .nothing }

/-- R27: at device reset `valid` is false and `fsm` is `Idle`, from any state and in the machine's reset state. -/
def Obligations.ResetUnsetsTheFlag : Prop :=
  (∀ s : State, ∃ t, exec .reset s = .next t ∧ t.dev.valid = false ∧ t.dev.fsm = .idle) ∧
    State.reset.dev.valid = false ∧ State.reset.dev.fsm = .idle

/-! ### The encoder's functions and checks -/

/-- R110: BLOCKS returns the dimension divided by 64, rounded up, with no bound and no error. -/
def Obligations.BlocksRoundsUp : Prop :=
  ∀ (s : State) (d : Nat), ∃ b,
    exec (.blocks d) s = .next { s with reply := .number b } ∧ b = (d + 63) / 64 ∧ d ≤ 64 * b ∧ 64 * b < d + 64

/-- R111: STRIDES returns `N_block` for Din, B, Dout and `K_block` for A, with `stride_major` 1 in all four. -/
def Obligations.StridesOfTheFourDescriptors : Prop :=
  ∀ (s : State) (nb kb : Nat),
    exec (.strides nb kb) s = .next { s with reply := .strides [(nb, 1), (nb, 1), (kb, 1), (nb, 1)] }

/-- R87: SCALE divides by the role alignment, truncating; both constants are powers of two, so it is a right shift. -/
def Obligations.ScaleDividesByAlignment : Prop :=
  ∀ (s : State) (addr : Nat),
    (∀ r : Role, r = .din ∨ r = .dout →
      exec (.scale r addr) s = .next { s with reply := .number (addr / 16384) } ∧ addr / 16384 = addr >>> 14) ∧
    ∀ r : Role, r = .a ∨ r = .b →
      exec (.scale r addr) s = .next { s with reply := .number (addr / 4096) } ∧ addr / 4096 = addr >>> 12

/-- PACK_OPD packs fields that fit and raises OverflowField with the field and its value for one that does not fit (30_encoding section
3). The model's reading: a pack that passes leaves `err` as it was and a raise sets `err` to the error's name (log 13), and PACK_OPD runs in
every position of the serializer (log 9). -/
def Obligations.PackOpdPacksOrOverflows : Prop :=
  ∀ (s : State) (sm sM ba : Nat),
    (sm < 2 ^ 20 ∧ sM < 2 ^ 20 ∧ ba < 2 ^ 24 →
      ∃ w : Word64, exec (.packOpd sm sM ba) s = .next { s with reply := .word w } ∧
        w.toNat = sm + sM * 2 ^ 20 + ba * 2 ^ 40) ∧
    (¬(sm < 2 ^ 20 ∧ sM < 2 ^ 20 ∧ ba < 2 ^ 24) →
      ∃ f v,
        exec (.packOpd sm sM ba) s =
          .next { s with enc := { s.enc with err := some .overflowField }, reply := .refused (.overflowField f v) } ∧
        ((f = .strideMinor ∧ v = sm ∧ 2 ^ 20 ≤ sm) ∨ (f = .strideMajor ∧ v = sM ∧ 2 ^ 20 ≤ sM) ∨
          (f = .baseAddr ∧ v = ba ∧ 2 ^ 24 ≤ ba)))

/-- PACK_META packs fields that fit, with bit 24 and bits [63:32] zero, and raises OverflowField with the field and its value for one that
does not fit (30_encoding section 3; the transmitted reserved bit is the spec's own choice D11). The model's reading: a pack that passes
leaves `err` as it was and a raise sets `err` to the error's name (log 13), and PACK_META runs in every position of the serializer (log 9). -/
def Obligations.PackMetaPacksOrOverflows : Prop :=
  ∀ (s : State) (k n m tB tA it : Nat),
    (k < 2 ^ 8 ∧ n < 2 ^ 8 ∧ m < 2 ^ 8 ∧ tB < 2 ∧ tA < 2 ∧ it < 2 ^ 5 →
      ∃ w : Word64, exec (.packMeta k n m tB tA it) s = .next { s with reply := .word w } ∧
        w.toNat = k + n * 2 ^ 8 + m * 2 ^ 16 + tB * 2 ^ 25 + tA * 2 ^ 26 + it * 2 ^ 27) ∧
    (¬(k < 2 ^ 8 ∧ n < 2 ^ 8 ∧ m < 2 ^ 8 ∧ tB < 2 ∧ tA < 2 ∧ it < 2 ^ 5) →
      ∃ f v,
        exec (.packMeta k n m tB tA it) s =
          .next { s with enc := { s.enc with err := some .overflowField }, reply := .refused (.overflowField f v) } ∧
        ((f = .dim .k ∧ v = k ∧ 2 ^ 8 ≤ k) ∨ (f = .dim .n ∧ v = n ∧ 2 ^ 8 ≤ n) ∨
          (f = .dim .m ∧ v = m ∧ 2 ^ 8 ≤ m) ∨ (f = .ifBTranspose ∧ v = tB ∧ 2 ≤ tB) ∨
          (f = .ifATranspose ∧ v = tA ∧ 2 ≤ tA) ∨ (f = .instructionType ∧ v = it ∧ 2 ^ 5 ≤ it)))

/-- VALIDATE passes exactly the commands of the contract, and reports its outcome in `err`, changing nothing else (40_encoder sections 1
and 3; a zero dimension refused and the inputs tA, tB, itype are the spec's own choices D13 and D10; `err` none after a pass is log 13). -/
def Obligations.ValidatePassesTheContract : Prop :=
  ∀ (s : State) (c : Cmd), s.enc.step = .eIdle →
    (Contract c → exec (.validate c) s = .next { s with enc := { s.enc with err := none }, reply := .done }) ∧
    (¬Contract c → ∃ e, validateCmd c = some e ∧
      exec (.validate c) s =
        .next { s with enc := { s.enc with err := some (errName e) }, reply := .refused e })

/-- The error VALIDATE reports names a check that fails, and no earlier one of R113's order fails: dimensions zero, dimensions too large,
tB, tA, itype, then per role in word order (the order is the spec's own choice D13). -/
def Obligations.ValidateReportsTheFirstFailure : Prop :=
  ∀ (c : Cmd) (e : EncError), validateCmd c = some e →
    (∃ d, e = .invalidDimension d ∧ dimOf c d = 0 ∧ (d = .n → c.m ≠ 0) ∧ (d = .k → c.m ≠ 0 ∧ c.n ≠ 0)) ∨
    (c.m ≠ 0 ∧ c.n ≠ 0 ∧ c.k ≠ 0 ∧
      ((∃ d, e = .overflowField (.dim d) ((dimOf c d + 63) / 64) ∧ 16320 < dimOf c d ∧
          (d = .n → c.m ≤ 16320) ∧ (d = .k → c.m ≤ 16320 ∧ c.n ≤ 16320)) ∨
        (c.m ≤ 16320 ∧ c.n ≤ 16320 ∧ c.k ≤ 16320 ∧
          ((e = .overflowField .ifBTranspose c.tB ∧ 1 < c.tB) ∨
            (c.tB ≤ 1 ∧ e = .overflowField .ifATranspose c.tA ∧ 1 < c.tA) ∨
            (c.tB ≤ 1 ∧ c.tA ≤ 1 ∧ e = .overflowField .instructionType c.itype ∧ 31 < c.itype) ∨
            (c.tB ≤ 1 ∧ c.tA ≤ 1 ∧ c.itype ≤ 31 ∧
              ∃ r, (∀ r', roleIndex r' < roleIndex r →
                  addrOf c r' % align r' = 0 ∧ addrOf c r' / align r' < 2 ^ 24) ∧
                ((e = .nonMultipleAddress r (addrOf c r) ∧ addrOf c r % align r ≠ 0) ∨
                  (e = .overflowField (.baseAddrOf r) (addrOf c r / align r) ∧ addrOf c r % align r = 0 ∧
                    2 ^ 24 ≤ addrOf c r / align r)))))))

/-- ENCODE of a command that passes writes the record of R115 into `REC`, clears `err` and changes nothing else (40_encoder section 4;
which operand is word 1, 2, 3 and the reserved bit are the spec's own choices D4 and D11). -/
def Obligations.EncodeBuildsTheRecord : Prop :=
  ∀ (s : State) (c : Cmd), s.enc.step = .eIdle → Contract c →
    ∃ r : Vector Word64 5,
      exec (.encode c) s =
        .next { s with enc := { s.enc with recWords := r, recWritten := true, err := none }, reply := .done } ∧
      r[0].toNat = (c.n + 63) / 64 + 2 ^ 20 + c.aDin / 16384 * 2 ^ 40 ∧
      r[1].toNat = (c.n + 63) / 64 + 2 ^ 20 + c.aB / 4096 * 2 ^ 40 ∧
      r[2].toNat = (c.k + 63) / 64 + 2 ^ 20 + c.aA / 4096 * 2 ^ 40 ∧
      r[3].toNat = (c.n + 63) / 64 + 2 ^ 20 + c.aDout / 16384 * 2 ^ 40 ∧
      r[4].toNat = (c.k + 63) / 64 + (c.n + 63) / 64 * 2 ^ 8 + (c.m + 63) / 64 * 2 ^ 16 + c.tB * 2 ^ 25 +
        c.tA * 2 ^ 26 + c.itype * 2 ^ 27

/-- R114: when VALIDATE raises, the command (VALIDATE itself, ENCODE or SUBMIT) ends at once: `err` holds the error, `REC` is not written, `step` stays `EIdle`, and the
device, and all else of the encoder, is untouched. -/
def Obligations.RefusedCommandsSendNothing : Prop :=
  ∀ (s : State) (c : Cmd) (e : EncError), s.enc.step = .eIdle → validateCmd c = some e →
    exec (.encode c) s =
        .next { s with enc := { s.enc with err := some (errName e) }, reply := .refused e } ∧
      exec (.submit c) s =
        .next { s with enc := { s.enc with err := some (errName e) }, reply := .refused e } ∧
      exec (.validate c) s =
        .next { s with enc := { s.enc with err := some (errName e) }, reply := .refused e }

/-- A command presented while the serializer is under way is turned away with no effect (R117 says when a command is accepted; that
another one has no effect is the model's reading, log 9). -/
def Obligations.BusyCommandsAreTurnedAway : Prop :=
  ∀ (s : State) (i : Instr), s.enc.step ≠ .eIdle →
    (∃ c, i = .validate c ∨ i = .encode c ∨ i = .submit c) ∨ i = .transmit →
    exec i s = .next { s with reply := .turnedAway }

/-! ### Transmission -/

/-- TRANSMIT with nothing in flight: the five words of `REC` replace the cells, the trigger runs once on all five, and the acknowledgement
is the Status Register the trigger left; `REC`, `err` and all else is unchanged (40_encoder section 5; that the trigger keeps the cells, the
trace, the counter and the whole of `STATUS` set are the spec's own choices D7, D14, D6, D21; running it in one step is log 10). -/
def Obligations.TransmitSendsAndAcknowledges : Prop :=
  ∀ s : State, s.Ready → s.path = [] → s.enc.step = .eIdle → s.enc.recWritten = true →
    exec .transmit s =
      .next { s with
        dev :=
          { w := s.enc.recWords, valid := false, fsm := .idle, status := 0x0000000000000001#64,
            icount := s.dev.icount + 1#64, execLog := s.dev.execLog ++ [decodeRecord s.enc.recWords] }
        enc := { s.enc with step := .eIdle, ack := 0x0000000000000001#64, ackWritten := true }
        reply := .ack 0x0000000000000001#64 }

/-- Whatever stores are in flight, TRANSMIT completes: nothing is left in flight, each of those stores was answered once, and the trigger
came after all of them, so that `STATUS` and the acknowledgement are 0x1 and words 1 to 4 are those of `REC`. Exactly: what a compiler
barrier already held arrives, then word 0, then the rest in the order of issue (before word 1, by TRANSMIT's own first barrier; such a
store may have overwritten word 0), then words 1 to 3 and the trigger (40_encoder section 5, 20_memory sections 5 and 6; the path and its
order of arrival are the model's own, log 15, the reports log 42, a store to an address that is not the device's log 12, running it in one
step log 10; D7, D14 and D21 are the spec's own choices). -/
def Obligations.TransmitCompletesWithStoresInFlight : Prop :=
  ∀ s : State, s.Ready → s.enc.step = .eIdle → s.enc.recWritten = true →
    ∃ t, exec .transmit s = .next t ∧ t.path = [] ∧ t.params = s.params ∧ t.script = s.script ∧
      t.enc = { s.enc with step := .eIdle, ack := 0x0000000000000001#64, ackWritten := true } ∧
      t.reply = .ack 0x0000000000000001#64 ∧ t.dev.status = 0x0000000000000001#64 ∧
      (∀ j : Fin 5, j.val ≠ 0 → t.dev.cell j = s.enc.recWords[j]) ∧
      (∃ log, t.dev.execLog = log ++ [decodeRecord t.dev.w]) ∧
      t.reports.length = s.reports.length + storesIn s.path ∧
      ∃ d1 d2 r1,
        (heldByBarrier s.path).foldl (arrival s.params) (s.dev, s.reports) = (d1, r1) ∧
        (behindBarrier s.path).foldl (arrival s.params) (d1.storeWhole 0 s.enc.recWords[0], r1) = (d2, t.reports) ∧
        t.dev =
          (((d2.storeWhole 1 s.enc.recWords[1]).storeWhole 2 s.enc.recWords[2]).storeWhole 3 s.enc.recWords[3]).trigger
            s.enc.recWords[4]

/-- SUBMIT is ENCODE, then TRANSMIT if ENCODE left no error (40_encoder section 5; each of the three as one step is log 10). -/
def Obligations.SubmitIsEncodeThenTransmit : Prop :=
  ∀ (s : State) (c : Cmd), s.enc.step = .eIdle →
    ∃ t, exec (.encode c) s = .next t ∧
      (t.enc.err = none → exec (.submit c) s = exec .transmit t) ∧
      (t.enc.err ≠ none → exec (.submit c) s = .next t)

/-- The source's round trip, end to end: a command of the contract submitted to a device that shares the set-up hands over one record
with the block counts, both stride fields, the flags, the type and all four addresses exactly as asked, and is acknowledged with 0x1
(30_encoding section 3, 40_encoder section 5, 95_test_vectors S1 and S2.1; the optional inputs, the word order, the trace and the whole of
`STATUS` set are the spec's own choices D10, D4, D14 and D21; SUBMIT as one step is log 10). -/
def Obligations.SubmitHandsOverWhatWasAsked : Prop :=
  ∀ (s : State) (c : Cmd), s.Ready → s.path = [] → s.enc.step = .eIdle → Contract c →
    ∃ t r, exec (.submit c) s = .next t ∧ t.dev.execLog = s.dev.execLog ++ [r] ∧
      r.m.toNat = (c.m + 63) / 64 ∧ r.n.toNat = (c.n + 63) / 64 ∧ r.k.toNat = (c.k + 63) / 64 ∧
      r.ifATranspose.toNat = c.tA ∧ r.ifBTranspose.toNat = c.tB ∧ r.instructionType.toNat = c.itype ∧
      r.din.realAddr = c.aDin ∧ r.b.realAddr = c.aB ∧ r.a.realAddr = c.aA ∧ r.dout.realAddr = c.aDout ∧
      r.din.strideMinor = r.dout.strideMinor ∧ r.b.strideMinor = r.din.strideMinor ∧
      r.din.strideMinor.toNat = (c.n + 63) / 64 ∧ r.a.strideMinor.toNat = (c.k + 63) / 64 ∧
      r.din.strideMajor = 1#20 ∧ r.b.strideMajor = 1#20 ∧ r.a.strideMajor = 1#20 ∧ r.dout.strideMajor = 1#20 ∧
      t.dev.status = 1#64 ∧ t.reply = .ack 1#64 ∧
      t.enc = { s.enc with
        recWords := buildRecord c, recWritten := true, ack := 1#64, ackWritten := true, err := none }

/-- SUBMIT's expansion of R97: the device after the eleven lines of the script is the device after SUBMIT, and the last line reads what SUBMIT
returns (that SUBMIT is one step is log 10, the script log 1). -/
def Obligations.SubmitExpandsToItsScript : Prop :=
  ∀ (s : State) (c : Cmd), s.Ready → s.path = [] → s.enc.step = .eIdle → Contract c →
    ∃ t u b, exec (.submit c) s = .next t ∧
      Host.Core.run core 11
        { s with script :=
          [.line (writeLine8 0x00 (buildRecord c)[0]), .compilerBarrier,
           .line (writeLine8 0x08 (buildRecord c)[1]), .compilerBarrier,
           .line (writeLine8 0x10 (buildRecord c)[2]), .compilerBarrier,
           .line (writeLine8 0x18 (buildRecord c)[3]), .compilerBarrier,
           .line (writeLine8 0x20 (buildRecord c)[4]), .fullBarrier,
           .line (readLine s.params.devStatus 8)] } = .next u ∧
      u.dev = t.dev ∧ u.reply = .data b ∧ fromLE b = t.enc.ack.toNat

/-- Run one position at a time with nothing between, a transmission is TRANSMIT: begun and advanced seven times it ends as the one step does,
stops included (10_state R30, 40_encoder R116; the two ways to run it are log 10). -/
def Obligations.PacedTransmissionIsTransmit : Prop :=
  ∀ (s : State) (rest : List Event), s.enc.step = .eIdle →
    Host.Core.run core 8
        { s with script := .txBegin :: (List.replicate 7 .txAdvance ++ rest) } =
      exec .transmit { s with script := rest }

/-- The acknowledgement is the Status Register's value whatever it is, no error is reported, and nothing of the device changes
(40_encoder section 5). It is said of the last position of a transmission run one position at a time by the event `txAdvance`, a
DESIGN CHOICE of the model (log 10); `ack` and `err` as state are the spec's own choice D19, and that the read leaves `STATUS` as it was is its
own choice D17 (log 29). -/
def Obligations.AcknowledgementIsNotInterpreted : Prop :=
  ∀ (s : State) (rest : List Event), s.Ready → s.enc.step = .readStatus → s.script = .txAdvance :: rest →
    step s =
      .next { s with
        enc := { s.enc with ack := s.dev.status, ackWritten := true, step := .eIdle }
        script := rest
        reply := .ack s.dev.status }

/-- TRANSMIT before any ENCODE is a fault: `REC` must not be read before it is written (10_state section 3, 93 U11; the spec's own choice
D19). The stop is the read: to begin a transmission with the event `txBegin` reads nothing and goes on, and each position that stores a word of
`REC`, taken by `txAdvance`, faults (the two events are the model's own, log 10). -/
def Obligations.TransmitBeforeEncodeFaults : Prop :=
  ∀ s : State, s.enc.recWritten = false →
    (s.enc.step = .eIdle →
      exec .transmit s = .fault .recNotWritten ∧
        runEvent .txBegin s = .next { s with enc := { s.enc with step := .tx0 }, reply := .nothing }) ∧
    (s.enc.step ∈ [.tx0, .tx1, .tx2, .tx3, .tx4] → runEvent .txAdvance s = .fault .recNotWritten)

/-- A transmission whose first access reaches the device at an offset that fails is a fault of the run (40_encoder R119, the spec's own
choice D16), and at an address that is not routed a refusal (20_memory R51, D18; log 12). -/
def Obligations.WrongBaseStopsTheTransmission : Prop :=
  ∀ s : State, s.path = [] → s.enc.step = .eIdle → s.enc.recWritten = true →
    (∀ off, route s.params s.params.encBase = some off → accessError s.params off 8 ≠ none →
      exec .transmit s = .fault .busAccessFailed) ∧
    (route s.params s.params.encBase = none → exec .transmit s = .refused .unroutedAddress)

/-! ### The producer's accesses and barriers -/

/-- A producer's access with nothing in flight is the device access at its address less DEVICE_BASE; an address below it is not this
block's (20_memory R51; routing is the spec's own choice D18). -/
def Obligations.ProducerAccessesAreRouted : Prop :=
  ∀ (s : State) (addr n : Nat) (bytes : List Byte), s.path = [] → addr < 2 ^ s.params.addrBits →
    (s.params.devBase ≤ addr →
      runEvent (.memWrite addr bytes) s =
          runLine (.access ⟨.write, addr - s.params.devBase, bytes.length, bytes⟩) s ∧
        runEvent (.memRead addr n) s = runLine (.access ⟨.read, addr - s.params.devBase, n, []⟩) s) ∧
    (addr < s.params.devBase →
      runEvent (.memWrite addr bytes) s = .refused .unroutedAddress ∧
        runEvent (.memRead addr n) s = .refused .unroutedAddress)

/-- Barriers and stores in flight (20_memory R59 to R61; the path is the model's own, log 15, and so is the way a store in flight is answered,
log 42). A posted store touches no device state until it arrives. Arriving at a routed address it does what the same access does and is
answered once, a failure included; at another address it leaves the block as it was and is reported so (log 12). With no barrier between,
either of two stores in flight may arrive first; behind a compiler barrier the later one is turned away while the earlier is in flight, and a
store issued now arrives after the earlier one. A full barrier completes whatever is in flight, to any address, and then the device has
performed every store that is routed to it, oldest first. Whatever the event, a store leaves the path exactly when it is answered. -/
def Obligations.BarriersOrderStoresInFlight : Prop :=
  ∀ (s : State) (a1 a2 : Nat) (b1 b2 : List Byte),
    (∃ t, runEvent (.post a1 b1) s = .next t ∧
      t = { s with path := s.path ++ [.store a1 b1], reply := .nothing }) ∧
    (∀ off, route s.params a1 = some off →
      arriveStore a1 b1 s =
        match devWrite s.params off b1.length b1 s.dev with
        | .ok d => { s with dev := d, reports := s.reports ++ [.ok], reply := .nothing }
        | .error e => { s with reports := s.reports ++ [.failed e off b1.length], reply := .nothing }) ∧
    (route s.params a1 = none →
      arriveStore a1 b1 s = { s with reports := s.reports ++ [.elsewhere], reply := .nothing }) ∧
    (s.path = [.store a1 b1, .store a2 b2] →
      runEvent (.deliver 0) s = .next (arriveStore a1 b1 { s with path := [.store a2 b2] }) ∧
        runEvent (.deliver 1) s = .next (arriveStore a2 b2 { s with path := [.store a1 b1] })) ∧
    (s.path = [.store a1 b1] →
      ∃ t, runEvent .compilerBarrier s = .next t ∧ t.dev = s.dev ∧ t.enc = s.enc ∧
        (∃ u, runEvent (.post a2 b2) t = .next u ∧
          runEvent (.deliver 1) u = .next { u with reply := .turnedAway } ∧
          runEvent (.deliver 0) u = .next (arriveStore a1 b1 { u with path := [.store a2 b2] })) ∧
        runEvent (.memWrite a2 b2) t = presentStore a2 b2 (arriveStore a1 b1 { t with path := [] })) ∧
    runEvent .fullBarrier s =
      .next { s with
        path := []
        dev := (s.path.foldl (arrival s.params) (s.dev, s.reports)).1
        reports := (s.path.foldl (arrival s.params) (s.dev, s.reports)).2
        reply := .nothing } ∧
    ∀ e t, runEvent e s = .next t →
      storesIn t.path + t.reports.length =
        storesIn s.path + s.reports.length + (match e with | .post _ _ => 1 | _ => 0)

/-! ### Whole-machine rules -/

/-- The state of the device after a sequence of accesses is the fold of the per-access rules over that sequence, and a read then returns
the state they left (20_memory section 5; that the reads of the sequence leave the device as it was is the spec's own choice D17, log 29). -/
def Obligations.DeviceFoldsItsAccesses : Prop :=
  ∀ (s : State) (accs : List Access), (∀ a ∈ accs, (Line.access a).wf = true) →
    ∃ t, Host.Core.run core accs.length { s with script := accs.map fun a => .line (.access a) } = .next t ∧
      t.enc = s.enc ∧ t.params = s.params ∧
      t.dev = accs.foldl
        (fun d a =>
          match a.op with
          | .read => d
          | .write =>
            match devWrite s.params a.off a.n a.bytes d with
            | .ok d' => d'
            | .error _ => d) s.dev ∧
      ∀ off n data, devRead s.params off n t.dev = .ok data →
        runLine (.access ⟨.read, off, n, []⟩) t = .next { t with reply := .data data }

/-- With the set-up of R212 shared, every instruction answers a next state, whatever stores are in flight; the one exception is a TRANSMIT
before any ENCODE (93 U11). That a TRANSMIT or SUBMIT completes although a store in flight fails, or goes to an address that is not the
device's, are the model's choices, logs 42 and 12; that a command in a busy encoder is turned away is its reading, log 9; that TRANSMIT and SUBMIT
are one step is log 10. -/
def Obligations.EveryInstructionCompletes : Prop :=
  ∀ (s : State) (i : Instr), s.Ready →
    (i = .transmit → s.enc.step = .eIdle → s.enc.recWritten = true) → ∃ t, exec i s = .next t

/-- The invariant of the machine is kept by every step, from every state that has it (10_state R21, R22, R23, R25, R31; 40_encoder R114, R116;
the trace, the counter and the encoder's state are the spec's own choices D14, D6 and D19; that the trigger is over within its step is log 40,
and that past `Tx0` a transmission is under way only with a written `REC` is log 8). -/
def Obligations.StepKeepsTheInvariant : Prop :=
  ∀ s t : State, s.Inv → step s = .next t → t.Inv

/-- The reset state has the invariant (10_state sections 2 and 3). That the counter is 0 and the trace empty at reset are the spec's own choices
D6 and D14 (logs 18 and 19); that the encoder starts in `EIdle` with an unwritten `REC` is its own choice D19 (log 8). -/
def Obligations.ResetHasTheInvariant : Prop := State.reset.Inv

/-- No step changes the parameters, and every step takes at most the head of the script (00_scope R7; the script is log 1). -/
def Obligations.StepKeepsTheParameters : Prop :=
  ∀ s t : State, step s = .next t → t.params = s.params ∧ t.script = s.script.tail

/-- Only a trigger hands over a record and counts, and only RESET takes the trace and the count back. An instruction that is not WR8_TRIG,
GEMM, RECORD, TRANSMIT, SUBMIT or RESET leaves the trace, `icount` and `valid` as they were, and `STATUS` too unless it is a status write or
SET_RECEIVED. Of all steps: with no event pending nothing changes; a line is its instruction; and any other event changes the device exactly
by the stores it presents, so that it leaves the trace, `icount` and `valid` unless one of them is the 8-byte write at 0x20, and `STATUS` too
unless one reaches the status window (10_state R22, R24, R25; the trace and the counter are the spec's own choices D14 and D6; the script is
log 1, the events of a paced transmission log 10, the path logs 12 and 15). -/
def Obligations.OnlyTriggersHandOver : Prop :=
  (∀ (s t : State) (i : Instr), exec i s = .next t →
    (∀ v, i ≠ .wr8Trig v) → (∀ k n m rsv tB tA pad, i ≠ .gemm k n m rsv tB tA pad) →
    (∀ k n m rsv tB tA it pad, i ≠ .record k n m rsv tB tA it pad) → i ≠ .transmit → (∀ c, i ≠ .submit c) →
    i ≠ .reset →
    t.dev.execLog = s.dev.execLog ∧ t.dev.icount = s.dev.icount ∧ t.dev.valid = s.dev.valid ∧
      ((∀ v, i ≠ .wr8St v) → (∀ v, i ≠ .wr4St v) → i ≠ .setReceived → t.dev.status = s.dev.status)) ∧
  ∀ s t : State, step s = .next t →
    match s.script with
    | [] => t = s
    | .line l :: rest => ∃ i, decode s.params l = .instr i ∧ exec i { s with script := rest } = .next t
    | e :: _ =>
      t.dev = ((presented s e).foldl (arrival s.params) (s.dev, [])).1 ∧
      ((∀ a b, .store a b ∈ presented s e → route s.params a = some 0x20 → b.length ≠ 8) →
        t.dev.execLog = s.dev.execLog ∧ t.dev.icount = s.dev.icount ∧ t.dev.valid = s.dev.valid ∧
          ((∀ a b, .store a b ∈ presented s e → route s.params a ≠ some s.params.devStatus) →
            t.dev.status = s.dev.status))

/-- `REC` is written only by ENCODE (also inside SUBMIT) and only with the record of a command that passed every check; of all steps, the
serializer's positions included, only a line that is one of the two writes it, and a reset of the encoder makes it unwritten (10_state section
3; the encoder's reset is the spec's own choice D19, the script log 1, the paced positions log 10). -/
def Obligations.OnlyEncodeWritesTheRecord : Prop :=
  ∀ s t : State,
    (∀ i, exec i s = .next t →
      (t.enc.recWords = s.enc.recWords ∧ t.enc.recWritten = s.enc.recWritten) ∨
        ∃ c, (i = .encode c ∨ i = .submit c) ∧ validateCmd c = none ∧ t.enc.recWords = buildRecord c ∧
          t.enc.recWritten = true) ∧
    (step s = .next t →
      (t.enc.recWords = s.enc.recWords ∧ t.enc.recWritten = s.enc.recWritten) ∨
        (∃ l c, s.script.head? = some (.line l) ∧
          (decode s.params l = .instr (.encode c) ∨ decode s.params l = .instr (.submit c)) ∧
          validateCmd c = none ∧ t.enc.recWords = buildRecord c ∧ t.enc.recWritten = true) ∨
        (s.script.head? = some .encoderReset ∧ t.enc.recWritten = false))

/-- The outcome of an access or a record word depends only on itself, on the cells and on `STATUS`: two states that agree on those and on the
parameters give the same cells, `STATUS` and reply, whatever `fsm`, `valid`, `icount`, the trace and the encoder hold (10_state R23; a record
word as a line of its own is log 5). -/
def Obligations.OutcomeDependsOnCellsAndStatus : Prop :=
  ∀ (s s' t : State) (l : Line), (∀ c args, l ≠ .command c args) →
    s'.params = s.params → s'.dev.w = s.dev.w → s'.dev.status = s.dev.status → runLine l s = .next t →
    ∃ t', runLine l s' = .next t' ∧ t'.dev.w = t.dev.w ∧ t'.dev.status = t.dev.status ∧ t'.reply = t.reply

/-- Presenting an access twice leaves the device as presenting it once did, but for the 8-byte write at 0x20, which triggers again and
hands over one more record (20_memory R57, an inference the spec marks as its own, from 41_decoder_write section 2 and 43_status; that reads
change nothing is its own choice D17, log 29, and the trace in which the second trigger is seen D14, log 19). -/
def Obligations.OnlyTheTriggerIsNotIdempotent : Prop :=
  ∀ (s : State) (a : Access), (Line.access a).wf = true →
    ∃ t u, runLine (.access a) s = .next t ∧ runLine (.access a) t = .next u ∧
      (¬(a.op = .write ∧ a.n = 8 ∧ a.off = 0x20) → u.dev = t.dev) ∧
      (a.op = .write ∧ a.n = 8 ∧ a.off = 0x20 → u.dev.execLog.length = t.dev.execLog.length + 1)
end

