-- ==== Sys2Proof/Laws/Bytes.lean ====
section
/-! SUPPORT. Byte order and bit fields: `from_le` undoes `le_bytes`, a word is what its fields say, a narrow write keeps the
high half. -/

namespace Sys2Proof.Machine

theorem leBytes_length (n v : Nat) : (leBytes n v).length = n := by simp [leBytes]

theorem leBytes_succ (n v : Nat) : leBytes (n + 1) v = BitVec.ofNat 8 v :: leBytes n (v / 256) := by
  simp only [leBytes, List.range_succ_eq_map, List.map_cons, List.map_map]
  refine List.cons_eq_cons.mpr ⟨by simp, List.map_congr_left fun j _ => ?_⟩
  simp only [Function.comp_apply, Nat.shiftRight_eq_div_pow, Nat.succ_eq_add_one, Nat.mul_add, Nat.pow_add,
    Nat.div_div_eq_div_mul]
  rw [Nat.mul_comm]

/-- `from_le(le_bytes(v, n))` is `v` narrowed to `n` bytes (R8, R10). -/
theorem fromLE_leBytes (n v : Nat) : fromLE (leBytes n v) = v % 256 ^ n := by
  induction n generalizing v with
  | zero => simp [leBytes, fromLE, Nat.mod_one]
  | succ n ih =>
    rw [leBytes_succ]
    have h : fromLE (BitVec.ofNat 8 v :: leBytes n (v / 256)) = v % 256 + 256 * fromLE (leBytes n (v / 256)) := by
      simp [fromLE]
    rw [h, ih, Nat.pow_succ, Nat.mul_comm (256 ^ n) 256, Nat.mod_mul]

theorem fromLE_lt (bytes : List Byte) : fromLE bytes < 256 ^ bytes.length := by
  induction bytes with
  | nil => simp [fromLE]
  | cons b rest ih =>
    have hb : b.toNat < 256 := b.isLt
    have h : fromLE (b :: rest) = b.toNat + 256 * fromLE rest := rfl
    rw [h, List.length_cons, Nat.pow_succ]
    omega

/-- `le_bytes(from_le(bytes), n)` gives the bytes back. -/
theorem leBytes_fromLE (bytes : List Byte) : leBytes bytes.length (fromLE bytes) = bytes := by
  induction bytes with
  | nil => rfl
  | cons b rest ih =>
    have hb : b.toNat < 256 := b.isLt
    have h : fromLE (b :: rest) = b.toNat + 256 * fromLE rest := rfl
    rw [List.length_cons, leBytes_succ, h]
    have hd : (b.toNat + 256 * fromLE rest) / 256 = fromLE rest := by omega
    rw [hd, ih]
    refine List.cons_eq_cons.mpr ⟨?_, rfl⟩
    apply BitVec.eq_of_toNat_eq
    simp only [BitVec.toNat_ofNat]
    omega

theorem wordBytes_length (w : Word64) : (wordBytes w).length = 8 := leBytes_length 8 _

theorem halfBytes_length (w : Word32) : (halfBytes w).length = 4 := leBytes_length 4 _

@[simp] theorem payload64_wordBytes (w : Word64) : payload64 (wordBytes w) = w := by
  apply BitVec.eq_of_toNat_eq
  have h := w.isLt
  simp only [payload64, wordBytes, fromLE_leBytes, BitVec.toNat_ofNat]
  omega

@[simp] theorem payload32_halfBytes (w : Word32) : payload32 (halfBytes w) = w := by
  apply BitVec.eq_of_toNat_eq
  have h := w.isLt
  simp only [payload32, halfBytes, fromLE_leBytes, BitVec.toNat_ofNat]
  omega

theorem wordBytes_payload64 (bytes : List Byte) (h : bytes.length = 8) : wordBytes (payload64 bytes) = bytes := by
  have hlt := fromLE_lt bytes
  rw [h] at hlt
  rw [wordBytes, payload64, BitVec.toNat_ofNat, Nat.mod_eq_of_lt (by omega), ← h, leBytes_fromLE]

theorem halfBytes_payload32 (bytes : List Byte) (h : bytes.length = 4) : halfBytes (payload32 bytes) = bytes := by
  have hlt := fromLE_lt bytes
  rw [h] at hlt
  rw [halfBytes, payload32, BitVec.toNat_ofNat, Nat.mod_eq_of_lt (by omega), ← h, leBytes_fromLE]

/-! ### Bit fields -/

/-- A narrow write puts its value in bits [31:0] (R144). -/
@[simp] theorem lowHalf_replaceLow (w : Word64) (v : Word32) : lowHalf (replaceLow w v) = v :=
  (BitVec.extractLsb'_append_eq_of_add_le (by decide)).trans BitVec.extractLsb'_eq_self

/-- A narrow write keeps bits [63:32] (R144). -/
@[simp] theorem paddingOf_replaceLow (w : Word64) (v : Word32) : paddingOf (replaceLow w v) = paddingOf w :=
  (BitVec.extractLsb'_append_eq_of_le (by decide)).trans BitVec.extractLsb'_eq_self

/-- A field of a concatenation that lies in its upper part. -/
theorem field_upper {a b : Nat} (hi : BitVec a) (lo : BitVec b) (start len : Nat) (h : b ≤ start) :
    (hi ++ lo).extractLsb' start len = hi.extractLsb' (start - b) len :=
  BitVec.extractLsb'_append_eq_of_le h

/-- A field that is the lower part of a concatenation. -/
theorem field_lower {a b : Nat} (hi : BitVec a) (lo : BitVec b) : (hi ++ lo).extractLsb' 0 b = lo :=
  (BitVec.extractLsb'_append_eq_of_add_le (by omega)).trans BitVec.extractLsb'_eq_self

/-- A field that is the upper part of a concatenation. -/
theorem field_top {a b : Nat} (hi : BitVec a) (lo : BitVec b) : (hi ++ lo).extractLsb' b a = hi := by
  rw [field_upper _ _ _ _ (Nat.le_refl b), Nat.sub_self, BitVec.extractLsb'_eq_self]

section fields
variable (sm sM : BitVec 20) (ba : BitVec 24) (k n m : BitVec 8) (rsv tB tA : BitVec 1) (it : BitVec 5)
  (pad : Word32) (w : Word64)

@[simp] theorem strideMinorOf_opdWord : strideMinorOf (opdWord sm sM ba) = sm := field_lower _ _

@[simp] theorem strideMajorOf_opdWord : strideMajorOf (opdWord sm sM ba) = sM :=
  (field_upper _ _ 20 20 (by decide)).trans (field_lower _ _)

@[simp] theorem baseAddrOf_opdWord : baseAddrOf (opdWord sm sM ba) = ba :=
  (field_upper _ _ 40 24 (by decide)).trans (field_top _ _)

/-- The three fields fill the word; no bit is spare (R82). -/
@[simp] theorem opdWord_fields : opdWord (strideMinorOf w) (strideMajorOf w) (baseAddrOf w) = w := by
  simp only [opdWord, strideMinorOf, strideMajorOf, baseAddrOf]
  rw [BitVec.extractLsb'_append_extractLsb'_eq_extractLsb' (by rfl),
    BitVec.extractLsb'_append_extractLsb'_eq_extractLsb' (by rfl)]
  exact BitVec.extractLsb'_eq_self

@[simp] theorem kOf_metaWord : kOf (metaWord k n m rsv tB tA it pad) = k := field_lower _ _

@[simp] theorem nOf_metaWord : nOf (metaWord k n m rsv tB tA it pad) = n :=
  (field_upper _ _ 8 8 (by decide)).trans (field_lower _ _)

@[simp] theorem mOf_metaWord : mOf (metaWord k n m rsv tB tA it pad) = m :=
  (field_upper _ _ 16 8 (by decide)).trans
    ((field_upper _ _ 8 8 (by decide)).trans (field_lower _ _))

@[simp] theorem reservedOf_metaWord : reservedOf (metaWord k n m rsv tB tA it pad) = rsv :=
  (field_upper _ _ 24 1 (by decide)).trans
    ((field_upper _ _ 16 1 (by decide)).trans ((field_upper _ _ 8 1 (by decide)).trans (field_lower _ _)))

@[simp] theorem bTransposeOf_metaWord : bTransposeOf (metaWord k n m rsv tB tA it pad) = tB :=
  (field_upper _ _ 25 1 (by decide)).trans
    ((field_upper _ _ 17 1 (by decide)).trans
      ((field_upper _ _ 9 1 (by decide)).trans ((field_upper _ _ 1 1 (by decide)).trans (field_lower _ _))))

@[simp] theorem aTransposeOf_metaWord : aTransposeOf (metaWord k n m rsv tB tA it pad) = tA :=
  (field_upper _ _ 26 1 (by decide)).trans
    ((field_upper _ _ 18 1 (by decide)).trans
      ((field_upper _ _ 10 1 (by decide)).trans
        ((field_upper _ _ 2 1 (by decide)).trans ((field_upper _ _ 1 1 (by decide)).trans (field_lower _ _)))))

@[simp] theorem itypeOf_metaWord : itypeOf (metaWord k n m rsv tB tA it pad) = it :=
  (field_upper _ _ 27 5 (by decide)).trans
    ((field_upper _ _ 19 5 (by decide)).trans
      ((field_upper _ _ 11 5 (by decide)).trans
        ((field_upper _ _ 3 5 (by decide)).trans
          ((field_upper _ _ 2 5 (by decide)).trans ((field_upper _ _ 1 5 (by decide)).trans (field_lower _ _))))))

@[simp] theorem paddingOf_metaWord : paddingOf (metaWord k n m rsv tB tA it pad) = pad :=
  (field_upper _ _ 32 32 (by decide)).trans
    ((field_upper _ _ 24 32 (by decide)).trans
      ((field_upper _ _ 16 32 (by decide)).trans
        ((field_upper _ _ 8 32 (by decide)).trans
          ((field_upper _ _ 7 32 (by decide)).trans ((field_upper _ _ 6 32 (by decide)).trans (field_top _ _))))))

/-- The fields of a Meta word, with the reserved bit and the padding, are all its bits (R83). -/
@[simp] theorem metaWord_fields :
    metaWord (kOf w) (nOf w) (mOf w) (reservedOf w) (bTransposeOf w) (aTransposeOf w) (itypeOf w)
      (paddingOf w) = w := by
  simp only [metaWord, kOf, nOf, mOf, reservedOf, bTransposeOf, aTransposeOf, itypeOf, paddingOf]
  repeat rw [BitVec.extractLsb'_append_extractLsb'_eq_extractLsb' (by rfl)]
  exact BitVec.extractLsb'_eq_self

end fields

end Sys2Proof.Machine
end

