-- ==== Sys2Proof/Laws/State.lean ====
section
/-! SUPPORT. One lemma per field per update of the device, the encoder and the state, each true by `rfl`, so that no later
proof unfolds a record update. -/

namespace Sys2Proof.Machine

section device
variable (d : Device) (i : Fin 5) (v : Word64) (h : Word32)

@[simp] theorem Device.setCell_w : (d.setCell i v).w = d.w.set i v := rfl
@[simp] theorem Device.setCell_valid : (d.setCell i v).valid = d.valid := rfl
@[simp] theorem Device.setCell_fsm : (d.setCell i v).fsm = d.fsm := rfl
@[simp] theorem Device.setCell_status : (d.setCell i v).status = d.status := rfl
@[simp] theorem Device.setCell_icount : (d.setCell i v).icount = d.icount := rfl
@[simp] theorem Device.setCell_execLog : (d.setCell i v).execLog = d.execLog := rfl

@[simp] theorem Device.setStatus_w : (d.setStatus v).w = d.w := rfl
@[simp] theorem Device.setStatus_valid : (d.setStatus v).valid = d.valid := rfl
@[simp] theorem Device.setStatus_fsm : (d.setStatus v).fsm = d.fsm := rfl
@[simp] theorem Device.setStatus_status : (d.setStatus v).status = v := rfl
@[simp] theorem Device.setStatus_icount : (d.setStatus v).icount = d.icount := rfl
@[simp] theorem Device.setStatus_execLog : (d.setStatus v).execLog = d.execLog := rfl

@[simp] theorem Device.setReceived_w : d.setReceived.w = d.w := rfl
@[simp] theorem Device.setReceived_valid : d.setReceived.valid = d.valid := rfl
@[simp] theorem Device.setReceived_fsm : d.setReceived.fsm = d.fsm := rfl
@[simp] theorem Device.setReceived_status : d.setReceived.status = Config.statusReceived := rfl
@[simp] theorem Device.setReceived_icount : d.setReceived.icount = d.icount := rfl
@[simp] theorem Device.setReceived_execLog : d.setReceived.execLog = d.execLog := rfl

@[simp] theorem Device.storeWhole_w : (d.storeWhole i v).w = d.w.set i v := rfl
@[simp] theorem Device.storeWhole_valid : (d.storeWhole i v).valid = d.valid := rfl
@[simp] theorem Device.storeWhole_fsm : (d.storeWhole i v).fsm = .filling := rfl
@[simp] theorem Device.storeWhole_status : (d.storeWhole i v).status = d.status := rfl
@[simp] theorem Device.storeWhole_icount : (d.storeWhole i v).icount = d.icount := rfl
@[simp] theorem Device.storeWhole_execLog : (d.storeWhole i v).execLog = d.execLog := rfl

@[simp] theorem Device.storeLow_w : (d.storeLow i h).w = d.w.set i (replaceLow (d.cell i) h) := rfl
@[simp] theorem Device.storeLow_valid : (d.storeLow i h).valid = d.valid := rfl
@[simp] theorem Device.storeLow_fsm : (d.storeLow i h).fsm = .filling := rfl
@[simp] theorem Device.storeLow_status : (d.storeLow i h).status = d.status := rfl
@[simp] theorem Device.storeLow_icount : (d.storeLow i h).icount = d.icount := rfl
@[simp] theorem Device.storeLow_execLog : (d.storeLow i h).execLog = d.execLog := rfl

@[simp] theorem Device.trigger_w : (d.trigger v).w = d.w.set (4 : Fin 5) v := rfl
@[simp] theorem Device.trigger_valid : (d.trigger v).valid = false := rfl
@[simp] theorem Device.trigger_fsm : (d.trigger v).fsm = .idle := rfl
@[simp] theorem Device.trigger_status : (d.trigger v).status = Config.statusReceived := rfl
@[simp] theorem Device.trigger_icount : (d.trigger v).icount = d.icount + 1#64 := rfl
@[simp] theorem Device.trigger_execLog :
    (d.trigger v).execLog = d.execLog ++ [decodeRecord (d.w.set (4 : Fin 5) v)] := rfl

@[simp] theorem Device.storeStatusLow_w : (d.storeStatusLow h).w = d.w := rfl
@[simp] theorem Device.storeStatusLow_valid : (d.storeStatusLow h).valid = d.valid := rfl
@[simp] theorem Device.storeStatusLow_fsm : (d.storeStatusLow h).fsm = d.fsm := rfl
@[simp] theorem Device.storeStatusLow_status : (d.storeStatusLow h).status = replaceLow d.status h := rfl
@[simp] theorem Device.storeStatusLow_icount : (d.storeStatusLow h).icount = d.icount := rfl
@[simp] theorem Device.storeStatusLow_execLog : (d.storeStatusLow h).execLog = d.execLog := rfl

end device

section encoder
variable (e : Encoder) (r : Vector Word64 Config.recordWords) (p : EncStep) (v : Word64) (x : Option EncError)

@[simp] theorem Encoder.setErr_step : (e.setErr x).step = e.step := rfl
@[simp] theorem Encoder.setErr_recWords : (e.setErr x).recWords = e.recWords := rfl
@[simp] theorem Encoder.setErr_recWritten : (e.setErr x).recWritten = e.recWritten := rfl
@[simp] theorem Encoder.setErr_ack : (e.setErr x).ack = e.ack := rfl
@[simp] theorem Encoder.setErr_ackWritten : (e.setErr x).ackWritten = e.ackWritten := rfl
@[simp] theorem Encoder.setErr_err : (e.setErr x).err = x.map errName := rfl

@[simp] theorem Encoder.setRecord_step : (e.setRecord r).step = e.step := rfl
@[simp] theorem Encoder.setRecord_recWords : (e.setRecord r).recWords = r := rfl
@[simp] theorem Encoder.setRecord_recWritten : (e.setRecord r).recWritten = true := rfl
@[simp] theorem Encoder.setRecord_ack : (e.setRecord r).ack = e.ack := rfl
@[simp] theorem Encoder.setRecord_ackWritten : (e.setRecord r).ackWritten = e.ackWritten := rfl
@[simp] theorem Encoder.setRecord_err : (e.setRecord r).err = none := rfl

@[simp] theorem Encoder.goto_step : (e.goto p).step = p := rfl
@[simp] theorem Encoder.goto_recWords : (e.goto p).recWords = e.recWords := rfl
@[simp] theorem Encoder.goto_recWritten : (e.goto p).recWritten = e.recWritten := rfl
@[simp] theorem Encoder.goto_ack : (e.goto p).ack = e.ack := rfl
@[simp] theorem Encoder.goto_ackWritten : (e.goto p).ackWritten = e.ackWritten := rfl
@[simp] theorem Encoder.goto_err : (e.goto p).err = e.err := rfl

@[simp] theorem Encoder.acknowledge_step : (e.acknowledge v).step = .eIdle := rfl
@[simp] theorem Encoder.acknowledge_recWords : (e.acknowledge v).recWords = e.recWords := rfl
@[simp] theorem Encoder.acknowledge_recWritten : (e.acknowledge v).recWritten = e.recWritten := rfl
@[simp] theorem Encoder.acknowledge_ack : (e.acknowledge v).ack = v := rfl
@[simp] theorem Encoder.acknowledge_ackWritten : (e.acknowledge v).ackWritten = true := rfl
@[simp] theorem Encoder.acknowledge_err : (e.acknowledge v).err = e.err := rfl

end encoder

section state
variable (s : State) (d : Device) (r : Reply)

@[simp] theorem State.respond_params : (s.respond r).params = s.params := rfl
@[simp] theorem State.respond_dev : (s.respond r).dev = s.dev := rfl
@[simp] theorem State.respond_enc : (s.respond r).enc = s.enc := rfl
@[simp] theorem State.respond_path : (s.respond r).path = s.path := rfl
@[simp] theorem State.respond_script : (s.respond r).script = s.script := rfl
@[simp] theorem State.respond_reply : (s.respond r).reply = r := rfl
@[simp] theorem State.respond_reports : (s.respond r).reports = s.reports := rfl

@[simp] theorem State.wrote_params : (s.wrote d).params = s.params := rfl
@[simp] theorem State.wrote_dev : (s.wrote d).dev = d := rfl
@[simp] theorem State.wrote_enc : (s.wrote d).enc = s.enc := rfl
@[simp] theorem State.wrote_path : (s.wrote d).path = s.path := rfl
@[simp] theorem State.wrote_script : (s.wrote d).script = s.script := rfl
@[simp] theorem State.wrote_reply : (s.wrote d).reply = .ok := rfl
@[simp] theorem State.wrote_reports : (s.wrote d).reports = s.reports := rfl

@[simp] theorem State.report_params : (s.report r).params = s.params := rfl
@[simp] theorem State.report_dev : (s.report r).dev = s.dev := rfl
@[simp] theorem State.report_enc : (s.report r).enc = s.enc := rfl
@[simp] theorem State.report_path : (s.report r).path = s.path := rfl
@[simp] theorem State.report_script : (s.report r).script = s.script := rfl
@[simp] theorem State.report_reply : (s.report r).reply = .nothing := rfl
@[simp] theorem State.report_reports : (s.report r).reports = s.reports ++ [r] := rfl

end state

end Sys2Proof.Machine
end

