-- ==== Sys2Proof/Laws/Ops.lean ====
section
/-! SUPPORT. What each shared operation can do, said once: cells, the classification of an access, the device's dispatch,
routing, and the path. Later proofs cite these and do not unfold the operations. -/

namespace Sys2Proof.Machine

/-! ### Cells -/

@[simp] theorem Device.cell_setCell_self (d : Device) (i : Fin 5) (v : Word64) : (d.setCell i v).cell i = v := by
  simp [Device.cell, Device.setCell]

theorem Device.cell_setCell (d : Device) (i j : Fin 5) (v : Word64) :
    (d.setCell i v).cell j = if i = j then v else d.cell j := by
  by_cases h : i = j
  · subst h; simp
  · have h' : i.val ≠ j.val := fun e => h (Fin.ext e)
    simp [Device.cell, Device.setCell, h, h']

@[simp] theorem Device.cell_storeWhole (d : Device) (i j : Fin 5) (v : Word64) :
    (d.storeWhole i v).cell j = if i = j then v else d.cell j := d.cell_setCell i j v

@[simp] theorem Device.cell_storeLow (d : Device) (i j : Fin 5) (v : Word32) :
    (d.storeLow i v).cell j = if i = j then replaceLow (d.cell i) v else d.cell j := d.cell_setCell i j _

@[simp] theorem Device.cell_trigger (d : Device) (j : Fin 5) (v : Word64) :
    (d.trigger v).cell j = if 4 = j then v else d.cell j := d.cell_setCell 4 j v

@[simp] theorem Device.cell_setStatus (d : Device) (j : Fin 5) (v : Word64) : (d.setStatus v).cell j = d.cell j := rfl

@[simp] theorem Device.cell_storeStatusLow (d : Device) (j : Fin 5) (v : Word32) :
    (d.storeStatusLow v).cell j = d.cell j := rfl

/-! ### Classification of an access -/

theorem window_insn {p : Params} {off : Nat} (h : off < 0x28) : window p off = .insn := by
  simp [window, Config.windowBytes, h]

theorem window_devStatus {p : Params} (h : p.wf = true) : window p p.devStatus = .status := by
  simp only [Params.wf, Bool.and_eq_true, decide_eq_true_eq] at h
  simp [window, Nat.not_lt.mpr h.1.1.2]

/-- Above the instruction window only the status offset selects a window (R53). -/
theorem window_above {p : Params} {off : Nat} (h : 0x28 ≤ off) :
    window p off = if off = p.devStatus then .status else .none := by
  have h' : ¬ off < Config.windowBytes := by simp only [Config.windowBytes]; omega
  rw [window, if_neg h']

theorem window_status_iff {p : Params} {off : Nat} :
    window p off = .status ↔ 0x28 ≤ off ∧ off = p.devStatus := by
  by_cases h : 0x28 ≤ off
  · rw [window_above h]
    by_cases hs : off = p.devStatus
    · rw [if_pos hs]; exact ⟨fun _ => ⟨h, hs⟩, fun _ => rfl⟩
    · rw [if_neg hs]; exact ⟨nofun, fun c => absurd c.2 hs⟩
  · simp [window_insn (p := p) (Nat.lt_of_not_le h), h]

theorem window_none_iff {p : Params} {off : Nat} :
    window p off = .none ↔ 0x28 ≤ off ∧ off ≠ p.devStatus := by
  by_cases h : 0x28 ≤ off
  · rw [window_above h]
    by_cases hs : off = p.devStatus
    · rw [if_pos hs]; exact ⟨nofun, fun c => absurd hs c.2⟩
    · rw [if_neg hs]; exact ⟨fun _ => ⟨h, hs⟩, fun _ => rfl⟩
  · simp [window_insn (p := p) (Nat.lt_of_not_le h), h]

theorem legalWidth_iff {n : Nat} : legalWidth n = true ↔ n = 4 ∨ n = 8 := by simp [legalWidth]

/-- When an access succeeds (R55, R56): width 4 or 8, at the start of a word of the instruction window or at STATUS_OFFSET. -/
theorem accessError_none_iff {p : Params} {off n : Nat} :
    accessError p off n = none ↔
      (n = 4 ∨ n = 8) ∧ ((off < 0x28 ∧ off % 8 = 0) ∨ (0x28 ≤ off ∧ off = p.devStatus)) := by
  rw [← legalWidth_iff]
  by_cases h : off < 0x28
  · have h' : ¬ 0x28 ≤ off := by omega
    cases hl : legalWidth n <;> simp [accessError, window_insn h, hl, h, h']
  · by_cases hs : off = p.devStatus
    · have hw : window p off = .status := window_status_iff.mpr ⟨by omega, hs⟩
      have h' : 0x28 ≤ off := by omega
      cases hl : legalWidth n <;> simp [accessError, hw, hl, h, h']
      all_goals exact hs
    · have hw : window p off = .none := window_none_iff.mpr ⟨by omega, hs⟩
      simp [accessError, hw, h, hs]

/-- The error an access raises has the name of R181 or R182. -/
theorem accessError_name {p : Params} {off n : Nat} {e : AccessError} (h : accessError p off n = some e) :
    e = accessErrorName p off := by
  unfold accessError at h
  unfold accessErrorName
  cases hw : window p off <;> cases hl : legalWidth n <;> simp_all

/-! ### The device's dispatch -/

theorem devWrite_error {p : Params} {off n : Nat} {bytes : List Byte} {d : Device} {e : AccessError} :
    devWrite p off n bytes d = .error e ↔ accessError p off n = some e := by
  unfold devWrite
  cases h : accessError p off n with
  | some e' => simp
  | none => simp only [reduceCtorEq, iff_false]; split <;> (try split) <;> (try split) <;> simp

theorem devRead_error {p : Params} {off n : Nat} {d : Device} {e : AccessError} :
    devRead p off n d = .error e ↔ accessError p off n = some e := by
  unfold devRead
  cases h : accessError p off n with
  | some e' => simp
  | none => simp only [reduceCtorEq, iff_false]; split <;> simp

/-- What a successful write does to the device: one of five updates. -/
theorem devWrite_ok {p : Params} {off n : Nat} {bytes : List Byte} {d d' : Device}
    (h : devWrite p off n bytes d = .ok d') :
    (∃ v, d' = d.setStatus v) ∨ (∃ v, d' = d.storeStatusLow v) ∨ (∃ v, d' = d.trigger v) ∨
      (∃ i v, d' = d.storeWhole i v) ∨ ∃ i v, d' = d.storeLow i v := by
  unfold devWrite at h
  split at h
  · simp at h
  · split at h
    · cases h
      by_cases hn : n = 8
      · exact .inl ⟨_, if_pos hn⟩
      · exact .inr (.inl ⟨_, if_neg hn⟩)
    · split at h
      · split at h <;> cases h
        · exact .inr (.inr (.inl ⟨_, rfl⟩))
        · exact .inr (.inr (.inr (.inl ⟨_, _, rfl⟩)))
      · cases h
        exact .inr (.inr (.inr (.inr ⟨_, _, rfl⟩)))

/-- An 8-byte write at a word of the instruction window other than the trigger word (R142). -/
theorem devWrite_word (p : Params) (i : Fin 4) (bytes : List Byte) (d : Device) :
    devWrite p (8 * i.val) 8 bytes d = .ok (d.storeWhole i.castSucc (payload64 bytes)) := by
  have he : accessError p (8 * i.val) 8 = none := accessError_none_iff.mpr (by omega)
  have hw : window p (8 * i.val) = .insn := window_insn (by omega)
  have ht : 8 * i.val ≠ Config.triggerOffset := by simp only [Config.triggerOffset]; omega
  have hc : cellOf (8 * i.val) = i.castSucc := by
    apply Fin.ext
    simp only [cellOf, Fin.val_castSucc]
    omega
  simp [devWrite, he, hw, ht, hc]

/-- An 8-byte write at the trigger word (R143). -/
theorem devWrite_trigger (p : Params) (bytes : List Byte) (d : Device) :
    devWrite p Config.triggerOffset 8 bytes d = .ok (d.trigger (payload64 bytes)) := by
  have he : accessError p Config.triggerOffset 8 = none :=
    accessError_none_iff.mpr ⟨.inr rfl, .inl (by decide)⟩
  have hw : window p Config.triggerOffset = .insn := window_insn (by decide)
  simp [devWrite, he, hw]

/-- A 4-byte write at any word of the instruction window (R144). -/
theorem devWrite_narrow (p : Params) (i : Fin 5) (bytes : List Byte) (d : Device) :
    devWrite p (8 * i.val) 4 bytes d = .ok (d.storeLow i (payload32 bytes)) := by
  have he : accessError p (8 * i.val) 4 = none := accessError_none_iff.mpr (by omega)
  have hw : window p (8 * i.val) = .insn := window_insn (by omega)
  have hc : cellOf (8 * i.val) = i := by
    apply Fin.ext
    simp only [cellOf]
    omega
  simp [devWrite, he, hw, hc]

/-- An 8-byte read of any word of the instruction window (R161). -/
theorem devRead_word (p : Params) (i : Fin 5) (d : Device) :
    devRead p (8 * i.val) 8 d = .ok (d.readWhole i) := by
  have he : accessError p (8 * i.val) 8 = none := accessError_none_iff.mpr (by omega)
  have hw : window p (8 * i.val) = .insn := window_insn (by omega)
  have hc : cellOf (8 * i.val) = i := by
    apply Fin.ext
    simp only [cellOf]
    omega
  simp [devRead, he, hw, hc]

/-- A 4-byte read of any word of the instruction window (R162). -/
theorem devRead_narrow (p : Params) (i : Fin 5) (d : Device) :
    devRead p (8 * i.val) 4 d = .ok (d.readLow i) := by
  have he : accessError p (8 * i.val) 4 = none := accessError_none_iff.mpr (by omega)
  have hw : window p (8 * i.val) = .insn := window_insn (by omega)
  have hc : cellOf (8 * i.val) = i := by
    apply Fin.ext
    simp only [cellOf]
    omega
  simp [devRead, he, hw, hc]

/-- An 8-byte read of the status window (R170). -/
theorem devRead_status {p : Params} (h : p.wf = true) (d : Device) :
    devRead p p.devStatus 8 d = .ok d.readStatus := by
  have hw := window_devStatus h
  have he : accessError p p.devStatus 8 = none :=
    accessError_none_iff.mpr ⟨.inr rfl, .inr (window_status_iff.mp hw)⟩
  simp [devRead, he, hw]

/-- A predicate on the device that the five updates of a write keep is kept by every write. -/
theorem devWrite_keeps (P : Device → Prop)
    (hs : ∀ d v, P d → P (d.setStatus v)) (hl : ∀ d v, P d → P (d.storeStatusLow v))
    (ht : ∀ d v, P d → P (d.trigger v)) (hw : ∀ d i v, P d → P (d.storeWhole i v))
    (hn : ∀ d i v, P d → P (d.storeLow i v))
    {p : Params} {off n : Nat} {bytes : List Byte} {d d' : Device}
    (h : devWrite p off n bytes d = .ok d') (hp : P d) : P d' := by
  obtain ⟨v, rfl⟩ | ⟨v, rfl⟩ | ⟨v, rfl⟩ | ⟨i, v, rfl⟩ | ⟨i, v, rfl⟩ := devWrite_ok h
  · exact hs d v hp
  · exact hl d v hp
  · exact ht d v hp
  · exact hw d i v hp
  · exact hn d i v hp

/-! ### Routing -/

theorem route_some_iff {p : Params} {addr off : Nat} :
    route p addr = some off ↔ p.devBase ≤ addr ∧ addr < 2 ^ p.addrBits ∧ addr - p.devBase = off := by
  unfold route
  split <;> simp_all

/-- Under the set-up of R212 the serializer's addresses reach the offsets meant (R51, R116). -/
theorem route_encBase {p : Params} (hw : p.wf = true) (hs : p.shared = true) {x : Nat} (hx : x ≤ p.devStatus) :
    route p (p.encBase + x) = some x := by
  simp only [Params.wf, Bool.and_eq_true, decide_eq_true_eq] at hw
  simp only [Params.shared, Bool.and_eq_true, beq_iff_eq] at hs
  rw [route_some_iff]
  omega

/-- What a write presented at an offset does: the device after the write, or a failed access that changes nothing; the rest of
the state but the reply is untouched (R140, R188). -/
theorem State.storeAt_eq (s : State) (off : Nat) (bytes : List Byte) :
    ∃ d r, s.storeAt off bytes = { s with dev := d, reply := r } ∧
      (d = s.dev ∨ devWrite s.params off bytes.length bytes s.dev = .ok d) := by
  unfold State.storeAt
  split
  · exact ⟨_, .ok, rfl, .inr ‹_›⟩
  · exact ⟨s.dev, _, rfl, .inl rfl⟩

/-- A presented store is the write at its routed offset, or is refused. -/
theorem presentStore_next {addr : Nat} {bytes : List Byte} {s t : State} (h : presentStore addr bytes s = .next t) :
    ∃ off, route s.params addr = some off ∧ t = s.storeAt off bytes := by
  unfold presentStore at h
  split at h
  · cases h
  · cases h
    exact ⟨_, ‹_›, rfl⟩

/-- What a store in flight does when it arrives, whatever its address and whatever the device answers (R51, R188). -/
theorem arriveStore_eq (addr : Nat) (bytes : List Byte) (s : State) :
    arriveStore addr bytes s =
      { s with
        dev := (arrival s.params (s.dev, s.reports) (.store addr bytes)).1
        reports := (arrival s.params (s.dev, s.reports) (.store addr bytes)).2
        reply := .nothing } := by
  cases ho : route s.params addr with
  | none => simp only [arriveStore, arrival, ho, State.report]
  | some off =>
    cases hd : devWrite s.params off bytes.length bytes s.dev <;>
      simp only [arriveStore, State.storeAt, arrival, ho, hd, State.wrote, State.respond, State.report]

/-! ### The path -/

@[simp] theorem heldByBarrier_nil : heldByBarrier [] = [] := rfl

@[simp] theorem behindBarrier_nil : behindBarrier [] = [] := rfl

/-- Held and not held, the items of a path are all there, in order. -/
theorem held_append_behind (path : List PathItem) : heldByBarrier path ++ behindBarrier path = path := by
  rw [heldByBarrier, behindBarrier, ← List.reverse_append, List.takeWhile_append_dropWhile, List.reverse_reverse]

/-- The stores of a path arrive, and the device and the reports are the fold of their arrivals. -/
theorem performStores_eq (items : List PathItem) (s : State) :
    ∃ r, performStores items s =
      { s with
        dev := (items.foldl (arrival s.params) (s.dev, s.reports)).1
        reports := (items.foldl (arrival s.params) (s.dev, s.reports)).2
        reply := r } := by
  induction items generalizing s with
  | nil => exact ⟨s.reply, rfl⟩
  | cons x rest ih =>
    cases x with
    | barrier => exact ih s
    | store addr bytes =>
      simp only [performStores, arriveStore_eq, List.foldl_cons]
      exact ih _

/-- With nothing in flight there is nothing to settle. -/
@[simp] theorem settle_nil {s : State} (h : s.path = []) : settle s = s := by
  obtain ⟨p, d, e, q, c, r, l⟩ := s
  subst h
  rfl

@[simp] theorem fullBarrier_nil {s : State} (h : s.path = []) : fullBarrier s = .next (s.respond .nothing) := by
  obtain ⟨p, d, e, q, c, r, l⟩ := s
  subst h
  rfl

@[simp] theorem compilerBarrier_nil {s : State} (h : s.path = []) :
    compilerBarrier s = .next (s.respond .nothing) := by
  obtain ⟨p, d, e, q, c, r, l⟩ := s
  subst h
  rfl

end Sys2Proof.Machine
end

