-- ==== Sys2Proof/Laws/Decode.lean ====
section
/-! SUPPORT. What the decoder answers, said once: the rows of R95 as cases, each with the condition on offset and width that
selects it. -/

namespace Sys2Proof

open Machine

theorem wordIndex_word (i : Fin 4) : wordIndex (8 * i.val) = some i := by
  revert i
  decide

theorem wordIndex_some {off : Nat} {i : Fin 4} (h : wordIndex off = some i) : off = 8 * i.val := by
  unfold wordIndex at h
  split_ifs at h <;> cases h <;> simp_all

theorem wordIndex_none {off : Nat} (h : wordIndex off = none) (h' : off ≠ 0x20) :
    ¬(off < 0x28 ∧ off % 8 = 0) := by
  unfold wordIndex at h
  split_ifs at h
  omega

/-- An access that R55 and R56 do not admit raises an error. -/
theorem accessError_isSome {p : Params} {off n : Nat}
    (h : ¬((n = 4 ∨ n = 8) ∧ ((off < 0x28 ∧ off % 8 = 0) ∨ (0x28 ≤ off ∧ off = p.devStatus)))) :
    (accessError p off n).isSome = true := by
  rw [Option.isSome_iff_ne_none, Ne, accessError_none_iff]
  exact h

/-- The rows a write decodes to (R95): exactly one of seven, by width and offset. -/
theorem decodeWrite_cases (p : Params) (off n : Nat) (bytes : List Byte) (hb : bytes.length = n) :
    (n = 8 ∧ off = 0x20 ∧ decodeWrite p off n bytes = .instr (.wr8Trig (payload64 bytes))) ∨
    (n = 4 ∧ off = 0x20 ∧ decodeWrite p off n bytes = .instr (.wr4Meta (payload32 bytes))) ∨
    (n = 8 ∧ window p off = .status ∧ decodeWrite p off n bytes = .instr (.wr8St (payload64 bytes))) ∨
    (n = 4 ∧ window p off = .status ∧ decodeWrite p off n bytes = .instr (.wr4St (payload32 bytes))) ∨
    (∃ i : Fin 4, n = 8 ∧ off = 8 * i.val ∧ decodeWrite p off n bytes = .instr (.wr8W i (payload64 bytes))) ∨
    (∃ i : Fin 4, n = 4 ∧ off = 8 * i.val ∧ decodeWrite p off n bytes = .instr (.wr4W i (payload32 bytes))) ∨
    ((accessError p off n).isSome = true ∧ decodeWrite p off n bytes = .instr (.badWr off n bytes)) := by
  have hlen : ¬(bytes.length ≠ n) := not_not.mpr hb
  by_cases h1 : n = 8 ∧ off = Config.triggerOffset
  · exact .inl ⟨h1.1, h1.2, by rw [decodeWrite, if_neg hlen, if_pos h1]⟩
  by_cases h2 : n = 4 ∧ off = Config.triggerOffset
  · exact .inr (.inl ⟨h2.1, h2.2, by rw [decodeWrite, if_neg hlen, if_neg h1, if_pos h2]⟩)
  by_cases h3 : n = 8 ∧ window p off = .status
  · exact .inr (.inr (.inl ⟨h3.1, h3.2, by rw [decodeWrite, if_neg hlen, if_neg h1, if_neg h2, if_pos h3]⟩))
  by_cases h4 : n = 4 ∧ window p off = .status
  · exact .inr (.inr (.inr (.inl ⟨h4.1, h4.2,
      by rw [decodeWrite, if_neg hlen, if_neg h1, if_neg h2, if_neg h3, if_pos h4]⟩)))
  have h3' := h3
  have h4' := h4
  rw [window_status_iff] at h3' h4'
  have hd : decodeWrite p off n bytes = match wordIndex off with
      | some i => if n = 8 then .instr (.wr8W i (payload64 bytes)) else if n = 4 then .instr (.wr4W i (payload32 bytes))
        else .instr (.badWr off n bytes)
      | none => .instr (.badWr off n bytes) :=
    (if_neg hlen).trans ((if_neg h1).trans ((if_neg h2).trans ((if_neg h3).trans (if_neg h4))))
  simp only [Config.triggerOffset] at h1 h2
  cases hw : wordIndex off with
  | none =>
    have hn := wordIndex_none hw
    refine .inr (.inr (.inr (.inr (.inr (.inr ⟨accessError_isSome ?_, by rw [hd, hw]⟩)))))
    omega
  | some i =>
    have ho := wordIndex_some hw
    by_cases h8 : n = 8
    · exact .inr (.inr (.inr (.inr (.inl ⟨i, h8, ho, by simp only [hd, hw]; rw [if_pos h8]⟩))))
    by_cases h4n : n = 4
    · exact .inr (.inr (.inr (.inr (.inr (.inl ⟨i, h4n, ho, by
        simp only [hd, hw]; rw [if_neg h8, if_pos h4n]⟩)))))
    · refine .inr (.inr (.inr (.inr (.inr (.inr ⟨accessError_isSome ?_, by
        simp only [hd, hw]; rw [if_neg h8, if_neg h4n]⟩)))))
      omega

/-- The rows a read decodes to (R95): exactly one of seven, by width and offset. -/
theorem decodeRead_cases (p : Params) (off n : Nat) :
    (n = 8 ∧ off = 0x20 ∧ decodeRead p off n = .instr .rd8Meta) ∨
    (n = 4 ∧ off = 0x20 ∧ decodeRead p off n = .instr .rd4Meta) ∨
    (n = 8 ∧ window p off = .status ∧ decodeRead p off n = .instr .rd8St) ∨
    (n = 4 ∧ window p off = .status ∧ decodeRead p off n = .instr .rd4St) ∨
    (∃ i : Fin 4, n = 8 ∧ off = 8 * i.val ∧ decodeRead p off n = .instr (.rd8W i)) ∨
    (∃ i : Fin 4, n = 4 ∧ off = 8 * i.val ∧ decodeRead p off n = .instr (.rd4W i)) ∨
    ((accessError p off n).isSome = true ∧ decodeRead p off n = .instr (.badRd off n)) := by
  by_cases h1 : n = 8 ∧ off = Config.triggerOffset
  · exact .inl ⟨h1.1, h1.2, by rw [decodeRead, if_pos h1]⟩
  by_cases h2 : n = 4 ∧ off = Config.triggerOffset
  · exact .inr (.inl ⟨h2.1, h2.2, by rw [decodeRead, if_neg h1, if_pos h2]⟩)
  by_cases h3 : n = 8 ∧ window p off = .status
  · exact .inr (.inr (.inl ⟨h3.1, h3.2, by rw [decodeRead, if_neg h1, if_neg h2, if_pos h3]⟩))
  by_cases h4 : n = 4 ∧ window p off = .status
  · exact .inr (.inr (.inr (.inl ⟨h4.1, h4.2, by
      rw [decodeRead, if_neg h1, if_neg h2, if_neg h3, if_pos h4]⟩)))
  have h3' := h3
  have h4' := h4
  rw [window_status_iff] at h3' h4'
  have hd : decodeRead p off n = match wordIndex off with
      | some i => if n = 8 then .instr (.rd8W i) else if n = 4 then .instr (.rd4W i) else .instr (.badRd off n)
      | none => .instr (.badRd off n) :=
    (if_neg h1).trans ((if_neg h2).trans ((if_neg h3).trans (if_neg h4)))
  simp only [Config.triggerOffset] at h1 h2
  cases hw : wordIndex off with
  | none =>
    have hn := wordIndex_none hw
    refine .inr (.inr (.inr (.inr (.inr (.inr ⟨accessError_isSome ?_, by rw [hd, hw]⟩)))))
    omega
  | some i =>
    have ho := wordIndex_some hw
    by_cases h8 : n = 8
    · exact .inr (.inr (.inr (.inr (.inl ⟨i, h8, ho, by simp only [hd, hw]; rw [if_pos h8]⟩))))
    by_cases h4n : n = 4
    · exact .inr (.inr (.inr (.inr (.inr (.inl ⟨i, h4n, ho, by
        simp only [hd, hw]; rw [if_neg h8, if_pos h4n]⟩)))))
    · refine .inr (.inr (.inr (.inr (.inr (.inr ⟨accessError_isSome ?_, by
        simp only [hd, hw]; rw [if_neg h8, if_neg h4n]⟩)))))
      omega

/-- A write whose payload has its width is decoded by R95's rows. -/
theorem decode_write (p : Params) (off n : Nat) (bytes : List Byte) :
    decode p (.access ⟨.write, off, n, bytes⟩) = decodeWrite p off n bytes := rfl

/-- A read is decoded by R95's rows. -/
theorem decode_read (p : Params) (off n : Nat) : decode p (.access ⟨.read, off, n, []⟩) = decodeRead p off n := rfl

/-- The ten inputs of a command give the command back (R112). -/
theorem cmdOfInputs_cmdInputs (c : Cmd) : cmdOfInputs (cmdInputs c) = some c := rfl

end Sys2Proof
end

