-- ==== Sys2Proof/Laws/Encoder.lean ====
section
/-! SUPPORT. The encoder's checks, what its commands answer, and what one position of the serializer does under the set-up
of R212. -/

namespace Sys2Proof.Machine

/-! ### Checks -/

theorem firstError_none_iff {l : List (Option EncError)} : firstError l = none ↔ ∀ x ∈ l, x = none := by
  induction l with
  | nil => simp [firstError]
  | cons x rest ih => cases x <;> simp [firstError, ih]

/-- The error reported is one of the checks'. -/
theorem firstError_mem {l : List (Option EncError)} {e : EncError} (h : firstError l = some e) : some e ∈ l := by
  induction l with
  | nil => simp [firstError] at h
  | cons x rest ih =>
    cases x with
    | none => exact List.mem_cons_of_mem _ (ih h)
    | some e' => cases h; exact List.mem_cons_self

theorem overflow_none_iff {bits v : Nat} {f : FieldName} : overflow bits f v = none ↔ v < 2 ^ bits := by
  unfold overflow
  split <;> simp <;> omega

theorem overflow_some_iff {bits v : Nat} {f : FieldName} {e : EncError} :
    overflow bits f v = some e ↔ 2 ^ bits ≤ v ∧ e = .overflowField f v := by
  unfold overflow
  split <;> simp_all [eq_comm]

/-- `block` is the quotient by 64, rounded up (R110). -/
theorem block_eq (d : Nat) : block d = (d + 63) / 64 := rfl

/-- `block(d) > 255` is the same as `d > 16320` (R113). -/
theorem block_lt_iff {d : Nat} : block d < 256 ↔ d ≤ 16320 := by rw [block_eq]; omega

/-! ### Commands -/

theorem whenIdle_idle {s : State} (h : s.enc.step = .eIdle) (x : StepOutcome) : whenIdle s x = x := by
  simp [whenIdle, h]

theorem whenIdle_busy {s : State} (h : s.enc.step ≠ .eIdle) (x : StepOutcome) :
    whenIdle s x = .next (s.respond .turnedAway) := by
  simp [whenIdle, h]

/-- A pure function with a precondition always answers a next state: it touches `err` at most. -/
theorem checkedValue_next (check : Option EncError) (value : Reply) (s : State) :
    ∃ x r, checkedValue check value s = .next { s with enc := { s.enc with err := x }, reply := r } := by
  cases check with
  | none => exact ⟨s.enc.err, value, rfl⟩
  | some e => exact ⟨some (errName e), .refused e, rfl⟩

/-- VALIDATE always answers a next state: it touches `err` at most. -/
theorem execValidate_next (c : Cmd) (s : State) :
    ∃ x r, execValidate c s = .next { s with enc := { s.enc with err := x }, reply := r } := by
  unfold execValidate whenIdle validateAccepted
  split
  · split
    · exact ⟨_, _, rfl⟩
    · exact ⟨none, .done, rfl⟩
  · exact ⟨s.enc.err, .turnedAway, rfl⟩

/-! ### The serializer under the set-up of R212 -/

/-- A store of word 0 to 3 (R116, R142). -/
theorem storeWord_operand {s : State} (hr : s.Ready) (hw : s.enc.recWritten = true) (i : Fin 4) (next : EncStep) :
    storeWord i.castSucc next s =
      .next { s.wrote (s.dev.storeWhole i.castSucc s.enc.recWords[i.castSucc]) with enc := s.enc.goto next } := by
  have hd : 0x28 ≤ s.params.devStatus := (window_status_iff.mp (window_devStatus hr.1)).1
  have hroute := route_encBase hr.1 hr.2 (x := 8 * i.val) (by omega)
  simp only [storeWord, hw, if_true, Fin.val_castSucc, hroute, devWrite_word, payload64_wordBytes]

/-- The store of word 4 (R116, R143). -/
theorem storeWord_trigger {s : State} (hr : s.Ready) (hw : s.enc.recWritten = true) (next : EncStep) :
    storeWord 4 next s =
      .next { s.wrote (s.dev.trigger s.enc.recWords[(4 : Fin 5)]) with enc := s.enc.goto next } := by
  have hd : 0x28 ≤ s.params.devStatus := (window_status_iff.mp (window_devStatus hr.1)).1
  have hroute := route_encBase hr.1 hr.2 (x := 8 * (4 : Fin 5).val) (by simp; omega)
  have hd' := devWrite_trigger s.params (wordBytes s.enc.recWords[(4 : Fin 5)]) s.dev
  simp only [storeWord, hw, if_true, hroute]
  have h4 : 8 * (4 : Fin 5).val = Config.triggerOffset := rfl
  rw [h4, hd', payload64_wordBytes]

/-- The read of a `REC` that no ENCODE has written is a fault (R33, U11). -/
theorem storeWord_unwritten {s : State} (hw : s.enc.recWritten = false) (i : Fin 5) (next : EncStep) :
    storeWord i next s = .fault .recNotWritten := by
  simp [storeWord, hw]

/-- The acknowledgement is the Status Register, whatever it holds (R116, R118). -/
theorem readAcknowledge_ready {s : State} (hr : s.Ready) :
    readAcknowledge s =
      .next { s with enc := s.enc.acknowledge s.dev.status, reply := .ack s.dev.status } := by
  have hs := hr.2
  simp only [Params.shared, Bool.and_eq_true, beq_iff_eq] at hs
  have hroute := route_encBase hr.1 hr.2 (x := s.params.devStatus) (Nat.le_refl _)
  simp only [readAcknowledge, hs.2, hroute, devRead_status hr.1, Device.readStatus, payload64_wordBytes]

/-- A position that stores word 0 to 3, with nothing in flight (R116). -/
theorem sendWordBarrier_operand {s : State} (hr : s.Ready) (hw : s.enc.recWritten = true) (hp : s.path = [])
    (i : Fin 4) (next : EncStep) :
    sendWordBarrier i.castSucc next s =
      .next { s with
        dev := s.dev.storeWhole i.castSucc s.enc.recWords[i.castSucc]
        enc := s.enc.goto next
        reply := .nothing } := by
  rw [sendWordBarrier, sendWord, settle_nil hp]
  simp only [storeWord_operand hr hw]
  refine (compilerBarrier_nil ?_).trans rfl
  exact hp

/-- The position that stores word 4, with nothing in flight (R116). -/
theorem sendWord_trigger {s : State} (hr : s.Ready) (hw : s.enc.recWritten = true) (hp : s.path = [])
    (next : EncStep) :
    sendWord 4 next s =
      .next { s with
        dev := s.dev.trigger s.enc.recWords[(4 : Fin 5)]
        enc := s.enc.goto next
        reply := .ok } := by
  rw [sendWord, settle_nil hp]
  simp only [storeWord_trigger hr hw]
  rfl

end Sys2Proof.Machine
end

