-- ==== Sys2Proof/Laws/PerInstr.lean ====
section
/-! SUPPORT. One lemma per constructor of Instr: the line a well-formed instruction stands for is well formed, that is, its
payload has exactly the width's bytes (R96, R140). -/

namespace Sys2Proof.Laws.LineWellFormed

open Machine

/-- The encoded line of a well-formed instruction is well formed, under any parameters. -/
def Statement (i : Instr) : Prop := ∀ p : Params, i.wf p = true → (encode p i).wf = true

theorem writeLine8_wf (off : Nat) (v : Word64) : (writeLine8 off v).wf = true := by
  simp [writeLine8, Line.wf, wordBytes_length]

theorem writeLine4_wf (off : Nat) (v : Word32) : (writeLine4 off v).wf = true := by
  simp [writeLine4, Line.wf, halfBytes_length]

theorem readLine_wf (off n : Nat) : (readLine off n).wf = true := rfl

theorem wordLine_wf (idx : Fin 5) (w : Word64) : (wordLine idx w).wf = true := by
  simp [wordLine, Line.wf, wordBytes_length]

theorem wr8W (i : Fin 4) (v : Word64) : Statement (.wr8W i v) := fun _ _ => writeLine8_wf _ v
theorem wr8Trig (v : Word64) : Statement (.wr8Trig v) := fun _ _ => writeLine8_wf _ v
theorem wr4W (i : Fin 4) (v : Word32) : Statement (.wr4W i v) := fun _ _ => writeLine4_wf _ v
theorem wr4Meta (v : Word32) : Statement (.wr4Meta v) := fun _ _ => writeLine4_wf _ v
theorem rd8W (i : Fin 4) : Statement (.rd8W i) := fun _ _ => readLine_wf _ _
theorem rd8Meta : Statement .rd8Meta := fun _ _ => readLine_wf _ _
theorem rd4W (i : Fin 4) : Statement (.rd4W i) := fun _ _ => readLine_wf _ _
theorem rd4Meta : Statement .rd4Meta := fun _ _ => readLine_wf _ _
theorem rd8St : Statement .rd8St := fun _ _ => readLine_wf _ _
theorem rd4St : Statement .rd4St := fun _ _ => readLine_wf _ _
theorem wr8St (v : Word64) : Statement (.wr8St v) := fun _ _ => writeLine8_wf _ v
theorem wr4St (v : Word32) : Statement (.wr4St v) := fun _ _ => writeLine4_wf _ v

theorem badWr (off n : Nat) (bytes : List Byte) : Statement (.badWr off n bytes) := by
  intro p h
  simp only [Instr.wf, Bool.and_eq_true] at h
  exact h.2

theorem badRd (off n : Nat) : Statement (.badRd off n) := fun _ _ => readLine_wf _ _

theorem gemm (k n m : BitVec 8) (rsv tB tA : BitVec 1) (pad : Word32) : Statement (.gemm k n m rsv tB tA pad) :=
  fun _ _ => wordLine_wf _ _

theorem record (k n m : BitVec 8) (rsv tB tA : BitVec 1) (itype : BitVec 5) (pad : Word32) :
    Statement (.record k n m rsv tB tA itype pad) := fun _ _ => wordLine_wf _ _

theorem opdDin (sm sM : BitVec 20) (ba : BitVec 24) : Statement (.opdDin sm sM ba) := fun _ _ => wordLine_wf _ _
theorem opdB (sm sM : BitVec 20) (ba : BitVec 24) : Statement (.opdB sm sM ba) := fun _ _ => wordLine_wf _ _
theorem opdA (sm sM : BitVec 20) (ba : BitVec 24) : Statement (.opdA sm sM ba) := fun _ _ => wordLine_wf _ _
theorem opdDout (sm sM : BitVec 20) (ba : BitVec 24) : Statement (.opdDout sm sM ba) := fun _ _ => wordLine_wf _ _
theorem blocks (d : Nat) : Statement (.blocks d) := fun _ _ => rfl
theorem strides (nBlock kBlock : Nat) : Statement (.strides nBlock kBlock) := fun _ _ => rfl
theorem validate (c : Cmd) : Statement (.validate c) := fun _ _ => rfl
theorem packOpd (sm sM ba : Nat) : Statement (.packOpd sm sM ba) := fun _ _ => rfl
theorem packMeta (k n m tB tA itype : Nat) : Statement (.packMeta k n m tB tA itype) := fun _ _ => rfl
theorem scale (r : Role) (addr : Nat) : Statement (.scale r addr) := fun _ _ => rfl
theorem encode (c : Cmd) : Statement (.encode c) := fun _ _ => rfl
theorem transmit : Statement .transmit := fun _ _ => rfl
theorem submit (c : Cmd) : Statement (.submit c) := fun _ _ => rfl
theorem decode : Statement .decode := fun _ _ => rfl
theorem setReceived : Statement .setReceived := fun _ _ => rfl
theorem reset : Statement .reset := fun _ _ => rfl

end Sys2Proof.Laws.LineWellFormed
end

