-- ==== Sys2Proof/Laws/Steps.lean ====
section
/-! SUPPORT. What a composed operation can do, said once: everything the path, the serializer and the events do to the device
they do by device writes, and they leave the parameters and the script alone. -/

namespace Sys2Proof.Machine

/-- From `s` to `t` the parameters and the script stay, and the device changes by device writes only. -/
structure OnlyWrites (s t : State) : Prop where
  params : t.params = s.params
  script : t.script = s.script
  dev : ∀ P : Device → Prop,
    (∀ d d' p off n bytes, devWrite p off n bytes d = .ok d' → P d → P d') → P s.dev → P t.dev

theorem OnlyWrites.refl (s : State) : OnlyWrites s s := ⟨rfl, rfl, fun _ _ hp => hp⟩

theorem OnlyWrites.trans {s t u : State} (h : OnlyWrites s t) (h' : OnlyWrites t u) : OnlyWrites s u :=
  ⟨h'.params.trans h.params, h'.script.trans h.script, fun P hk hp => h'.dev P hk (h.dev P hk hp)⟩

/-- A state with the same parameters, script and device. -/
theorem OnlyWrites.of_eq {s t : State} (hp : t.params = s.params) (hs : t.script = s.script) (hd : t.dev = s.dev) :
    OnlyWrites s t := ⟨hp, hs, fun _ _ h => hd ▸ h⟩

theorem State.storeAt_onlyWrites (s : State) (off : Nat) (bytes : List Byte) :
    OnlyWrites s (s.storeAt off bytes) ∧ (s.storeAt off bytes).enc = s.enc := by
  obtain ⟨d, r, h, hd⟩ := s.storeAt_eq off bytes
  rw [h]
  refine ⟨⟨rfl, rfl, fun P hk hP => ?_⟩, rfl⟩
  obtain rfl | hd := hd
  · exact hP
  · exact hk _ _ _ _ _ _ hd hP

theorem presentStore_onlyWrites {addr : Nat} {bytes : List Byte} {s t : State}
    (h : presentStore addr bytes s = .next t) : OnlyWrites s t ∧ t.enc = s.enc := by
  obtain ⟨off, _, rfl⟩ := presentStore_next h
  exact s.storeAt_onlyWrites off bytes

theorem arriveStore_onlyWrites (addr : Nat) (bytes : List Byte) (s : State) :
    OnlyWrites s (arriveStore addr bytes s) ∧ (arriveStore addr bytes s).enc = s.enc := by
  unfold arriveStore
  split
  · exact ⟨.of_eq rfl rfl rfl, rfl⟩
  · rename_i off _
    obtain ⟨h1, e1⟩ := s.storeAt_onlyWrites off bytes
    exact ⟨⟨h1.params, h1.script, h1.dev⟩, e1⟩

theorem performStores_onlyWrites (items : List PathItem) (s : State) :
    OnlyWrites s (performStores items s) ∧ (performStores items s).enc = s.enc := by
  induction items generalizing s with
  | nil => exact ⟨.refl s, rfl⟩
  | cons x rest ih =>
    cases x with
    | barrier => exact ih s
    | store addr bytes =>
      obtain ⟨h1, e1⟩ := arriveStore_onlyWrites addr bytes s
      obtain ⟨h2, e2⟩ := ih (arriveStore addr bytes s)
      exact ⟨h1.trans h2, e2.trans e1⟩

theorem settle_onlyWrites (s : State) : OnlyWrites s (settle s) ∧ (settle s).enc = s.enc := by
  obtain ⟨h, e⟩ := performStores_onlyWrites (heldByBarrier s.path) { s with path := behindBarrier s.path }
  exact ⟨⟨h.params, h.script, h.dev⟩, e⟩

theorem fullBarrier_onlyWrites {s t : State} (h : fullBarrier s = .next t) : OnlyWrites s t ∧ t.enc = s.enc := by
  cases h
  obtain ⟨h, e⟩ := performStores_onlyWrites s.path { s with path := [] }
  exact ⟨⟨h.params, h.script, h.dev⟩, e⟩

theorem compilerBarrier_onlyWrites {s t : State} (h : compilerBarrier s = .next t) :
    OnlyWrites s t ∧ t.enc = s.enc := by
  cases h
  exact ⟨.of_eq rfl rfl rfl, rfl⟩

theorem deliverStore_onlyWrites {j : Nat} {s t : State} (h : deliverStore j s = .next t) :
    OnlyWrites s t ∧ t.enc = s.enc := by
  unfold deliverStore at h
  split at h
  · rename_i addr bytes _
    cases h
    obtain ⟨h1, h2⟩ := arriveStore_onlyWrites addr bytes { s with path := withoutItem s.path j }
    exact ⟨⟨h1.params, h1.script, h1.dev⟩, h2⟩
  · cases h
    exact ⟨.of_eq rfl rfl rfl, rfl⟩

theorem presentLoad_onlyWrites {addr n : Nat} {s t : State} (h : presentLoad addr n s = .next t) :
    OnlyWrites s t ∧ t.enc = s.enc := by
  unfold presentLoad at h
  split at h
  · cases h
  · split at h <;> cases h <;> exact ⟨.of_eq rfl rfl rfl, rfl⟩

theorem producerStore_onlyWrites {addr : Nat} {bytes : List Byte} {s t : State}
    (h : producerStore addr bytes s = .next t) : OnlyWrites s t ∧ t.enc = s.enc := by
  obtain ⟨h1, e1⟩ := settle_onlyWrites s
  obtain ⟨h2, e2⟩ := presentStore_onlyWrites h
  exact ⟨h1.trans h2, e2.trans e1⟩

/-- A store of the serializer that completes has read a written `REC` (R33), writes the device and moves on. -/
theorem storeWord_onlyWrites {i : Fin 5} {next : EncStep} {s t : State} (h : storeWord i next s = .next t) :
    OnlyWrites s t ∧ t.enc = s.enc.goto next ∧ s.enc.recWritten = true := by
  unfold storeWord at h
  split at h
  · rename_i hw
    split at h
    · cases h
    · split at h
      · rename_i hd
        cases h
        exact ⟨⟨rfl, rfl, fun P hk hP => hk _ _ _ _ _ _ hd hP⟩, rfl, hw⟩
      · cases h
  · cases h

theorem sendWord_onlyWrites {i : Fin 5} {next : EncStep} {s t : State} (h : sendWord i next s = .next t) :
    OnlyWrites s t ∧ t.enc = s.enc.goto next ∧ s.enc.recWritten = true := by
  obtain ⟨h1, e1⟩ := settle_onlyWrites s
  obtain ⟨h2, e2, w2⟩ := storeWord_onlyWrites h
  rw [e1] at e2 w2
  exact ⟨h1.trans h2, e2, w2⟩

theorem sendWordBarrier_onlyWrites {i : Fin 5} {next : EncStep} {s t : State}
    (h : sendWordBarrier i next s = .next t) :
    OnlyWrites s t ∧ t.enc = s.enc.goto next ∧ s.enc.recWritten = true := by
  unfold sendWordBarrier at h
  cases hs : sendWord i next s with
  | next u =>
    rw [hs] at h
    obtain ⟨h1, e1, w1⟩ := sendWord_onlyWrites hs
    obtain ⟨h2, e2⟩ := compilerBarrier_onlyWrites h
    exact ⟨h1.trans h2, e2.trans e1, w1⟩
  | fault r => rw [hs] at h; cases h
  | refused r => rw [hs] at h; cases h

theorem readAcknowledge_onlyWrites {s t : State} (h : readAcknowledge s = .next t) :
    OnlyWrites s t ∧ ∃ v, t.enc = s.enc.acknowledge v := by
  unfold readAcknowledge at h
  split at h
  · cases h
  · split at h <;> cases h
    exact ⟨.of_eq rfl rfl rfl, _, rfl⟩

/-- What one position of the serializer can do: device writes, and of the encoder only `step`, and `ack` at the end (R30,
R116). It leaves `EIdle` only where it already had, and `Tx0` only with a written `REC`. -/
theorem serializerStep_next {s t : State} (h : serializerStep s = .next t) :
    OnlyWrites s t ∧ t.enc.recWords = s.enc.recWords ∧ t.enc.recWritten = s.enc.recWritten ∧
      t.enc.err = s.enc.err ∧ (s.enc.step = .eIdle → t.enc = s.enc) ∧
      (s.enc.step = .tx0 → s.enc.recWritten = true) := by
  unfold serializerStep at h
  cases hst : s.enc.step <;> rw [hst] at h <;> simp only at h
  case eIdle =>
    cases h
    exact ⟨.of_eq rfl rfl rfl, rfl, rfl, rfl, fun _ => rfl, nofun⟩
  case fence =>
    obtain ⟨h1, e1⟩ := fullBarrier_onlyWrites h
    refine ⟨⟨h1.params, h1.script, h1.dev⟩, ?_, ?_, ?_, nofun, nofun⟩ <;> rw [e1] <;> rfl
  case readStatus =>
    obtain ⟨h1, v, e1⟩ := readAcknowledge_onlyWrites h
    refine ⟨h1, ?_, ?_, ?_, nofun, nofun⟩ <;> rw [e1] <;> rfl
  case tx4 =>
    obtain ⟨h1, e1, _⟩ := sendWord_onlyWrites h
    refine ⟨h1, ?_, ?_, ?_, nofun, nofun⟩ <;> rw [e1] <;> rfl
  all_goals
    obtain ⟨h1, e1, w1⟩ := sendWordBarrier_onlyWrites h
    refine ⟨h1, ?_, ?_, ?_, nofun, fun _ => w1⟩ <;> rw [e1] <;> rfl

/-- What `k` positions can do. -/
theorem serializerRun_next {k : Nat} {s t : State} (h : serializerRun k s = .next t) :
    OnlyWrites s t ∧ t.enc.recWords = s.enc.recWords ∧ t.enc.recWritten = s.enc.recWritten ∧
      t.enc.err = s.enc.err := by
  induction k generalizing s with
  | zero => cases h; exact ⟨.refl _, rfl, rfl, rfl⟩
  | succ k ih =>
    unfold serializerRun at h
    cases hs : serializerStep s with
    | next u =>
      rw [hs] at h
      obtain ⟨h1, a1, b1, c1, _, _⟩ := serializerStep_next hs
      obtain ⟨h2, a2, b2, c2⟩ := ih h
      exact ⟨h1.trans h2, a2.trans a1, b2.trans b1, c2.trans c1⟩
    | fault r => rw [hs] at h; cases h
    | refused r => rw [hs] at h; cases h

/-- What TRANSMIT's own effect can do: `REC` was written and stays. -/
theorem transmitAccepted_next {s t : State} (h : transmitAccepted s = .next t) :
    OnlyWrites s t ∧ s.enc.recWritten = true ∧ t.enc.recWords = s.enc.recWords ∧ t.enc.recWritten = true ∧
      t.enc.err = s.enc.err := by
  have hw : s.enc.recWritten = true := by
    unfold transmitAccepted transmitPositions serializerRun at h
    cases hs : serializerStep (beginTransmit s) with
    | next u => exact (serializerStep_next hs).2.2.2.2.2 rfl
    | fault r => rw [hs] at h; cases h
    | refused r => rw [hs] at h; cases h
  obtain ⟨h1, a1, b1, c1⟩ := serializerRun_next h
  exact ⟨⟨h1.params, h1.script, h1.dev⟩, hw, a1, b1.trans hw, c1⟩

/-! ### Runs -/

theorem run_next {M : Host.Core} {k : Nat} {s t : M.State} (h : M.step s = .next t) :
    Host.Core.run M (k + 1) s = Host.Core.run M k t := by rw [Host.Core.run, h]

theorem run_fault {M : Host.Core} {k : Nat} {s : M.State} {r : M.Fault} (h : M.step s = .fault r) :
    Host.Core.run M (k + 1) s = .fault r := by rw [Host.Core.run, h]

theorem run_refused {M : Host.Core} {k : Nat} {s : M.State} {r : M.Refusal} (h : M.step s = .refused r) :
    Host.Core.run M (k + 1) s = .refused r := by rw [Host.Core.run, h]

end Sys2Proof.Machine
end

