-- ==== Sys2Proof/Laws/Values.lean ====
section
/-! SUPPORT. The numbers behind the words: what each packed or replaced word is as a natural number. -/

namespace Sys2Proof.Machine

theorem fromLE_wordBytes (w : Word64) : fromLE (wordBytes w) = w.toNat := by
  rw [wordBytes, fromLE_leBytes]
  have := w.isLt
  omega

theorem fromLE_halfBytes (w : Word32) : fromLE (halfBytes w) = w.toNat := by
  rw [halfBytes, fromLE_leBytes]
  have := w.isLt
  omega

theorem lowHalf_toNat (w : Word64) : (lowHalf w).toNat = w.toNat % 2 ^ 32 := by
  simp [lowHalf, BitVec.extractLsb'_toNat]

/-- A narrow write as arithmetic (R144, R173). -/
theorem replaceLow_toNat (w : Word64) (v : Word32) :
    (replaceLow w v).toNat = w.toNat / 2 ^ 32 * 2 ^ 32 + v.toNat := by
  have h := v.isLt
  have h2 := w.isLt
  simp only [replaceLow, BitVec.toNat_append, BitVec.extractLsb'_toNat]
  rw [← Nat.shiftLeft_add_eq_or_of_lt h]
  simp only [Nat.shiftLeft_eq, Nat.shiftRight_eq_div_pow]
  omega

/-- The Operand Descriptor as arithmetic (R82). -/
theorem opdWord_toNat (sm sM : BitVec 20) (ba : BitVec 24) :
    (opdWord sm sM ba).toNat = sm.toNat + sM.toNat * 2 ^ 20 + ba.toNat * 2 ^ 40 := by
  have h1 := sm.isLt
  have h2 := sM.isLt
  simp only [opdWord, BitVec.toNat_append]
  rw [← Nat.shiftLeft_add_eq_or_of_lt h1, ← Nat.shiftLeft_add_eq_or_of_lt h2]
  simp only [Nat.shiftLeft_eq]
  omega

/-- The Meta word as arithmetic (R83). -/
theorem metaWord_toNat (k n m : BitVec 8) (rsv tB tA : BitVec 1) (it : BitVec 5) (pad : Word32) :
    (metaWord k n m rsv tB tA it pad).toNat =
      k.toNat + n.toNat * 2 ^ 8 + m.toNat * 2 ^ 16 + rsv.toNat * 2 ^ 24 + tB.toNat * 2 ^ 25 + tA.toNat * 2 ^ 26 +
        it.toNat * 2 ^ 27 + pad.toNat * 2 ^ 32 := by
  simp only [metaWord, BitVec.toNat_append]
  rw [← Nat.shiftLeft_add_eq_or_of_lt k.isLt, ← Nat.shiftLeft_add_eq_or_of_lt n.isLt,
    ← Nat.shiftLeft_add_eq_or_of_lt m.isLt, ← Nat.shiftLeft_add_eq_or_of_lt rsv.isLt,
    ← Nat.shiftLeft_add_eq_or_of_lt tB.isLt, ← Nat.shiftLeft_add_eq_or_of_lt tA.isLt,
    ← Nat.shiftLeft_add_eq_or_of_lt it.isLt]
  simp only [Nat.shiftLeft_eq]
  omega

/-- Fields that do not overlap are added. -/
theorem or_shiftLeft_eq {x : Nat} (y : Nat) {k : Nat} (h : x < 2 ^ k) : x ||| y <<< k = x + y * 2 ^ k := by
  rw [Nat.or_comm, ← Nat.shiftLeft_add_eq_or_of_lt h, Nat.shiftLeft_eq]
  omega

/-- `pack_opd` of fields that fit (R85). -/
theorem packOpdValue_toNat {sm sM ba : Nat} (h1 : sm < 2 ^ 20) (h2 : sM < 2 ^ 20) (h3 : ba < 2 ^ 24) :
    (packOpdValue sm sM ba).toNat = sm + sM * 2 ^ 20 + ba * 2 ^ 40 := by
  simp only [packOpdValue, BitVec.toNat_ofNat]
  rw [or_shiftLeft_eq sM h1, or_shiftLeft_eq ba (show sm + sM * 2 ^ 20 < 2 ^ 40 by omega)]
  omega

/-- `pack_meta` of fields that fit (R86). -/
theorem packMetaValue_toNat {k n m tB tA it : Nat} (hk : k < 2 ^ 8) (hn : n < 2 ^ 8) (hm : m < 2 ^ 8) (hb : tB < 2)
    (ha : tA < 2) (hi : it < 2 ^ 5) :
    (packMetaValue k n m tB tA it).toNat = k + n * 2 ^ 8 + m * 2 ^ 16 + tB * 2 ^ 25 + tA * 2 ^ 26 + it * 2 ^ 27 := by
  simp only [packMetaValue, Config.reservedTx, BitVec.toNat_ofNat, Nat.zero_shiftLeft, Nat.or_zero]
  rw [or_shiftLeft_eq n hk, or_shiftLeft_eq m (show k + n * 2 ^ 8 < 2 ^ 16 by omega),
    or_shiftLeft_eq tB (show k + n * 2 ^ 8 + m * 2 ^ 16 < 2 ^ 25 by omega),
    or_shiftLeft_eq tA (show k + n * 2 ^ 8 + m * 2 ^ 16 + tB * 2 ^ 25 < 2 ^ 26 by omega),
    or_shiftLeft_eq it (show k + n * 2 ^ 8 + m * 2 ^ 16 + tB * 2 ^ 25 + tA * 2 ^ 26 < 2 ^ 27 by omega)]
  omega

end Sys2Proof.Machine
end

