-- ==== Sys2Proof/Tests/Slice0.lean ====
section
/-! SUPPORT. Tests: the well-formedness smoke, decoding of words written out from the spec, one-step checks whose expected values
come from 95_test_vectors (S1, V1 to V9, P1 to P4), and a witness for the hypotheses of every statement that has any. -/

namespace Sys2Proof.Tests

open Sys2Proof Sys2Proof.Machine

/-! ### Helpers -/

/-- The state an outcome goes on with. -/
def goesOn : StepOutcome → Option State
  | .next t => some t
  | .fault _ => none
  | .refused _ => none

/-- The fault an outcome stops with. -/
def faultOf : StepOutcome → Option Fault
  | .fault r => some r
  | _ => none

/-- The refusal an outcome stops with. -/
def refusalOf : StepOutcome → Option Refusal
  | .refused r => some r
  | _ => none

/-- The state after one instruction. -/
def after (i : Instr) (s : State) : Option State := goesOn (exec i s)

/-- What one instruction returns. -/
def replyOf (i : Instr) (s : State) : Option Reply := (after i s).map (·.reply)

/-- The device after one instruction, looked at through `f`. -/
def devAfter {α : Type} (i : Instr) (s : State) (f : Device → α) : Option α := (after i s).map fun t => f t.dev

/-- The reset state with its cells, `STATUS` and `fsm` replaced. -/
def withDev (w : Vector Word64 5) (status : Word64) (fsm : Fsm := .idle) : State :=
  { State.reset with dev := { Device.reset with w := w, status := status, fsm := fsm } }

/-- The reset state with a written `REC` and the serializer at `p`. -/
def withRec (r : Vector Word64 5) (p : EncStep := .eIdle) : State :=
  { State.reset with enc := { Encoder.reset with step := p, recWords := r, recWritten := true } }

/-- The reset state with a script. -/
def withScript (l : List Event) : State := { State.reset with script := l }

/-- The reset state with stores in flight. -/
def withPath (l : List PathItem) : State := { State.reset with path := l }

/-- The source's scenario (S1). -/
def scenario : Cmd := { m := 128, n := 128, k := 128, aDin := 0x4000, aB := 0x2000, aA := 0x1000, aDout := 0x8000 }

/-- The words of the scenario (S1). -/
def scenarioRec : Vector Word64 5 :=
  #v[0x0000010000100002#64, 0x0000020000100002#64, 0x0000010000100002#64, 0x0000020000100002#64,
    0x0000000008020202#64]

/-- V6 row 2. -/
def second : Cmd :=
  { m := 100, n := 200, k := 300, aDin := 0x10000, aB := 0xABC000, aA := 0x7000, aDout := 0x3FFFFFC000, tA := 1 }

/-- V6 row 3: every input at its largest. -/
def largest : Cmd :=
  { m := 16320, n := 16320, k := 16320, aDin := 0x3FFFFFC000, aB := 0xFFFFFF000, aA := 0xFFFFFF000,
    aDout := 0x3FFFFFC000, tA := 1, tB := 1, itype := 31 }

/-- Every input at its smallest. -/
def smallest : Cmd := { m := 1, n := 1, k := 1, aDin := 0, aB := 0, aA := 0, aDout := 0, itype := 0 }

/-! ### Well-formedness: each check refuses an ill-formed term -/

theorem test_wf_badWr_payload_length : Instr.wf Params.default (.badWr 0x28 4 [1, 2, 3]) = false := by decide
theorem test_wf_badWr_good_access : Instr.wf Params.default (.badWr 0x18 4 [1, 2, 3, 4]) = false := by decide
theorem test_wf_badRd_good_access : Instr.wf Params.default (.badRd 0x1000 8) = false := by decide
theorem test_wf_record_is_gemm : Instr.wf Params.default (.record 1 1 1 0 0 0 1 0) = false := by decide
theorem test_wf_validate_wide : Instr.wf Params.default (.validate { scenario with aDin := 2 ^ 64 }) = false := by decide
theorem test_wf_encode_wide : Instr.wf Params.default (.encode { scenario with aB := 2 ^ 64 }) = false := by decide
theorem test_wf_submit_wide : Instr.wf Params.default (.submit { scenario with aA := 2 ^ 64 }) = false := by decide
theorem test_wf_submit_wide_dout : Instr.wf Params.default (.submit { scenario with aDout := 2 ^ 64 }) = false := by decide
theorem test_wf_scale_wide : Instr.wf Params.default (.scale .a (2 ^ 64)) = false := by decide
theorem test_wf_line_write : Line.wf (.access ⟨.write, 0, 8, [0]⟩) = false := by decide
theorem test_wf_line_read : Line.wf (.access ⟨.read, 0, 8, [0]⟩) = false := by decide
theorem test_wf_line_word : Line.wf (.word 0 [0]) = false := by decide
theorem test_wf_params_base : Params.wf { Params.default with devBase := 4 } = false := by decide
theorem test_wf_params_status : Params.wf { Params.default with devStatus := 0x20 } = false := by decide
theorem test_wf_params_bits : Params.wf { Params.default with addrBits := 37 } = false := by decide
theorem test_wf_params_default : Params.wf Params.default = true := by decide

/-! ### Decoding of words written out from the spec -/

/-- S1 word 1, with its bytes in bus order. -/
theorem test_decode_wr8W :
    decode Params.default (.access ⟨.write, 0x08, 8, [0x02, 0x00, 0x10, 0x00, 0x00, 0x02, 0x00, 0x00]⟩) =
      .instr (.wr8W 1 0x0000020000100002#64) := by decide
/-- V7 row 2: the last word that does not trigger. -/
theorem test_decode_wr8W_last :
    decode Params.default (.access ⟨.write, 0x18, 8, [0xFF, 0xFF, 0xFF, 0xFF, 0xFF, 0xFF, 0xFF, 0xFF]⟩) =
      .instr (.wr8W 3 0xFFFFFFFFFFFFFFFF#64) := by decide
/-- P2 step 9. -/
theorem test_decode_wr8Trig :
    decode Params.default (.access ⟨.write, 0x20, 8, [0x02, 0x02, 0x02, 0x08, 0xFF, 0xFF, 0xFF, 0xFF]⟩) =
      .instr (.wr8Trig 0xFFFFFFFF08020202#64) := by decide
/-- P2 step 5. -/
theorem test_decode_wr4W :
    decode Params.default (.access ⟨.write, 0x08, 4, [0xDD, 0xCC, 0xBB, 0xAA]⟩) = .instr (.wr4W 1 0xAABBCCDD#32) := by
  decide
/-- P2 step 1. -/
theorem test_decode_wr4Meta :
    decode Params.default (.access ⟨.write, 0x20, 4, [0x02, 0x02, 0x02, 0x08]⟩) = .instr (.wr4Meta 0x08020202#32) := by
  decide
/-- P2 step 6. -/
theorem test_decode_rd8W : decode Params.default (.access ⟨.read, 0x08, 8, []⟩) = .instr (.rd8W 1) := by decide
/-- P2 step 11. -/
theorem test_decode_rd8Meta : decode Params.default (.access ⟨.read, 0x20, 8, []⟩) = .instr .rd8Meta := by decide
/-- P2 step 7. -/
theorem test_decode_rd4W : decode Params.default (.access ⟨.read, 0x08, 4, []⟩) = .instr (.rd4W 1) := by decide
/-- P3 step 19. -/
theorem test_decode_rd4Meta : decode Params.default (.access ⟨.read, 0x20, 4, []⟩) = .instr .rd4Meta := by decide
/-- P3 step 2. -/
theorem test_decode_rd8St : decode Params.default (.access ⟨.read, 0x1000, 8, []⟩) = .instr .rd8St := by decide
/-- P2 step 10. -/
theorem test_decode_rd4St : decode Params.default (.access ⟨.read, 0x1000, 4, []⟩) = .instr .rd4St := by decide
/-- P3 step 1. -/
theorem test_decode_wr8St :
    decode Params.default (.access ⟨.write, 0x1000, 8, [0xEE, 0xFF, 0xC0, 0x00, 0xEF, 0xBE, 0xAD, 0xDE]⟩) =
      .instr (.wr8St 0xDEADBEEF00C0FFEE#64) := by decide
/-- P3 step 3. -/
theorem test_decode_wr4St :
    decode Params.default (.access ⟨.write, 0x1000, 4, [0, 0, 0, 0]⟩) = .instr (.wr4St 0#32) := by decide
/-- P2 step 3. -/
theorem test_decode_badWr :
    decode Params.default (.access ⟨.write, 0x24, 4, [0xFF, 0xFF, 0xFF, 0xFF]⟩) =
      .instr (.badWr 0x24 4 [0xFF, 0xFF, 0xFF, 0xFF]) := by decide
/-- P2 step 8. -/
theorem test_decode_badRd : decode Params.default (.access ⟨.read, 0x0C, 4, []⟩) = .instr (.badRd 0x0C 4) := by decide
/-- V5 row 3, bit by bit: `instruction_type` 00001, tA 0, tB 1, reserved 0, M 3, N 2, K 1. -/
theorem test_decode_gemm :
    decode Params.default (.word 4 [0b00000001, 0b00000010, 0b00000011, 0b00001010, 0, 0, 0, 0]) =
      .instr (.gemm 1 2 3 0 1 0 0) := by decide
/-- V5, last paragraph: 0xDEADBEEFCAFEF00D is K 0x0D, N 0xF0, M 0xFE, tB 1, tA 0, itype 25 (bit 24 and the padding by R83). -/
theorem test_decode_record :
    decode Params.default (.word 4 [0x0D, 0xF0, 0xFE, 0xCA, 0xEF, 0xBE, 0xAD, 0xDE]) =
      .instr (.record 0x0D 0xF0 0xFE 0 1 0 25 0xDEADBEEF) := by decide
/-- V4 row 6. -/
theorem test_decode_opdDin :
    decode Params.default (.word 0 [0x45, 0x23, 0xA1, 0x89, 0x67, 0xF0, 0xDE, 0xBC]) =
      .instr (.opdDin 0x12345 0x6789A 0xBCDEF0) := by decide
/-- V4, last paragraph: 0x0123456789ABCDEF. -/
theorem test_decode_opdB :
    decode Params.default (.word 1 [0xEF, 0xCD, 0xAB, 0x89, 0x67, 0x45, 0x23, 0x01]) =
      .instr (.opdB 0xBCDEF 0x6789A 0x012345) := by decide
/-- V4, last paragraph: 0xDEADBEEFCAFEF00D. -/
theorem test_decode_opdA :
    decode Params.default (.word 2 [0x0D, 0xF0, 0xFE, 0xCA, 0xEF, 0xBE, 0xAD, 0xDE]) =
      .instr (.opdA 0xEF00D 0xEFCAF 0xDEADBE) := by decide
/-- V4 row 1. -/
theorem test_decode_opdDout :
    decode Params.default (.word 3 [0x02, 0x00, 0x10, 0x00, 0x00, 0x01, 0x00, 0x00]) =
      .instr (.opdDout 2 1 1) := by decide
theorem test_decode_blocks : decode Params.default (.command .blocks [65]) = .instr (.blocks 65) := by decide
theorem test_decode_strides : decode Params.default (.command .strides [4, 5]) = .instr (.strides 4 5) := by decide
theorem test_decode_validate :
    decode Params.default (.command .validate [128, 128, 128, 0x4000, 0x2000, 0x1000, 0x8000]) =
      .instr (.validate scenario) := by decide
theorem test_decode_packOpd : decode Params.default (.command .packOpd [2, 1, 3]) = .instr (.packOpd 2 1 3) := by decide
/-- The table's order of inputs: K, N, M, tB, tA, itype. -/
theorem test_decode_packMeta :
    decode Params.default (.command .packMeta [5, 4, 2, 0, 1, 1]) = .instr (.packMeta 5 4 2 0 1 1) := by decide
theorem test_decode_scale : decode Params.default (.command .scale [1, 0x2000]) = .instr (.scale .b 0x2000) := by decide
/-- V6 row 2: the eighth input is tA. -/
theorem test_decode_encode :
    decode Params.default (.command .encode [100, 200, 300, 0x10000, 0xABC000, 0x7000, 0x3FFFFFC000, 1]) =
      .instr (.encode second) := by decide
theorem test_decode_transmit : decode Params.default (.command .transmit []) = .instr .transmit := by decide
/-- P1. -/
theorem test_decode_submit :
    decode Params.default (.command .submit [128, 128, 128, 0x4000, 0x2000, 0x1000, 0x8000]) =
      .instr (.submit scenario) := by decide
theorem test_decode_decode : decode Params.default (.command .decode []) = .instr .decode := by decide
theorem test_decode_setReceived : decode Params.default (.command .setReceived []) = .instr .setReceived := by decide
theorem test_decode_reset : decode Params.default (.command .reset []) = .instr .reset := by decide

/-- The table's numbering of a Meta word (log 4). -/
theorem test_table_gemm : decodeTableWord 64 0x0000000008010101 = some (.gemm 1 1 1 0 0 0 0) := by decide
theorem test_table_record : decodeTableWord 64 0x00000000FEFFFFFF = some (.record 255 255 255 0 1 1 31 0) := by decide
theorem test_table_too_long : decodeTableWord 72 (2 ^ 71) = none := by decide
theorem test_fetch_runs :
    goesOn (step (State.reset.withFetchWord 64 0x0000000008020202)) = after (.gemm 2 2 2 0 0 0 0) State.reset := by decide

/-! ### Rejections by name -/

theorem test_reject_short_write :
    decode Params.default (.access ⟨.write, 0x00, 8, [1]⟩) = .rejected .payloadLength := by decide
theorem test_reject_read_payload :
    decode Params.default (.access ⟨.read, 0x00, 8, [1]⟩) = .rejected .payloadLength := by decide
theorem test_reject_short_word : decode Params.default (.word 2 [1, 2, 3]) = .rejected .wordLength := by decide
theorem test_reject_no_inputs : decode Params.default (.command .blocks []) = .rejected .inputs := by decide
theorem test_reject_extra_input : decode Params.default (.command .transmit [0]) = .rejected .inputs := by decide
theorem test_reject_few_inputs : decode Params.default (.command .encode [1, 1, 1, 0, 0, 0]) = .rejected .inputs := by decide
theorem test_reject_wide_address :
    decode Params.default (.command .submit [1, 1, 1, 2 ^ 64, 0, 0, 0]) = .rejected .addressTooWide := by decide
theorem test_reject_role : decode Params.default (.command .scale [4, 0]) = .rejected .noSuchRole := by decide
theorem test_reject_stops :
    refusalOf (step (withScript [.line (.word 2 [1, 2, 3])])) = some (.malformedLine .wordLength) := by decide

/-! ### One step: writes of the instruction window (V7) -/

theorem test_wr8W :
    devAfter (.wr8W 0 0x0000010000100002#64) State.reset (fun d => (d.cell 0, d.fsm, d.status, d.icount)) =
      some (0x0000010000100002#64, .filling, 0#64, 0#64) := by decide
theorem test_wr8W_no_trigger :
    devAfter (.wr8W 3 0xFFFFFFFFFFFFFFFF#64) State.reset (fun d => (d.cell 3, d.cell 4, d.fsm, d.execLog)) =
      some (0xFFFFFFFFFFFFFFFF#64, 0#64, .filling, []) := by decide
theorem test_wr8Trig :
    devAfter (.wr8Trig 0x0000000008020202#64) (withDev #v[0, 0, 0, 0, 0] 0xFFFFFFFFFFFFFFFF#64 .filling)
      (fun d => (d.cell 4, d.status, d.icount, d.fsm, d.valid)) =
      some (0x0000000008020202#64, 1#64, 1#64, .idle, false) := by decide
/-- P2 end state: the record decoded from a partly written buffer. -/
theorem test_wr8Trig_record :
    devAfter (.wr8Trig 0xFFFFFFFF08020202#64) (withDev #v[0, 0x11223344AABBCCDD#64, 0, 0, 0] 0) (fun d => d.execLog) =
      some [{ din := ⟨0, 0, 0, 0⟩, b := ⟨0xBCCDD, 0x44AAB, 0x112233, 0x112233000⟩, a := ⟨0, 0, 0, 0⟩,
              dout := ⟨0, 0, 0, 0⟩, k := 2, n := 2, m := 2, ifBTranspose := 0, ifATranspose := 0,
              instructionType := 1 }] := by decide
theorem test_wr4W_keeps_high :
    devAfter (.wr4W 1 0xAABBCCDD#32) (withDev #v[0, 0x1122334455667788#64, 0, 0, 0] 0) (fun d => d.cell 1) =
      some 0x11223344AABBCCDD#64 := by decide
theorem test_wr4Meta_no_trigger :
    devAfter (.wr4Meta 0x08020202#32) State.reset (fun d => (d.cell 4, d.status, d.icount, d.fsm)) =
      some (0x0000000008020202#64, 0#64, 0#64, .filling) := by decide
theorem test_badWr_width : replyOf (.badWr 0x04 4 [1, 0, 0, 0]) State.reset = some (.failed .invalidWidth 0x04 4) := by decide
theorem test_badWr_window_first :
    after (.badWr 0x30 2 [0, 0]) State.reset = some { State.reset with reply := .failed .invalidOffset 0x30 2 } := by decide

/-! ### One step: reads of the instruction window (V8) -/

/-- V8's start. -/
def readStart : State := withDev #v[0, 0x11223344AABBCCDD#64, 0, 0, 0xFFFFFFFF08020202#64] 0

theorem test_rd8W : replyOf (.rd8W 1) readStart = some (.data [0xDD, 0xCC, 0xBB, 0xAA, 0x44, 0x33, 0x22, 0x11]) := by decide
theorem test_rd4W : replyOf (.rd4W 1) readStart = some (.data [0xDD, 0xCC, 0xBB, 0xAA]) := by decide
theorem test_rd8Meta : replyOf .rd8Meta readStart = some (.data [0x02, 0x02, 0x02, 0x08, 0xFF, 0xFF, 0xFF, 0xFF]) := by decide
theorem test_rd4Meta : replyOf .rd4Meta readStart = some (.data [0x02, 0x02, 0x02, 0x08]) := by decide
theorem test_rd8Meta_no_trigger : devAfter .rd8Meta readStart (fun d => d) = some readStart.dev := by decide
theorem test_badRd_width : replyOf (.badRd 0x0C 4) readStart = some (.failed .invalidWidth 0x0C 4) := by decide
theorem test_badRd_offset : replyOf (.badRd 0x28 8) readStart = some (.failed .invalidOffset 0x28 8) := by decide

/-! ### One step: the Status Register (V9) -/

theorem test_rd8St :
    replyOf .rd8St (withDev #v[0, 0, 0, 0, 0] 0xDEADBEEF00C0FFEE#64) =
      some (.data [0xEE, 0xFF, 0xC0, 0x00, 0xEF, 0xBE, 0xAD, 0xDE]) := by decide
theorem test_rd8St_does_not_clear : devAfter .rd8St (withDev #v[0, 0, 0, 0, 0] 1#64) (fun d => d.status) = some 1#64 := by
  decide
theorem test_rd4St :
    replyOf .rd4St (withDev #v[0, 0, 0, 0, 0] 0xDEADBEEF00C0FFEE#64) = some (.data [0xEE, 0xFF, 0xC0, 0x00]) := by decide
theorem test_wr8St :
    devAfter (.wr8St 0xDEADBEEF00C0FFEE#64) State.reset (fun d => (d.status, d.fsm)) =
      some (0xDEADBEEF00C0FFEE#64, .idle) := by decide
theorem test_wr4St_clears_low :
    devAfter (.wr4St 0#32) (withDev #v[0, 0, 0, 0, 0] 0xDEADBEEF00C0FFEE#64) (fun d => d.status) =
      some 0xDEADBEEF00000000#64 := by decide
theorem test_wr4St_keeps_high :
    devAfter (.wr4St 0xAABBCCDD#32) (withDev #v[0, 0, 0, 0, 0] 0x1122334455667788#64) (fun d => d.status) =
      some 0x11223344AABBCCDD#64 := by decide
theorem test_setReceived :
    devAfter .setReceived (withDev #v[0, 0, 0, 0, 0] 0xFFFFFFFFFFFFFFFF#64) (fun d => d.status) = some 1#64 := by decide
theorem test_clear_line : decode Params.default (clearLine Params.default) = .instr (.wr8St 0#64) := by decide
theorem test_ack_line : decode Params.default (ackLine Params.default) = .instr .rd8St := by decide

/-! ### One step: record words, DECODE, RESET -/

/-- V4 row 6: the word stored. -/
theorem test_opdDin :
    devAfter (.opdDin 0x12345 0x6789A 0xBCDEF0) State.reset (fun d => d.cell 0) = some 0xBCDEF06789A12345#64 := by decide
theorem test_opdB : devAfter (.opdB 2 1 2) State.reset (fun d => d.cell 1) = some 0x0000020000100002#64 := by decide
theorem test_opdA :
    devAfter (.opdA 0 0xFFFFF 0) State.reset (fun d => d.cell 2) = some 0x000000FFFFF00000#64 := by decide
theorem test_opdDout :
    devAfter (.opdDout 0 0 0xFFFFFF) State.reset (fun d => (d.cell 3, d.fsm)) = some (0xFFFFFF0000000000#64, .filling) := by
  decide
/-- V5 row 3. -/
theorem test_gemm :
    devAfter (.gemm 1 2 3 0 1 0 0) State.reset (fun d => (d.cell 4, d.icount, d.status)) =
      some (0x000000000A030201#64, 1#64, 1#64) := by decide
/-- V7 row 4: the largest of every field triggers all the same. -/
theorem test_record :
    devAfter (.record 255 255 255 1 1 1 31 0xFFFFFFFF) State.reset
      (fun d => (d.cell 4, d.execLog.map fun r => (r.k, r.ifATranspose, r.instructionType))) =
      some (0xFFFFFFFFFFFFFFFF#64, [(255, 1, 31)]) := by decide
/-- S1: the decoded addresses are the original four. -/
theorem test_decode_addresses :
    replyOf .decode (withDev scenarioRec 0) = some (.decoded
      { din := ⟨2, 1, 1, 0x4000⟩, b := ⟨2, 1, 2, 0x2000⟩, a := ⟨2, 1, 1, 0x1000⟩, dout := ⟨2, 1, 2, 0x8000⟩,
        k := 2, n := 2, m := 2, ifBTranspose := 0, ifATranspose := 0, instructionType := 1 }) := by decide
/-- V3, last paragraph. -/
theorem test_decode_arbitrary :
    (decodeRecord #v[0xDEADBEEFCAFEF00D#64, 0xDEADBEEFCAFEF00D#64, 0, 0, 0]).din.realAddr = 0x37AB6F8000 ∧
      (decodeRecord #v[0xDEADBEEFCAFEF00D#64, 0xDEADBEEFCAFEF00D#64, 0, 0, 0]).b.realAddr = 0xDEADBE000 := by decide
theorem test_reset : devAfter .reset (withDev scenarioRec 7#64 .filling) (fun d => d) = some Device.reset := by decide
/-- R26 to R29, R33. -/
theorem test_reset_state :
    State.reset.dev.w = #v[0, 0, 0, 0, 0] ∧ State.reset.dev.valid = false ∧ State.reset.dev.fsm = .idle ∧
      State.reset.dev.status = 0#64 ∧ State.reset.dev.icount = 0#64 ∧ State.reset.dev.execLog = [] ∧
      State.reset.enc.step = .eIdle ∧ State.reset.enc.err = none := by decide

/-! ### One step: the encoder (V1 to V6, P1, P4) -/

theorem test_blocks_odd : replyOf (.blocks 16319) State.reset = some (.number 255) := by decide
theorem test_blocks_over : replyOf (.blocks 16321) State.reset = some (.number 256) := by decide
theorem test_strides : replyOf (.strides 4 5) State.reset = some (.strides [(4, 1), (4, 1), (5, 1), (4, 1)]) := by decide
theorem test_scale_a : replyOf (.scale .a 0xFFFFFF000) State.reset = some (.number 0xFFFFFF) := by decide
theorem test_scale_dout : replyOf (.scale .dout 0x3FFFFFC000) State.reset = some (.number 0xFFFFFF) := by decide
theorem test_packOpd : replyOf (.packOpd 0x12345 0x6789A 0xBCDEF0) State.reset = some (.word 0xBCDEF06789A12345#64) := by
  decide
theorem test_packOpd_overflow :
    replyOf (.packOpd 0x100000 0 0) State.reset = some (.refused (.overflowField .strideMinor 0x100000)) := by decide
theorem test_packMeta : replyOf (.packMeta 255 255 255 1 1 31) State.reset = some (.word 0x00000000FEFFFFFF#64) := by decide
theorem test_packMeta_overflow :
    replyOf (.packMeta 256 1 1 0 0 1) State.reset = some (.refused (.overflowField (.dim .k) 256)) := by decide
/-- R85 is a pure function: it runs whatever the serializer does (log 9). -/
theorem test_packOpd_while_sending :
    after (.packOpd 2 1 1) (withRec scenarioRec .tx2) =
      some { withRec scenarioRec .tx2 with reply := .word 0x0000010000100002#64 } := by decide
theorem test_validate_zero_first :
    (after (.validate { smallest with m := 0, n := 16321 }) State.reset).map (fun t => (t.reply, t.enc.err)) =
      some (.refused (.invalidDimension .m), some .invalidDimension) := by decide
theorem test_validate_word_order :
    replyOf (.validate { smallest with aDin := 0x2000, aA := 0x1001 }) State.reset =
      some (.refused (.nonMultipleAddress .din 0x2000)) := by decide
theorem test_encode :
    (after (.encode second) State.reset).map (fun t => (t.enc.recWords, t.enc.err)) =
      some (#v[0x0000040000100004#64, 0x000ABC0000100004#64, 0x0000070000100005#64, 0xFFFFFF0000100004#64,
        0x000000000C020405#64], none) := by decide
theorem test_encode_overflow :
    replyOf (.encode { smallest with aA := 0x1000000000 }) State.reset =
      some (.refused (.overflowField (.baseAddrOf .a) 0x1000000)) := by decide
theorem test_transmit :
    (after .transmit (withRec scenarioRec)).map (fun t => (t.dev.w, t.dev.icount, t.enc.ack)) =
      some (scenarioRec, 1#64, 1#64) := by decide
/-- R116, R33: beginning reads nothing; a begun transmission that is reset before its first store reads nothing either. -/
theorem test_txBegin_unwritten :
    ((goesOn (runEvent .txBegin State.reset)).bind fun t => goesOn (runEvent .encoderReset t)) = some State.reset := by decide
theorem test_transmit_unwritten : faultOf (exec .transmit State.reset) = some .recNotWritten := by decide
/-- P1. -/
theorem test_submit :
    (after (.submit scenario) State.reset).map (fun t => (t.dev.w, t.dev.status, t.enc.err, t.enc.step, t.reply)) =
      some (scenarioRec, 1#64, none, .eIdle, .ack 1#64) := by decide
/-- P4. -/
theorem test_submit_refused :
    after (.submit { scenario with aA := 0x1800 }) State.reset =
      some { State.reset with
        enc := { Encoder.reset with err := some .nonMultipleAddress }
        reply := .refused (.nonMultipleAddress .a 0x1800) } := by decide

/-! ### The path (R59 to R61): a later store arrives first, unless a barrier orders them -/

theorem test_deliver_later_first :
    (goesOn (runEvent (.deliver 1) (withPath [.store 0x00 [1, 0, 0, 0], .store 0x08 [2, 0, 0, 0]]))).map
      (fun t => (t.dev.cell 0, t.dev.cell 1, t.path)) = some (0#64, 2#64, [.store 0x00 [1, 0, 0, 0]]) := by decide
theorem test_deliver_held :
    (goesOn (runEvent (.deliver 1) (withPath [.store 0x00 [1, 0, 0, 0], .barrier, .store 0x08 [2, 0, 0, 0]]))).map
      (fun t => (t.dev.cell 1, t.reply)) = some (0#64, .turnedAway) := by decide
/-- R188, R189: of two stores in flight that a full barrier waits for, the failing one is reported too, once (log 42). -/
theorem test_fullBarrier_reports :
    (goesOn (runEvent .fullBarrier (withPath [.store 0x28 [1], .store 0x08 [2, 0, 0, 0]]))).map
      (fun t => (t.reports, t.dev.cell 1, t.path)) = some ([.failed .invalidOffset 0x28 1, .ok], 2#64, []) := by decide
/-- R61, R51: a store in flight to an address below DEVICE_BASE is performed elsewhere, and the full barrier completes (log 12). -/
theorem test_fullBarrier_elsewhere :
    (goesOn (runEvent .fullBarrier
        { withPath [.store 0x07 [1], .store 0x10 [2, 0, 0, 0]] with params := { Params.default with devBase := 8, encBase := 8 } })).map
      (fun t => (t.reports, t.dev.cell 0, t.dev.cell 1, t.path)) = some ([.elsewhere, .ok], 0#64, 2#64, []) := by decide
/-- A producer's store behind a compiler barrier: the earlier store's failure is reported, its own answer is the reply. -/
theorem test_memWrite_reports_held :
    (goesOn (runEvent (.memWrite 0x08 [2, 0, 0, 0]) (withPath [.store 0x24 [1], .barrier]))).map
      (fun t => (t.reports, t.reply)) = some ([.failed .invalidWidth 0x24 1], .ok) := by decide
/-- R211: the encoder takes its reset values, the device keeps its partly written record (log 14). -/
theorem test_encoderReset :
    (goesOn (runEvent .encoderReset { withRec scenarioRec .tx2 with path := [.barrier, .store 0 [1]] })).map
      (fun t => (t.enc.step, t.enc.err, t.enc.recWritten, t.path)) =
      some (.eIdle, none, false, [.barrier, .store 0 [1]]) := by decide

/-! ### Witnesses: the hypotheses of every statement can be met -/

theorem witness_DecodeEncodeRoundTrip :
    Params.default.wf = true ∧ Instr.wf Params.default (.record 0 0 0 1 0 0 31 0xFFFFFFFF) = true ∧
      Instr.wf Params.default (.badWr 0x27 1 [7]) = true ∧ Instr.wf Params.default (.badRd 0x1000 16) = true ∧
      Instr.wf Params.default (.submit { scenario with aA := 2 ^ 64 - 1 }) = true ∧
      Instr.wf Params.default (.scale .b (2 ^ 64 - 1)) = true ∧ Instr.wf Params.default (.wr8W 3 5) = true := by decide
theorem witness_RecordWordsRoundTrip : ([0xEF, 0xCD, 0xAB, 0x89, 0x67, 0x45, 0x23, 0x01] : List Byte).length = 8 := by
  decide
theorem witness_AccessLinesRoundTrip :
    (Line.access ⟨.write, 0x27, 1, [7]⟩).wf = true ∧ (Line.access ⟨.read, 0x20, 8, []⟩).wf = true := by decide
theorem witness_StepRunsDecodedLine :
    (withScript [.line (.word 4 [1, 1, 1, 8, 0, 0, 0, 0])]).script = .line (.word 4 [1, 1, 1, 8, 0, 0, 0, 0]) :: [] ∧
      decode State.reset.params (.word 4 [1, 1, 1, 8, 0, 0, 0, 0]) = .instr (.gemm 1 1 1 0 0 0 0) ∧
      (withScript [.line (.word 4 [1])]).script = .line (.word 4 [1]) :: [] ∧
      decode State.reset.params (.word 4 [1]) = .rejected .wordLength ∧ State.reset.script = [] := by decide
theorem witness_TableWordRunsNext : decodeTableWord 32 0xFFFFFFFF = some (.record 255 255 255 1 1 1 31 0) := by decide
theorem witness_AccessLinesFollowDispatch : ([1, 2, 3] : List Byte).length = 3 := by decide
theorem witness_AccessSucceedsExactly :
    State.reset.params.wf = true ∧ (Line.access ⟨.write, 0x20, 4, [0, 0, 0, 0]⟩).wf = true ∧
      (Line.access ⟨.read, 0x28, 4, []⟩).wf = true := by decide
theorem witness_FailedWriteChangesNothing :
    State.reset.params.wf = true ∧ ([0, 0, 0, 0] : List Byte).length = 4 ∧
      ¬((4 = 4 ∨ 4 = 8) ∧ (0x24 ∈ [0x00, 0x08, 0x10, 0x18, 0x20] ∨ 0x24 = State.reset.params.devStatus)) ∧
      ¬((4 = 4 ∨ 4 = 8) ∧ (0x28 ∈ [0x00, 0x08, 0x10, 0x18, 0x20] ∨ 0x28 = State.reset.params.devStatus)) := by decide
theorem witness_FailedReadDeliversNothing :
    State.reset.params.wf = true ∧
      ¬((2 = 4 ∨ 2 = 8) ∧ (0x1000 ∈ [0x00, 0x08, 0x10, 0x18, 0x20] ∨ 0x1000 = State.reset.params.devStatus)) ∧
      ¬((8 = 4 ∨ 8 = 8) ∧ (0x1008 ∈ [0x00, 0x08, 0x10, 0x18, 0x20] ∨ 0x1008 = State.reset.params.devStatus)) := by decide
theorem witness_OutsideWindowsIsInvalidOffset :
    0x28 ≤ 0x28 ∧ 0x28 ≠ State.reset.params.devStatus ∧ 0x28 ≤ 0x1001 ∧ 0x1001 ≠ State.reset.params.devStatus ∧
      ([] : List Byte).length = 0 := by decide
theorem witness_WrongWidthOrAlignment_first : 0x27 < 0x28 ∧ (0x27 % 8 ≠ 0 ∨ ¬(8 = 4 ∨ 8 = 8)) := by decide
theorem witness_WrongWidthOrAlignment_width : 0x20 < 0x28 ∧ (0x20 % 8 ≠ 0 ∨ ¬(5 = 4 ∨ 5 = 8)) := by decide
theorem witness_WrongWidthOrAlignment_status :
    0x28 ≤ 0x1000 ∧ 0x1000 = State.reset.params.devStatus ∧ ¬(3 = 4 ∨ 3 = 8) := by decide
theorem witness_BadAccessesComplete : Instr.wf State.reset.params (.badRd 0x28 8) = true := by decide
theorem witness_PaddingIsCarriedNotDecoded :
    validateCmd largest = none ∧
      (0xFFFFFFFF08020202#64).toNat % 2 ^ 32 = (0x0000000008020202#64).toNat % 2 ^ 32 ∧
      ([0xFF, 0xFF, 0xFF, 0xFF] : List Byte).length = 4 := by decide
theorem witness_StoresLeaveOtherOffsets_word :
    (∃ t, exec (.wr8W 3 5) State.reset = .next t) ∧ (∃ t, exec (.wr4W 3 5) State.reset = .next t) ∧
      (0x20 : Nat) ≠ 8 * (3 : Fin 4).val := ⟨⟨_, rfl⟩, ⟨_, rfl⟩, by decide⟩
theorem witness_StoresLeaveOtherOffsets_meta :
    (∃ t, exec (.wr4Meta 5) State.reset = .next t) ∧ (0x18 : Nat) ≠ 0x20 := ⟨⟨_, rfl⟩, by decide⟩
theorem witness_StoresLeaveOtherOffsets_status :
    (∃ t, exec (.wr8St 5) State.reset = .next t) ∧ (∃ t, exec (.wr4St 5) State.reset = .next t) ∧
      (0x0FF8 : Nat) ≠ State.reset.params.devStatus := ⟨⟨_, rfl⟩, ⟨_, rfl⟩, by decide⟩
theorem witness_StoresLeaveOtherOffsets_trigger :
    (∃ t, exec (.wr8Trig 5) State.reset = .next t) ∧ (0x18 : Nat) ≠ 0x20 ∧
      (0x18 : Nat) ≠ State.reset.params.devStatus := ⟨⟨_, rfl⟩, by decide, by decide⟩
theorem witness_ScaleDividesByAlignment :
    (Role.din = .din ∨ Role.din = .dout) ∧ (Role.dout = .din ∨ Role.dout = .dout) ∧ (Role.a = .a ∨ Role.a = .b) ∧
      (Role.b = .a ∨ Role.b = .b) := by decide
theorem witness_PackOpdPacksOrOverflows :
    (0xFFFFF < 2 ^ 20 ∧ 0xFFFFF < 2 ^ 20 ∧ 0xFFFFFF < 2 ^ 24) ∧
      ¬(0x100000 < 2 ^ 20 ∧ 0 < 2 ^ 20 ∧ 0 < 2 ^ 24) := by decide
theorem witness_PackMetaPacksOrOverflows :
    (255 < 2 ^ 8 ∧ 255 < 2 ^ 8 ∧ 255 < 2 ^ 8 ∧ 1 < 2 ∧ 1 < 2 ∧ 31 < 2 ^ 5) ∧
      ¬(1 < 2 ^ 8 ∧ 1 < 2 ^ 8 ∧ 1 < 2 ^ 8 ∧ 0 < 2 ∧ 0 < 2 ∧ 32 < 2 ^ 5) := by decide
theorem witness_Contract_largest : State.reset.enc.step = .eIdle ∧ Contract largest :=
  ⟨rfl, by decide, by decide, by decide, by decide⟩
theorem witness_Contract_smallest : State.reset.enc.step = .eIdle ∧ Contract smallest :=
  ⟨rfl, by decide, by decide, by decide, by decide⟩
theorem witness_ValidatePassesTheContract_fails : ¬Contract { smallest with k := 16321 } :=
  fun h => absurd h.dims (by decide)
theorem witness_EncodeBuildsTheRecord : State.reset.enc.step = .eIdle ∧ Contract second :=
  ⟨rfl, by decide, by decide, by decide, by decide⟩
theorem witness_ValidateReports_zero : validateCmd { smallest with k := 0 } = some (.invalidDimension .k) := by decide
theorem witness_ValidateReports_size :
    validateCmd { smallest with n := 16321 } = some (.overflowField (.dim .n) 256) := by decide
theorem witness_ValidateReports_tB : validateCmd { smallest with tB := 2 } = some (.overflowField .ifBTranspose 2) := by
  decide
theorem witness_ValidateReports_tA : validateCmd { smallest with tA := 2 } = some (.overflowField .ifATranspose 2) := by
  decide
theorem witness_ValidateReports_itype :
    validateCmd { smallest with itype := 32 } = some (.overflowField .instructionType 32) := by decide
theorem witness_ValidateReports_multiple :
    validateCmd { smallest with aDout := 0x1000 } = some (.nonMultipleAddress .dout 0x1000) := by decide
theorem witness_ValidateReports_base :
    validateCmd { smallest with aDout := 2 ^ 38 } = some (.overflowField (.baseAddrOf .dout) 0x1000000) := by decide
theorem witness_RefusedCommandsSendNothing :
    State.reset.enc.step = .eIdle ∧ validateCmd { scenario with aA := 0x1800 } = some (.nonMultipleAddress .a 0x1800) := by
  decide
theorem witness_BusyCommandsAreTurnedAway :
    (withRec scenarioRec .tx3).enc.step ≠ .eIdle ∧
      ((∃ c, Instr.encode scenario = .validate c ∨ Instr.encode scenario = .encode c ∨ Instr.encode scenario = .submit c) ∨
        Instr.encode scenario = .transmit) :=
  ⟨by decide, .inl ⟨scenario, .inr (.inl rfl)⟩⟩
theorem witness_Ready : State.reset.Ready := ⟨by decide, by decide⟩
theorem witness_TransmitSendsAndAcknowledges :
    (withRec scenarioRec).Ready ∧ (withRec scenarioRec).path = [] ∧ (withRec scenarioRec).enc.step = .eIdle ∧
      (withRec scenarioRec).enc.recWritten = true := ⟨⟨by decide, by decide⟩, rfl, rfl, rfl⟩

/-- A written `REC`, and in flight a store, a barrier, a store that will fail and one to an address that is not routed. -/
def inFlight : State :=
  { withRec scenarioRec with
    params := { Params.default with devBase := 8, encBase := 8 }
    path := [.store 0x1008 [0, 0, 0, 0], .barrier, .store 0x30 [1], .store 0x00 [1]] }

theorem witness_TransmitCompletesWithStoresInFlight :
    inFlight.Ready ∧ inFlight.enc.step = .eIdle ∧ inFlight.enc.recWritten = true :=
  ⟨⟨by decide, by decide⟩, rfl, rfl⟩
theorem witness_SubmitIsEncodeThenTransmit :
    State.reset.enc.step = .eIdle ∧ (after (.encode scenario) State.reset).map (fun t => t.enc.err) = some none ∧
      (after (.encode { smallest with m := 0 }) State.reset).map (fun t => t.enc.err) = some (some .invalidDimension) := by
  decide
theorem witness_SubmitHandsOverWhatWasAsked :
    State.reset.Ready ∧ State.reset.path = [] ∧ State.reset.enc.step = .eIdle ∧ Contract scenario :=
  ⟨witness_Ready, rfl, rfl, by decide, by decide, by decide, by decide⟩
theorem witness_SubmitExpandsToItsScript :
    (withDev scenarioRec 7#64 .filling).Ready ∧ (withDev scenarioRec 7#64 .filling).path = [] ∧
      (withDev scenarioRec 7#64 .filling).enc.step = .eIdle ∧ Contract second :=
  ⟨⟨by decide, by decide⟩, rfl, rfl, by decide, by decide, by decide, by decide⟩
theorem witness_PacedTransmissionIsTransmit : inFlight.enc.step = .eIdle := by decide
theorem witness_AcknowledgementIsNotInterpreted :
    ({ withRec scenarioRec .readStatus with script := [.txAdvance] } : State).Ready ∧
      ({ withRec scenarioRec .readStatus with script := [.txAdvance] } : State).enc.step = .readStatus ∧
      ({ withRec scenarioRec .readStatus with script := [.txAdvance] } : State).script = .txAdvance :: [] :=
  ⟨⟨by decide, by decide⟩, rfl, rfl⟩
theorem witness_TransmitBeforeEncodeFaults :
    State.reset.enc.step = .eIdle ∧ State.reset.enc.recWritten = false ∧
      ({ State.reset with enc := { Encoder.reset with step := .tx0 } } : State).enc.recWritten = false ∧
      ({ State.reset with enc := { Encoder.reset with step := .tx0 } } : State).enc.step ∈
        [EncStep.tx0, .tx1, .tx2, .tx3, .tx4] := by decide

/-- The encoder's base lies in the status window's second word, or below the device's base. -/
def wrongBase (devBase encBase : Nat) : State :=
  { withRec scenarioRec with params := { Params.default with devBase := devBase, encBase := encBase } }

theorem witness_WrongBaseStopsTheTransmission_fault :
    (wrongBase 0 0x1008).path = [] ∧ (wrongBase 0 0x1008).enc.step = .eIdle ∧
      (wrongBase 0 0x1008).enc.recWritten = true ∧
      route (wrongBase 0 0x1008).params (wrongBase 0 0x1008).params.encBase = some 0x1008 ∧
      accessError (wrongBase 0 0x1008).params 0x1008 8 ≠ none := by decide
theorem witness_WrongBaseStopsTheTransmission_refusal :
    (wrongBase 8 0).path = [] ∧ (wrongBase 8 0).enc.step = .eIdle ∧ (wrongBase 8 0).enc.recWritten = true ∧
      route (wrongBase 8 0).params (wrongBase 8 0).params.encBase = none := by decide
theorem witness_ProducerAccessesAreRouted :
    (wrongBase 8 0).path = [] ∧ 8 < 2 ^ (wrongBase 8 0).params.addrBits ∧ (wrongBase 8 0).params.devBase ≤ 8 ∧
      7 < (wrongBase 8 0).params.devBase := by decide
theorem witness_BarriersOrderStoresInFlight :
    (withPath [.store 0 [1], .store 8 [2]]).path = [.store 0 [1], .store 8 [2]] ∧
      (withPath [.store 0 [1]]).path = [.store 0 [1]] ∧ route inFlight.params 7 = none ∧ route inFlight.params 8 = some 0 ∧
      route State.reset.params (2 ^ 64 - 1) = some (2 ^ 64 - 1) ∧ route State.reset.params (2 ^ 64) = none ∧
      (∃ t, runEvent (.post 0 [1]) State.reset = .next t) ∧ ∃ t, runEvent (.line (.command .transmit [])) inFlight = .next t :=
  ⟨rfl, rfl, by decide, by decide, by decide, by decide, ⟨_, rfl⟩, ⟨_, rfl⟩⟩
theorem witness_DeviceFoldsItsAccesses :
    ∀ a ∈ ([⟨.write, 0x20, 8, [1, 1, 1, 8, 0, 0, 0, 0]⟩, ⟨.read, 0x1000, 8, []⟩, ⟨.write, 0x27, 1, [7]⟩] : List Access),
      (Line.access a).wf = true := by decide
theorem witness_EveryInstructionCompletes :
    inFlight.Ready ∧ (Instr.transmit = .transmit → inFlight.enc.step = .eIdle → inFlight.enc.recWritten = true) :=
  ⟨⟨by decide, by decide⟩, fun _ _ => rfl⟩

/-- The scenario's `REC` written, a transmission at `Tx4`, and its next position pending. -/
def sending : State :=
  { withRec (buildRecord scenario) .tx4 with script := [.txAdvance] }

theorem witness_StepKeepsTheInvariant : sending.Inv ∧ ∃ t, step sending = .next t :=
  ⟨⟨rfl, nofun, rfl, fun _ => ⟨scenario, by decide, rfl⟩, fun _ _ => rfl⟩, ⟨_, rfl⟩⟩
theorem witness_PaddingIsCarriedNotDecoded_sending :
    sending.Inv ∧ sending.Ready ∧ sending.enc.step = .tx4 :=
  ⟨witness_StepKeepsTheInvariant.1, ⟨by decide, by decide⟩, rfl⟩
theorem witness_PaddingIsCarriedNotDecoded_transmit :
    (withRec (buildRecord largest)).Inv ∧ (withRec (buildRecord largest)).Ready ∧
      (withRec (buildRecord largest)).enc.step = .eIdle ∧ (withRec (buildRecord largest)).enc.recWritten = true ∧
      State.reset.enc.step = .eIdle ∧ State.reset.Ready :=
  ⟨⟨rfl, nofun, rfl, fun _ => ⟨largest, by decide, rfl⟩, fun h => absurd rfl h⟩, ⟨by decide, by decide⟩, rfl, rfl, rfl, witness_Ready⟩
theorem witness_StepKeepsTheParameters : ∃ t, step sending = .next t := ⟨_, rfl⟩
theorem witness_OnlyTriggersHandOver :
    (∃ t, exec (.wr4Meta 5) State.reset = .next t) ∧ (∀ v, Instr.wr4Meta 5 ≠ .wr8Trig v) ∧
      (∀ k n m rsv tB tA pad, Instr.wr4Meta 5 ≠ .gemm k n m rsv tB tA pad) ∧
      (∀ k n m rsv tB tA it pad, Instr.wr4Meta 5 ≠ .record k n m rsv tB tA it pad) ∧ Instr.wr4Meta 5 ≠ .transmit ∧
      (∀ c, Instr.wr4Meta 5 ≠ .submit c) ∧ Instr.wr4Meta 5 ≠ .reset ∧ (∀ v, Instr.wr4Meta 5 ≠ .wr8St v) ∧
      (∀ v, Instr.wr4Meta 5 ≠ .wr4St v) ∧ Instr.wr4Meta 5 ≠ .setReceived :=
  ⟨⟨_, rfl⟩, nofun, nofun, nofun, nofun, nofun, nofun, nofun, nofun, nofun⟩
theorem witness_OnlyTriggersHandOver_steps :
    (∃ t, step sending = .next t) ∧ (∃ t, step State.reset = .next t) ∧
      (∃ t, step (withScript [.line (.command .reset [])]) = .next t) ∧
      (∃ t, step (withScript [.memWrite 0x20 [1, 0, 0, 0]]) = .next t) ∧
      (∀ a b, .store a b ∈ presented State.reset (.memWrite 0x20 [1, 0, 0, 0]) → route State.reset.params a = some 0x20 →
        b.length ≠ 8) ∧
      ∀ a b, .store a b ∈ presented State.reset (.memWrite 0x20 [1, 0, 0, 0]) →
        route State.reset.params a ≠ some State.reset.params.devStatus := by
  refine ⟨⟨_, rfl⟩, ⟨_, rfl⟩, ⟨_, rfl⟩, ⟨_, rfl⟩, ?_, ?_⟩ <;>
    · intro a b h
      obtain ⟨rfl, rfl⟩ : a = 0x20 ∧ b = [1, 0, 0, 0] := by simpa [presented, State.reset, heldByBarrier] using h
      decide
theorem witness_OnlyEncodeWritesTheRecord :
    (∃ t, exec (.encode second) State.reset = .next t) ∧ (∃ t, step sending = .next t) ∧
      (∃ t, step (withScript [.line (.command .encode (cmdInputs second))]) = .next t) ∧
      ∃ t, step (withScript [.encoderReset]) = .next t := ⟨⟨_, rfl⟩, ⟨_, rfl⟩, ⟨_, rfl⟩, ⟨_, rfl⟩⟩
theorem witness_OutcomeDependsOnCellsAndStatus :
    (∀ c args, Line.access ⟨.write, 0x20, 8, [1, 1, 1, 8, 0, 0, 0, 0]⟩ ≠ .command c args) ∧
      sending.params = State.reset.params ∧ sending.dev.w = State.reset.dev.w ∧
      sending.dev.status = State.reset.dev.status ∧
      ∃ t, runLine (.access ⟨.write, 0x20, 8, [1, 1, 1, 8, 0, 0, 0, 0]⟩) State.reset = .next t :=
  ⟨nofun, rfl, rfl, rfl, ⟨_, rfl⟩⟩
theorem witness_OnlyTheTriggerIsNotIdempotent :
    (Line.access ⟨.write, 0x20, 8, [1, 1, 1, 8, 0, 0, 0, 0]⟩).wf = true ∧
      ¬((⟨.read, 0x20, 8, []⟩ : Access).op = .write ∧ (⟨.read, 0x20, 8, []⟩ : Access).n = 8 ∧
        (⟨.read, 0x20, 8, []⟩ : Access).off = 0x20) := by decide

end Sys2Proof.Tests
end

section
/-! The device reset (R26 to R29, R210): what RESET does to a state, and the flag and the collector afterwards. -/

namespace Sys2Proof.Machine

@[simp] theorem Device.reset_valid : Device.reset.valid = false := rfl
@[simp] theorem Device.reset_fsm : Device.reset.fsm = .idle := rfl
@[simp] theorem State.reset_dev : State.reset.dev = Device.reset := rfl

/-- RESET completes from every state; it replaces the device and the reply only (R210, log 14). -/
theorem exec_reset (s : State) : exec .reset s = .next { s with dev := Device.reset, reply := .nothing } := rfl

/-- Settles O30: RESET leaves the device `Device.reset`, which is also the device of `State.reset`, and its flag is unset
and its collector idle. -/
theorem resetUnsetsTheFlag : Obligations.ResetUnsetsTheFlag := by
  unfold Obligations.ResetUnsetsTheFlag
  refine ⟨fun s => ⟨_, exec_reset s, Device.reset_valid, Device.reset_fsm⟩, ?_, ?_⟩
  · rw [State.reset_dev, Device.reset_valid]
  · rw [State.reset_dev, Device.reset_fsm]

end Sys2Proof.Machine
end

section
/-! Unpacking as arithmetic (R82, R83, R88, R90): every field of a word is its value divided by the weight of the field's lowest
bit, modulo the field's width. -/

namespace Sys2Proof.Machine

/-- A bit field as arithmetic: divide by the weight of its lowest bit, keep its width. -/
theorem toNat_extractLsb'_eq_div_mod {n : Nat} (w : BitVec n) (start len : Nat) :
    (w.extractLsb' start len).toNat = w.toNat / 2 ^ start % 2 ^ len := by
  rw [BitVec.extractLsb'_toNat, Nat.shiftRight_eq_div_pow]

section fieldValues
variable (w : Word64)

/-- A field that starts at bit 0 needs no division. -/
theorem toNat_extractLsb'_zero_eq_mod (len : Nat) : (w.extractLsb' 0 len).toNat = w.toNat % 2 ^ len := by
  rw [toNat_extractLsb'_eq_div_mod, Nat.pow_zero, Nat.div_one]

theorem strideMinorOf_toNat : (strideMinorOf w).toNat = w.toNat % 2 ^ 20 := toNat_extractLsb'_zero_eq_mod w 20

theorem strideMajorOf_toNat : (strideMajorOf w).toNat = w.toNat / 2 ^ 20 % 2 ^ 20 :=
  toNat_extractLsb'_eq_div_mod w 20 20

/-- The base address is the word's top field, so the division alone already fits its 24 bits. -/
theorem baseAddrOf_toNat : (baseAddrOf w).toNat = w.toNat / 2 ^ 40 := by
  have fits : w.toNat / 2 ^ 40 < 2 ^ 24 := Nat.div_lt_of_lt_mul w.isLt
  rw [baseAddrOf, toNat_extractLsb'_eq_div_mod, Nat.mod_eq_of_lt fits]

theorem kOf_toNat : (kOf w).toNat = w.toNat % 2 ^ 8 := toNat_extractLsb'_zero_eq_mod w 8

theorem nOf_toNat : (nOf w).toNat = w.toNat / 2 ^ 8 % 2 ^ 8 := toNat_extractLsb'_eq_div_mod w 8 8

theorem mOf_toNat : (mOf w).toNat = w.toNat / 2 ^ 16 % 2 ^ 8 := toNat_extractLsb'_eq_div_mod w 16 8

theorem bTransposeOf_toNat : (bTransposeOf w).toNat = w.toNat / 2 ^ 25 % 2 := toNat_extractLsb'_eq_div_mod w 25 1

theorem aTransposeOf_toNat : (aTransposeOf w).toNat = w.toNat / 2 ^ 26 % 2 := toNat_extractLsb'_eq_div_mod w 26 1

theorem itypeOf_toNat : (itypeOf w).toNat = w.toNat / 2 ^ 27 % 2 ^ 5 := toNat_extractLsb'_eq_div_mod w 27 5

end fieldValues

/-- R88 on a descriptor word: its base address times the role alignment. -/
theorem unpackOpd_realAddr (r : Role) (w : Word64) : (unpackOpd r w).realAddr = w.toNat / 2 ^ 40 * align r :=
  congrArg (· * align r) (baseAddrOf_toNat w)

/-- Settles O21: the unpacked fields are the slices of R90, and each slice is read as arithmetic on the word's value. -/
theorem unpackReadsTheFields : Obligations.UnpackReadsTheFields := by
  unfold Obligations.UnpackReadsTheFields
  refine ⟨fun r w => ⟨strideMinorOf_toNat w, strideMajorOf_toNat w, baseAddrOf_toNat w, ?_⟩, fun w =>
    ⟨kOf_toNat w[4], nOf_toNat w[4], mOf_toNat w[4], bTransposeOf_toNat w[4], aTransposeOf_toNat w[4], itypeOf_toNat w[4]⟩⟩
  rw [unpackOpd_realAddr]
  cases r <;> rfl

end Sys2Proof.Machine
end

section
/-! The encoder's pure functions BLOCKS and STRIDES (R110, R111), and how a command that fails its check ends (R114): every
command that checks comes down to the one refusal, `refuseCommand`. -/

namespace Sys2Proof.Machine

/-! ### Pure functions -/

theorem exec_blocks (d : Nat) (s : State) : exec (.blocks d) s = .next { s with reply := .number (block d) } := rfl

theorem exec_strides (nBlock kBlock : Nat) (s : State) :
    exec (.strides nBlock kBlock) s = .next { s with reply := .strides (stridesTx nBlock kBlock) } := rfl

/-- `block d` blocks of 64 cover `d`, and one block fewer would not. -/
theorem block_covers (d : Nat) : d ≤ 64 * block d ∧ 64 * block d < d + 64 := by
  rw [block_eq]
  omega

/-- The strides in word order Din, B, A, Dout. -/
theorem stridesTx_eq (nBlock kBlock : Nat) :
    stridesTx nBlock kBlock = [(nBlock, 1), (nBlock, 1), (kBlock, 1), (nBlock, 1)] := rfl

/-- Settles O31: BLOCKS answers `block d`, which is the quotient of R110 and covers `d` with no block to spare. -/
theorem blocksRoundsUp : Obligations.BlocksRoundsUp := by
  unfold Obligations.BlocksRoundsUp
  exact fun s d => ⟨block d, exec_blocks d s, block_eq d, block_covers d⟩

/-- Settles O32: STRIDES answers `stridesTx`, whose four pairs are those of R111. -/
theorem stridesOfTheFourDescriptors : Obligations.StridesOfTheFourDescriptors := by
  unfold Obligations.StridesOfTheFourDescriptors
  intro s nBlock kBlock
  rw [exec_strides, stridesTx_eq]

/-! ### Refused commands -/

/-- A refusal sets `err` and the reply, and nothing else (R114). -/
theorem refuseCommand_eq (e : EncError) (s : State) :
    refuseCommand e s = .next { s with enc := { s.enc with err := some (errName e) }, reply := .refused e } := rfl

section refused
variable {s : State} {c : Cmd} {e : EncError}

theorem validateAccepted_refused (raises : validateCmd c = some e) : validateAccepted c s = refuseCommand e s := by
  simp only [validateAccepted, raises]

theorem encodeAccepted_refused (raises : validateCmd c = some e) : encodeAccepted c s = refuseCommand e s := by
  simp only [encodeAccepted, raises]

theorem exec_validate_refused (idle : s.enc.step = .eIdle) (raises : validateCmd c = some e) :
    exec (.validate c) s = refuseCommand e s :=
  (whenIdle_idle idle _).trans (validateAccepted_refused raises)

theorem exec_encode_refused (idle : s.enc.step = .eIdle) (raises : validateCmd c = some e) :
    exec (.encode c) s = refuseCommand e s :=
  (whenIdle_idle idle _).trans (encodeAccepted_refused raises)

/-- SUBMIT's ENCODE leaves an error in `err`, so its TRANSMIT is not begun (R117). -/
theorem exec_submit_refused (idle : s.enc.step = .eIdle) (raises : validateCmd c = some e) :
    exec (.submit c) s = refuseCommand e s := by
  have errSet : some (errName e) ≠ none := Option.some_ne_none _
  change execSubmit c s = _
  rw [execSubmit, whenIdle_idle idle, encodeAccepted_refused raises, refuseCommand_eq]
  exact if_neg errSet

end refused

/-- Settles O39: each of the three commands comes down to `refuseCommand`, which writes `err` and the reply only. -/
theorem refusedCommandsSendNothing : Obligations.RefusedCommandsSendNothing := by
  unfold Obligations.RefusedCommandsSendNothing
  intro s c e idle raises
  rw [← refuseCommand_eq]
  exact ⟨exec_encode_refused idle raises, exec_submit_refused idle raises, exec_validate_refused idle raises⟩

end Sys2Proof.Machine
end

section
/-! A write that fails (R145). The rows of R95 send it to BAD_WR, whose run only answers the error, so that the line changes
nothing but the reply. -/

namespace Sys2Proof.Machine

/-! ### Which accesses fail -/

/-- The five word offsets of the instruction window are its multiples of 8 (R20). -/
theorem mem_wordOffsets_iff {off : Nat} : off ∈ [0x00, 0x08, 0x10, 0x18, 0x20] ↔ off < 0x28 ∧ off % 8 = 0 := by
  simp only [List.mem_cons, List.not_mem_nil, or_false]
  omega

/-- An access outside the length, offset and alignment combinations of R145 raises an error. -/
theorem accessError_of_not_listed {p : Params} {off n : Nat}
    (other : ¬((n = 4 ∨ n = 8) ∧ (off ∈ [0x00, 0x08, 0x10, 0x18, 0x20] ∨ off = p.devStatus))) :
    ∃ e, accessError p off n = some e := by
  rw [mem_wordOffsets_iff] at other
  refine Option.isSome_iff_exists.mp (accessError_isSome fun ⟨width, place⟩ => other ⟨width, ?_⟩)
  exact place.imp_right And.right

/-! ### How a failing write is decoded and run -/

section failingWrite
variable {off n : Nat} {bytes : List Byte} {e : AccessError}

/-- A write that raises an error is BAD_WR: each of the other six rows of R95 takes only accesses that succeed. -/
theorem decodeWrite_failing {p : Params} (len : bytes.length = n) (fails : accessError p off n = some e) :
    decodeWrite p off n bytes = .instr (.badWr off n bytes) := by
  have noSuccess : ¬((n = 4 ∨ n = 8) ∧ ((off < 0x28 ∧ off % 8 = 0) ∨ (0x28 ≤ off ∧ off = p.devStatus))) := by
    rw [← accessError_none_iff, fails]
    exact Option.some_ne_none e
  obtain ⟨hn, ho, -⟩ | ⟨hn, ho, -⟩ | ⟨hn, hw, -⟩ | ⟨hn, hw, -⟩ | ⟨i, hn, ho, -⟩ | ⟨i, hn, ho, -⟩ | ⟨-, row⟩ :=
    decodeWrite_cases p off n bytes len
  · exact absurd ⟨.inr hn, .inl (by omega)⟩ noSuccess
  · exact absurd ⟨.inl hn, .inl (by omega)⟩ noSuccess
  · exact absurd ⟨.inr hn, .inr (window_status_iff.mp hw)⟩ noSuccess
  · exact absurd ⟨.inl hn, .inr (window_status_iff.mp hw)⟩ noSuccess
  · exact absurd ⟨.inr hn, .inl (by omega)⟩ noSuccess
  · exact absurd ⟨.inl hn, .inl (by omega)⟩ noSuccess
  · exact row

/-- BAD_WR answers its error and changes nothing else of the state (R145, R188). -/
theorem exec_badWr (off n : Nat) (bytes : List Byte) (s : State) :
    exec (.badWr off n bytes) s = .next { s with reply := .failed (accessErrorName s.params off) off n } := rfl

/-- A line runs as the instruction it decodes to. -/
theorem runLine_of_decode {l : Line} {i : Instr} {s : State} (row : decode s.params l = .instr i) :
    runLine l s = exec i s := by
  simp only [runLine, row]

/-- The line of a failing write answers the error that the access raises, and changes nothing else. -/
theorem runLine_failing_write {s : State} (len : bytes.length = n) (fails : accessError s.params off n = some e) :
    runLine (.access ⟨.write, off, n, bytes⟩) s = .next { s with reply := .failed e off n } := by
  have row : decode s.params (.access ⟨.write, off, n, bytes⟩) = .instr (.badWr off n bytes) :=
    (decode_write s.params off n bytes).trans (decodeWrite_failing len fails)
  rw [runLine_of_decode row, exec_badWr, accessError_name fails]

end failingWrite

/-- Settles O9: an access that R145 does not list raises an error, and the line of a failing write answers it and changes
nothing else. -/
theorem failedWriteChangesNothing : Obligations.FailedWriteChangesNothing := by
  unfold Obligations.FailedWriteChangesNothing
  intro s off n bytes _ len other
  obtain ⟨e, fails⟩ := accessError_of_not_listed other
  exact ⟨e, runLine_failing_write len fails⟩

end Sys2Proof.Machine
end

section
/-! A read that fails (R163), and the accesses of either direction that lie in neither window (R181). The rows of R95 send a
failing read to BAD_RD, as they send a failing write to BAD_WR. -/

namespace Sys2Proof.Machine

/-! ### How a failing read is decoded and run -/

section failingRead
variable {off n : Nat} {e : AccessError}

/-- A read that raises an error is BAD_RD: each of the other six rows of R95 takes only accesses that succeed. -/
theorem decodeRead_failing {p : Params} (fails : accessError p off n = some e) :
    decodeRead p off n = .instr (.badRd off n) := by
  have notInsn (width : n = 4 ∨ n = 8) : ¬(off < 0x28 ∧ off % 8 = 0) := fun word =>
    absurd (accessError_none_iff.mpr ⟨width, .inl word⟩) (fails ▸ Option.some_ne_none e)
  have notStatus (width : n = 4 ∨ n = 8) : window p off ≠ .status := fun status =>
    absurd (accessError_none_iff.mpr ⟨width, .inr (window_status_iff.mp status)⟩) (fails ▸ Option.some_ne_none e)
  obtain ⟨hn, ho, -⟩ | ⟨hn, ho, -⟩ | ⟨hn, hw, -⟩ | ⟨hn, hw, -⟩ | ⟨i, hn, ho, -⟩ | ⟨i, hn, ho, -⟩ | ⟨-, row⟩ :=
    decodeRead_cases p off n
  · exact absurd (by omega) (notInsn (.inr hn))
  · exact absurd (by omega) (notInsn (.inl hn))
  · exact absurd hw (notStatus (.inr hn))
  · exact absurd hw (notStatus (.inl hn))
  · exact absurd (by omega) (notInsn (.inr hn))
  · exact absurd (by omega) (notInsn (.inl hn))
  · exact row

/-- BAD_RD answers its error and changes nothing else of the state (R163, R188). -/
theorem exec_badRd (off n : Nat) (s : State) :
    exec (.badRd off n) s = .next { s with reply := .failed (accessErrorName s.params off) off n } := rfl

/-- The line of a failing read answers the error that the access raises, and changes nothing else. -/
theorem runLine_failing_read {s : State} (fails : accessError s.params off n = some e) :
    runLine (.access ⟨.read, off, n, []⟩) s = .next { s with reply := .failed e off n } := by
  have row : decode s.params (.access ⟨.read, off, n, []⟩) = .instr (.badRd off n) :=
    (decode_read s.params off n).trans (decodeRead_failing fails)
  rw [runLine_of_decode row, exec_badRd, accessError_name fails]

end failingRead

/-! ### Accesses in neither window -/

/-- An offset in neither window raises InvalidOffset at every width: the width is checked only inside a window (R181). -/
theorem accessError_outside {p : Params} {off : Nat} (n : Nat) (above : 0x28 ≤ off) (other : off ≠ p.devStatus) :
    accessError p off n = some .invalidOffset := by
  have outside : window p off = .none := window_none_iff.mpr ⟨above, other⟩
  simp only [accessError, outside]

/-- Settles O11: outside both windows the access raises InvalidOffset, and the line of a failing access, write or read,
answers the error it raises. -/
theorem outsideWindowsIsInvalidOffset : Obligations.OutsideWindowsIsInvalidOffset := by
  unfold Obligations.OutsideWindowsIsInvalidOffset
  intro s off n bytes above other
  have fails : accessError s.params off n = some .invalidOffset := accessError_outside n above other
  exact ⟨fun len => runLine_failing_write len fails, runLine_failing_read fails⟩

end Sys2Proof.Machine
end

section
/-! The lines of the instructions (R80 to R84, R90 to R97): what the decoder answers for each form of line, and, from that,
that decoding and encoding undo each other. -/

namespace Sys2Proof.Machine

/-! ### The rows of R95, each from its own access -/

/-- Words 0 to 3 are not the trigger word. -/
theorem word_ne_triggerOffset (i : Fin 4) : 8 * i.val ≠ Config.triggerOffset := by
  simp only [Config.triggerOffset]
  omega

theorem window_word (p : Params) (i : Fin 4) : window p (8 * i.val) = .insn := window_insn (by omega)

section rows
variable {p : Params} {bytes : List Byte}

theorem decodeWrite_word (i : Fin 4) (len : bytes.length = 8) :
    decodeWrite p (8 * i.val) 8 bytes = .instr (.wr8W i (payload64 bytes)) := by
  simp [decodeWrite, len, word_ne_triggerOffset, window_word, wordIndex_word]

theorem decodeWrite_wordLow (i : Fin 4) (len : bytes.length = 4) :
    decodeWrite p (8 * i.val) 4 bytes = .instr (.wr4W i (payload32 bytes)) := by
  simp [decodeWrite, len, word_ne_triggerOffset, window_word, wordIndex_word]

theorem decodeWrite_trigger (len : bytes.length = 8) :
    decodeWrite p Config.triggerOffset 8 bytes = .instr (.wr8Trig (payload64 bytes)) := by
  simp [decodeWrite, len]

theorem decodeWrite_metaLow (len : bytes.length = 4) :
    decodeWrite p Config.triggerOffset 4 bytes = .instr (.wr4Meta (payload32 bytes)) := by
  simp [decodeWrite, len]

theorem decodeRead_word (i : Fin 4) : decodeRead p (8 * i.val) 8 = .instr (.rd8W i) := by
  simp [decodeRead, word_ne_triggerOffset, window_word, wordIndex_word]

theorem decodeRead_wordLow (i : Fin 4) : decodeRead p (8 * i.val) 4 = .instr (.rd4W i) := by
  simp [decodeRead, word_ne_triggerOffset, window_word, wordIndex_word]

theorem decodeRead_meta : decodeRead p Config.triggerOffset 8 = .instr .rd8Meta := by simp [decodeRead]

theorem decodeRead_metaLow : decodeRead p Config.triggerOffset 4 = .instr .rd4Meta := by simp [decodeRead]

/-- A status offset is not the trigger's: it lies above the instruction window (R53). -/
theorem ne_triggerOffset_of_status {off : Nat} (status : window p off = .status) : off ≠ Config.triggerOffset := by
  have above := (window_status_iff.mp status).1
  simp only [Config.triggerOffset]
  omega

variable {off : Nat} (status : window p off = .status)
include status

theorem decodeWrite_status (len : bytes.length = 8) :
    decodeWrite p off 8 bytes = .instr (.wr8St (payload64 bytes)) := by
  simp [decodeWrite, len, status, ne_triggerOffset_of_status status]

theorem decodeWrite_statusLow (len : bytes.length = 4) :
    decodeWrite p off 4 bytes = .instr (.wr4St (payload32 bytes)) := by
  simp [decodeWrite, len, status, ne_triggerOffset_of_status status]

theorem decodeRead_status : decodeRead p off 8 = .instr .rd8St := by
  simp [decodeRead, status, ne_triggerOffset_of_status status]

theorem decodeRead_statusLow : decodeRead p off 4 = .instr .rd4St := by
  simp [decodeRead, status, ne_triggerOffset_of_status status]

end rows

/-! ### Record words -/

/-- A record word of 8 bytes decodes by its number, whatever the parameters (R90, R94). -/
theorem decode_word (p : Params) (idx : Fin 5) {bytes : List Byte} (len : bytes.length = 8) :
    decode p (.word idx bytes) = .instr (decodeRecordWord idx (payload64 bytes)) :=
  if_neg (not_not.mpr len)

theorem decode_wordLine (p : Params) (idx : Fin 5) (w : Word64) :
    decode p (wordLine idx w) = .instr (decodeRecordWord idx w) := by
  rw [wordLine, decode_word p idx (wordBytes_length w), payload64_wordBytes]

section metaRows
variable (k n m : BitVec 8) (rsv tB tA : BitVec 1) (it : BitVec 5) (pad : Word32)

/-- GEMM is the specific row of word 4 (R93). -/
theorem decodeMeta_gemm :
    decodeMeta (metaWord k n m rsv tB tA Config.gemmType pad) = .gemm k n m rsv tB tA pad := by
  simp [decodeMeta]

/-- RECORD is the generic row of word 4 (R93). -/
theorem decodeMeta_record (other : it ≠ Config.gemmType) :
    decodeMeta (metaWord k n m rsv tB tA it pad) = .record k n m rsv tB tA it pad := by
  simp [decodeMeta, other]

end metaRows

/-- The instruction of a Meta word is well formed, and its line is that word (R91 to R93). -/
theorem decodeMeta_wf_encode (p : Params) (w : Word64) :
    (decodeMeta w).wf p = true ∧ encode p (decodeMeta w) = wordLine 4 w := by
  by_cases gemm : itypeOf w = Config.gemmType
  · have row : decodeMeta w = .gemm (kOf w) (nOf w) (mOf w) (reservedOf w) (bTransposeOf w) (aTransposeOf w)
        (paddingOf w) := if_pos gemm
    rw [row]
    refine ⟨rfl, ?_⟩
    rw [encode, ← gemm, metaWord_fields]
  · have row : decodeMeta w = .record (kOf w) (nOf w) (mOf w) (reservedOf w) (bTransposeOf w) (aTransposeOf w)
        (itypeOf w) (paddingOf w) := if_neg gemm
    rw [row]
    refine ⟨bne_iff_ne.mpr gemm, ?_⟩
    rw [encode, metaWord_fields]

/-- The instruction of a record word is well formed, and its line is that word (R82, R83, R94). -/
theorem decodeRecordWord_wf_encode (p : Params) (idx : Fin 5) (w : Word64) :
    (decodeRecordWord idx w).wf p = true ∧ encode p (decodeRecordWord idx w) = wordLine idx w := by
  match idx with
  | 0 => exact ⟨rfl, congrArg (wordLine 0) (opdWord_fields w)⟩
  | 1 => exact ⟨rfl, congrArg (wordLine 1) (opdWord_fields w)⟩
  | 2 => exact ⟨rfl, congrArg (wordLine 2) (opdWord_fields w)⟩
  | 3 => exact ⟨rfl, congrArg (wordLine 3) (opdWord_fields w)⟩
  | 4 => exact decodeMeta_wf_encode p w

/-! ### Commands -/

/-- A command whose addresses have ADDR_BITS bits is decoded from its ten inputs (R97, R112). -/
theorem decodeCmd_cmdInputs {p : Params} {c : Cmd} (make : Cmd → Instr) (wf : c.wf p = true) :
    decodeCmd p make (cmdInputs c) = .instr (make c) := by
  rw [decodeCmd, cmdOfInputs_cmdInputs]
  exact if_pos wf

theorem roleOfNat_roleIndex (r : Role) : roleOfNat (roleIndex r) = some r := by cases r <;> rfl

theorem decodeScale_inputs {p : Params} {addr : Nat} (r : Role) (fits : addr < 2 ^ p.addrBits) :
    decodeScale p [roleIndex r, addr] = .instr (.scale r addr) := by
  simp only [decodeScale, roleOfNat_roleIndex, if_pos fits]

/-! ### Decoding undoes encoding -/

/-- A failing access is decoded to BAD_WR or BAD_RD with its operands (R95, last rows). -/
theorem decode_badWr {p : Params} {off n : Nat} {bytes : List Byte} (wf : (Instr.badWr off n bytes).wf p = true) :
    decode p (.access ⟨.write, off, n, bytes⟩) = .instr (.badWr off n bytes) := by
  simp only [Instr.wf, Bool.and_eq_true, beq_iff_eq] at wf
  obtain ⟨fails, len⟩ := wf
  obtain ⟨e, fails⟩ := Option.isSome_iff_exists.mp fails
  exact decodeWrite_failing len fails

theorem decode_badRd {p : Params} {off n : Nat} (wf : (Instr.badRd off n).wf p = true) :
    decode p (readLine off n) = .instr (.badRd off n) := by
  obtain ⟨e, fails⟩ := Option.isSome_iff_exists.mp wf
  exact decodeRead_failing fails

section access
variable {p : Params} {off : Nat}

/-- An 8-byte write line is decoded with the value it was made from. -/
theorem decode_writeLine8 {make : Word64 → Instr} (v : Word64)
    (row : ∀ bytes : List Byte, bytes.length = 8 → decodeWrite p off 8 bytes = .instr (make (payload64 bytes))) :
    decode p (writeLine8 off v) = .instr (make v) := by
  rw [writeLine8, decode_write, row _ (wordBytes_length v), payload64_wordBytes]

/-- A 4-byte write line is decoded with the value it was made from. -/
theorem decode_writeLine4 {make : Word32 → Instr} (v : Word32)
    (row : ∀ bytes : List Byte, bytes.length = 4 → decodeWrite p off 4 bytes = .instr (make (payload32 bytes))) :
    decode p (writeLine4 off v) = .instr (make v) := by
  rw [writeLine4, decode_write, row _ (halfBytes_length v), payload32_halfBytes]

end access

/-- Settles O1, by the constructors of `Instr`: an access by its row of R95, a record word by its fields, a command by its
inputs. -/
theorem decodeEncodeRoundTrip : Obligations.DecodeEncodeRoundTrip := by
  unfold Obligations.DecodeEncodeRoundTrip
  intro p i wfp wfi
  have status := window_devStatus wfp
  cases i with
  | wr8W i v => exact decode_writeLine8 v fun _ => decodeWrite_word i
  | wr8Trig v => exact decode_writeLine8 v fun _ => decodeWrite_trigger
  | wr4W i v => exact decode_writeLine4 v fun _ => decodeWrite_wordLow i
  | wr4Meta v => exact decode_writeLine4 v fun _ => decodeWrite_metaLow
  | rd8W i => exact decodeRead_word i
  | rd8Meta => exact decodeRead_meta (p := p)
  | rd4W i => exact decodeRead_wordLow i
  | rd4Meta => exact decodeRead_metaLow (p := p)
  | rd8St => exact decodeRead_status status
  | rd4St => exact decodeRead_statusLow status
  | wr8St v => exact decode_writeLine8 v fun _ => decodeWrite_status status
  | wr4St v => exact decode_writeLine4 v fun _ => decodeWrite_statusLow status
  | badWr off n bytes => exact decode_badWr wfi
  | badRd off n => exact decode_badRd wfi
  | gemm k n m rsv tB tA pad =>
    exact (decode_wordLine p 4 _).trans (congrArg _ (decodeMeta_gemm k n m rsv tB tA pad))
  | record k n m rsv tB tA it pad =>
    exact (decode_wordLine p 4 _).trans
      (congrArg _ (decodeMeta_record k n m rsv tB tA it pad (bne_iff_ne.mp wfi)))
  | opdDin sm sM ba => rw [encode, decode_wordLine]; simp [decodeRecordWord]
  | opdB sm sM ba => rw [encode, decode_wordLine]; simp [decodeRecordWord]
  | opdA sm sM ba => rw [encode, decode_wordLine]; simp [decodeRecordWord]
  | opdDout sm sM ba => rw [encode, decode_wordLine]; simp [decodeRecordWord]
  | validate c => exact decodeCmd_cmdInputs .validate wfi
  | encode c => exact decodeCmd_cmdInputs .encode wfi
  | submit c => exact decodeCmd_cmdInputs .submit wfi
  | scale r addr => exact decodeScale_inputs r (decide_eq_true_eq.mp wfi)
  | blocks d => rfl
  | strides nb kb => rfl
  | packOpd sm sM ba => rfl
  | packMeta k n m tB tA it => rfl
  | transmit => rfl
  | decode => rfl
  | setReceived => rfl
  | reset => rfl

/-- Settles O2: 8 bytes decode to the instruction of their word, and the word's line has those bytes. -/
theorem recordWordsRoundTrip : Obligations.RecordWordsRoundTrip := by
  unfold Obligations.RecordWordsRoundTrip
  intro p idx bytes len
  obtain ⟨wf, line⟩ := decodeRecordWord_wf_encode p idx (payload64 bytes)
  refine ⟨_, decode_word p idx len, wf, ?_⟩
  rw [line, wordLine, wordBytes_payload64 bytes len]

/-! ### Encoding undoes decoding -/

/-- An 8-byte write line made from a payload carries that payload. -/
theorem writeLine8_payload64 (off : Nat) {bytes : List Byte} (len : bytes.length = 8) :
    writeLine8 off (payload64 bytes) = .access ⟨.write, off, 8, bytes⟩ := by
  rw [writeLine8, wordBytes_payload64 bytes len]

/-- A 4-byte write line made from a payload carries that payload. -/
theorem writeLine4_payload32 (off : Nat) {bytes : List Byte} (len : bytes.length = 4) :
    writeLine4 off (payload32 bytes) = .access ⟨.write, off, 4, bytes⟩ := by
  rw [writeLine4, halfBytes_payload32 bytes len]

/-- A write whose payload has its width decodes, and the instruction's line is the write. -/
theorem decodeWrite_wf_encode (p : Params) (off n : Nat) (bytes : List Byte) (len : bytes.length = n) :
    ∃ i, decodeWrite p off n bytes = .instr i ∧ i.wf p = true ∧ encode p i = .access ⟨.write, off, n, bytes⟩ := by
  obtain ⟨rfl, rfl, row⟩ | ⟨rfl, rfl, row⟩ | ⟨rfl, hw, row⟩ | ⟨rfl, hw, row⟩ | ⟨i, rfl, rfl, row⟩ | ⟨i, rfl, rfl, row⟩ |
    ⟨fails, row⟩ := decodeWrite_cases p off n bytes len
  · exact ⟨_, row, rfl, writeLine8_payload64 _ len⟩
  · exact ⟨_, row, rfl, writeLine4_payload32 _ len⟩
  · obtain ⟨-, rfl⟩ := window_status_iff.mp hw
    exact ⟨_, row, rfl, writeLine8_payload64 _ len⟩
  · obtain ⟨-, rfl⟩ := window_status_iff.mp hw
    exact ⟨_, row, rfl, writeLine4_payload32 _ len⟩
  · exact ⟨_, row, rfl, writeLine8_payload64 _ len⟩
  · exact ⟨_, row, rfl, writeLine4_payload32 _ len⟩
  · exact ⟨_, row, Bool.and_eq_true_iff.mpr ⟨fails, beq_iff_eq.mpr len⟩, rfl⟩

/-- A read decodes, and the instruction's line is the read. -/
theorem decodeRead_wf_encode (p : Params) (off n : Nat) :
    ∃ i, decodeRead p off n = .instr i ∧ i.wf p = true ∧ encode p i = readLine off n := by
  obtain ⟨rfl, rfl, row⟩ | ⟨rfl, rfl, row⟩ | ⟨rfl, hw, row⟩ | ⟨rfl, hw, row⟩ | ⟨i, rfl, rfl, row⟩ | ⟨i, rfl, rfl, row⟩ |
    ⟨fails, row⟩ := decodeRead_cases p off n
  · exact ⟨_, row, rfl, rfl⟩
  · exact ⟨_, row, rfl, rfl⟩
  · obtain ⟨-, rfl⟩ := window_status_iff.mp hw
    exact ⟨_, row, rfl, rfl⟩
  · obtain ⟨-, rfl⟩ := window_status_iff.mp hw
    exact ⟨_, row, rfl, rfl⟩
  · exact ⟨_, row, rfl, rfl⟩
  · exact ⟨_, row, rfl, rfl⟩
  · exact ⟨_, row, fails, rfl⟩

/-- A well-formed access is a write whose payload has its width, or a read without payload (R96, R140). -/
theorem access_cases {a : Access} (wf : (Line.access a).wf = true) :
    (∃ off bytes, a = ⟨.write, off, bytes.length, bytes⟩) ∨ ∃ off n, a = ⟨.read, off, n, []⟩ := by
  obtain ⟨op, off, n, bytes⟩ := a
  cases op with
  | write =>
    have len : bytes.length = n := beq_iff_eq.mp wf
    exact .inl ⟨off, bytes, by rw [len]⟩
  | read =>
    have empty : bytes = [] := List.length_eq_zero_iff.mp (beq_iff_eq.mp wf)
    exact .inr ⟨off, n, by rw [empty]⟩

/-- Settles O3: a well-formed access is a write or a read of R96, and the rows of R95 decode either to an instruction whose
line it is. -/
theorem accessLinesRoundTrip : Obligations.AccessLinesRoundTrip := by
  unfold Obligations.AccessLinesRoundTrip
  intro p a wf
  obtain ⟨off, bytes, rfl⟩ | ⟨off, n, rfl⟩ := access_cases wf
  · exact decodeWrite_wf_encode p off _ bytes rfl
  · exact decodeRead_wf_encode p off n

/-- Settles O4: each line is a closed term, and the decoder computes its instruction. -/
theorem specLinesDecode : Obligations.SpecLinesDecode := by
  unfold Obligations.SpecLinesDecode
  decide

/-! ### The head of the script -/

section script
variable {s : State} {e : Event} {l : Line} {rest : List Event}

/-- A step takes the head of the script and runs it on the state without it (log 1). -/
theorem step_of_script (head : s.script = e :: rest) : step s = runEvent e { s with script := rest } := by
  simp only [step, runNext, head]

/-- With no event pending a step changes nothing (log 2). -/
theorem step_of_no_script (empty : s.script = []) : step s = .next s := by
  simp only [step, runNext, empty]

theorem runLine_of_rejected {e : LineError} (row : decode s.params l = .rejected e) :
    runLine l s = .refused (.malformedLine e) := by
  simp only [runLine, row]

end script

/-- Settles O5: a step is the event at the head of the script, and a line runs as what it decodes to. -/
theorem stepRunsDecodedLine : Obligations.StepRunsDecodedLine := by
  unfold Obligations.StepRunsDecodedLine
  intro s rest
  refine ⟨fun l i head row => ?_, fun l e head row => ?_, step_of_no_script⟩
  · exact (step_of_script head).trans (runLine_of_decode row)
  · exact (step_of_script head).trans (runLine_of_rejected row)

/-- A table word is a record word, and no parameter enters its decoding (log 4). -/
theorem decode_tableLine {nbits w : Nat} {i : Instr} (p : Params) (table : decodeTableWord nbits w = some i) :
    decode p (tableLine nbits w) = .instr i := by
  change decode Params.default (tableLine nbits w) = .instr i
  unfold decodeTableWord at table
  cases decoded : decode Params.default (tableLine nbits w) with
  | instr j => rw [decoded] at table; cases table; rfl
  | rejected e => rw [decoded] at table; cases table

/-- The placed word is the next event, on the state as it was (log 4). -/
theorem step_withFetchWord (s : State) (nbits w : Nat) :
    step (s.withFetchWord nbits w) = runLine (tableLine nbits w) s := rfl

/-- Settles O6: the placed word runs as its line, and its line decodes as the table says. -/
theorem tableWordRunsNext : Obligations.TableWordRunsNext := by
  unfold Obligations.TableWordRunsNext
  intro s nbits w i table
  exact (step_withFetchWord s nbits w).trans (runLine_of_decode (decode_tableLine s.params table))

end Sys2Proof.Machine
end

section
/-! What an instruction and what an event can do, said once, and the rules that hold of every step for that reason: the
invariant, the parameters and the script, and who writes `REC`. -/

namespace Sys2Proof.Machine

/-! ### What an instruction can do -/

/-- What an instruction does to the device by itself: the update of its row, and nothing where the row has none. TRANSMIT and
SUBMIT reach the device only through the serializer (R116), so they have no update of their own. -/
def ownEffect (d : Device) : Instr → Device
  | .wr8W i v => d.storeWhole i.castSucc v
  | .wr8Trig v => d.trigger v
  | .wr4W i v => d.storeLow i.castSucc v
  | .wr4Meta v => d.storeLow 4 v
  | .wr8St v => d.setStatus v
  | .wr4St v => d.storeStatusLow v
  | .gemm k n m rsv tB tA pad => d.trigger (metaWord k n m rsv tB tA Config.gemmType pad)
  | .record k n m rsv tB tA it pad => d.trigger (metaWord k n m rsv tB tA it pad)
  | .opdDin sm sM ba => d.storeWhole 0 (opdWord sm sM ba)
  | .opdB sm sM ba => d.storeWhole 1 (opdWord sm sM ba)
  | .opdA sm sM ba => d.storeWhole 2 (opdWord sm sM ba)
  | .opdDout sm sM ba => d.storeWhole 3 (opdWord sm sM ba)
  | .setReceived => d.setReceived
  | .reset => Device.reset
  | .rd8W _ | .rd8Meta | .rd4W _ | .rd4Meta | .rd8St | .rd4St | .badWr _ _ _ | .badRd _ _ | .blocks _ | .strides _ _
  | .validate _ | .packOpd _ _ _ | .packMeta _ _ _ _ _ _ | .scale _ _ | .encode _ | .transmit | .submit _ | .decode => d

section commands
variable {s : State}

theorem exec_transmit_idle (idle : s.enc.step = .eIdle) : exec .transmit s = transmitAccepted s := whenIdle_idle idle _

/-- ENCODE of a command that passes writes its record (R115). -/
theorem exec_encode_passed {c : Cmd} (idle : s.enc.step = .eIdle) (passes : validateCmd c = none) :
    exec (.encode c) s = .next { s with enc := s.enc.setRecord (buildRecord c), reply := .done } := by
  refine (whenIdle_idle idle _).trans ?_
  simp only [encodeAccepted, passes]

/-- SUBMIT of a command that passes is TRANSMIT's own effect after ENCODE's (R117). -/
theorem exec_submit_passed {c : Cmd} (idle : s.enc.step = .eIdle) (passes : validateCmd c = none) :
    exec (.submit c) s = transmitAccepted { s with enc := s.enc.setRecord (buildRecord c), reply := .done } := by
  refine (whenIdle_idle idle _).trans ?_
  simp only [encodeAccepted, passes, Encoder.setRecord_err, if_true]

/-- A command in a busy encoder is turned away (R117, log 9). -/
theorem exec_busy {i : Instr} (busy : s.enc.step ≠ .eIdle)
    (command : (∃ c, i = .validate c ∨ i = .encode c ∨ i = .submit c) ∨ i = .transmit) :
    exec i s = .next { s with reply := .turnedAway } := by
  obtain ⟨c, rfl | rfl | rfl⟩ | rfl := command <;> exact whenIdle_busy busy _

end commands

/-- What an instruction can do: its own update of the device; or, as a command, a new `err`; or ENCODE's record; or the
transmission of TRANSMIT and SUBMIT. -/
theorem exec_cases (i : Instr) (s : State) :
    (∃ r, exec i s = .next { s with dev := ownEffect s.dev i, reply := r }) ∨
    (∃ x r, exec i s = .next { s with enc := { s.enc with err := x }, reply := r }) ∨
    (∃ c, i = .encode c ∧ validateCmd c = none ∧
      exec i s = .next { s with enc := s.enc.setRecord (buildRecord c), reply := .done }) ∨
    (i = .transmit ∧ s.enc.step = .eIdle ∧ exec i s = transmitAccepted s) ∨
    ∃ c, i = .submit c ∧ validateCmd c = none ∧
      exec i s = transmitAccepted { s with enc := s.enc.setRecord (buildRecord c), reply := .done } := by
  have turnedAway (command : (∃ c, i = .validate c ∨ i = .encode c ∨ i = .submit c) ∨ i = .transmit)
      (busy : s.enc.step ≠ .eIdle) : ∃ x r, exec i s = .next { s with enc := { s.enc with err := x }, reply := r } :=
    ⟨s.enc.err, .turnedAway, exec_busy busy command⟩
  cases i with
  | validate c => exact .inr (.inl (execValidate_next c s))
  | packOpd sm sM ba => exact .inr (.inl (checkedValue_next _ _ s))
  | packMeta k n m tB tA it => exact .inr (.inl (checkedValue_next _ _ s))
  | encode c =>
    by_cases idle : s.enc.step = .eIdle
    · cases check : validateCmd c with
      | none => exact .inr (.inr (.inl ⟨c, rfl, check, exec_encode_passed idle check⟩))
      | some e => exact .inr (.inl ⟨_, _, exec_encode_refused idle check⟩)
    · exact .inr (.inl (turnedAway (.inl ⟨c, .inr (.inl rfl)⟩) idle))
  | transmit =>
    by_cases idle : s.enc.step = .eIdle
    · exact .inr (.inr (.inr (.inl ⟨rfl, idle, exec_transmit_idle idle⟩)))
    · exact .inr (.inl (turnedAway (.inr rfl) idle))
  | submit c =>
    by_cases idle : s.enc.step = .eIdle
    · cases check : validateCmd c with
      | none => exact .inr (.inr (.inr (.inr ⟨c, rfl, check, exec_submit_passed idle check⟩)))
      | some e => exact .inr (.inl ⟨_, _, exec_submit_refused idle check⟩)
    · exact .inr (.inl (turnedAway (.inl ⟨c, .inr (.inr rfl)⟩) idle))
  | _ => exact .inl ⟨_, rfl⟩

/-! ### What an event can do -/

/-- An event that is no line writes the device by device writes alone, and touches the encoder only as the serializer or as
its reset. -/
theorem runEvent_next {e : Event} {s t : State} (noLine : ∀ l, e ≠ .line l) (h : runEvent e s = .next t) :
    OnlyWrites s t ∧
      (t.enc = s.enc ∨ (s.enc.step = .eIdle ∧ t.enc = s.enc.goto .tx0) ∨ serializerStep s = .next t ∨
        (e = .encoderReset ∧ t.enc = Encoder.reset)) := by
  cases e with
  | line l => exact absurd rfl (noLine l)
  | memWrite addr bytes => exact (producerStore_onlyWrites h).imp_right .inl
  | memRead addr n => exact (presentLoad_onlyWrites h).imp_right .inl
  | post addr bytes => cases h; exact ⟨.of_eq rfl rfl rfl, .inl rfl⟩
  | deliver j => exact (deliverStore_onlyWrites h).imp_right .inl
  | compilerBarrier => exact (compilerBarrier_onlyWrites h).imp_right .inl
  | fullBarrier => exact (fullBarrier_onlyWrites h).imp_right .inl
  | txBegin =>
    by_cases idle : s.enc.step = .eIdle
    · cases (whenIdle_idle idle _).symm.trans h
      exact ⟨.of_eq rfl rfl rfl, .inr (.inl ⟨idle, rfl⟩)⟩
    · cases (whenIdle_busy idle _).symm.trans h
      exact ⟨.of_eq rfl rfl rfl, .inl rfl⟩
  | txAdvance => exact ⟨(serializerStep_next h).1, .inr (.inr (.inl h))⟩
  | encoderReset => cases h; exact ⟨.of_eq rfl rfl rfl, .inr (.inr (.inr ⟨rfl, rfl⟩))⟩

/-- A step with an event pending: a line that decodes is its instruction, and any other event is run; on the state without the
event (log 1). -/
theorem step_cases {s t : State} (h : step s = .next t) :
    (s.script = [] ∧ t = s) ∨
    ∃ e rest, s.script = e :: rest ∧
      ((∃ l i, e = .line l ∧ decode s.params l = .instr i ∧ exec i { s with script := rest } = .next t) ∨
        ((∀ l, e ≠ .line l) ∧ runEvent e { s with script := rest } = .next t)) := by
  cases script : s.script with
  | nil =>
    rw [step_of_no_script script] at h
    cases h
    exact .inl ⟨rfl, rfl⟩
  | cons e rest =>
    rw [step_of_script script] at h
    refine .inr ⟨e, rest, rfl, ?_⟩
    cases e with
    | line l =>
      change runLine l { s with script := rest } = .next t at h
      cases row : decode s.params l with
      | instr i => exact .inl ⟨l, i, rfl, row, (runLine_of_decode (s := { s with script := rest }) row).symm.trans h⟩
      | rejected x => cases (runLine_of_rejected (s := { s with script := rest }) row).symm.trans h
    | _ => exact .inr ⟨nofun, h⟩

/-! ### The invariant -/

/-- The device's part of the invariant (R21 to R23, R25). -/
def Device.Inv (d : Device) : Prop :=
  d.valid = false ∧ d.fsm ≠ .triggered ∧ d.icount = BitVec.ofNat 64 d.execLog.length

/-- The encoder's part of the invariant (R31, R33). -/
def Encoder.Inv (e : Encoder) : Prop :=
  (e.recWritten = true → ∃ c, validateCmd c = none ∧ e.recWords = buildRecord c) ∧
    (e.step ≠ .eIdle → e.step ≠ .tx0 → e.recWritten = true)

theorem State.inv_iff {s : State} : s.Inv ↔ s.dev.Inv ∧ s.enc.Inv :=
  ⟨fun ⟨valid, fsm, count, checked, sending⟩ => ⟨⟨valid, fsm, count⟩, checked, sending⟩,
    fun ⟨⟨valid, fsm, count⟩, checked, sending⟩ => ⟨valid, fsm, count, checked, sending⟩⟩

theorem Device.reset_inv : Device.reset.Inv := ⟨rfl, nofun, rfl⟩

theorem Encoder.reset_inv : Encoder.reset.Inv := ⟨nofun, fun notIdle => absurd rfl notIdle⟩

section deviceInv
variable {d : Device} (inv : d.Inv)
include inv

theorem Device.Inv.setStatus (v : Word64) : (d.setStatus v).Inv := inv

theorem Device.Inv.storeStatusLow (v : Word32) : (d.storeStatusLow v).Inv := inv

theorem Device.Inv.storeWhole (i : Fin 5) (v : Word64) : (d.storeWhole i v).Inv := ⟨inv.1, nofun, inv.2.2⟩

theorem Device.Inv.storeLow (i : Fin 5) (v : Word32) : (d.storeLow i v).Inv := ⟨inv.1, nofun, inv.2.2⟩

/-- The trigger counts the record it hands over. -/
theorem Device.Inv.trigger (v : Word64) : (d.trigger v).Inv := by
  obtain ⟨-, -, count⟩ := inv
  refine ⟨rfl, nofun, ?_⟩
  rw [Device.trigger_icount, Device.trigger_execLog, count, List.length_append, List.length_singleton, BitVec.ofNat_add]

theorem Device.Inv.ownEffect (i : Instr) : (ownEffect d i).Inv := by
  cases i with
  | wr8W i v => exact inv.storeWhole _ v
  | wr8Trig v => exact inv.trigger v
  | wr4W i v => exact inv.storeLow _ v
  | wr4Meta v => exact inv.storeLow _ v
  | wr8St v => exact inv.setStatus v
  | wr4St v => exact inv.storeStatusLow v
  | gemm k n m rsv tB tA pad => exact inv.trigger _
  | record k n m rsv tB tA it pad => exact inv.trigger _
  | opdDin sm sM ba => exact inv.storeWhole _ _
  | opdB sm sM ba => exact inv.storeWhole _ _
  | opdA sm sM ba => exact inv.storeWhole _ _
  | opdDout sm sM ba => exact inv.storeWhole _ _
  | setReceived => exact inv.setStatus _
  | reset => exact Device.reset_inv
  | _ => exact inv

end deviceInv

/-- Device writes keep the device's part, whatever is written where. -/
theorem OnlyWrites.device_inv {s t : State} (writes : OnlyWrites s t) (inv : s.dev.Inv) : t.dev.Inv :=
  writes.dev Device.Inv
    (fun _ _ _ _ _ _ write => devWrite_keeps Device.Inv (fun _ v => (·.setStatus v)) (fun _ v => (·.storeStatusLow v))
      (fun _ v => (·.trigger v)) (fun _ i v => (·.storeWhole i v)) (fun _ i v => (·.storeLow i v)) write) inv

/-- A new `err` keeps the encoder's part. -/
theorem Encoder.Inv.setErr {e : Encoder} (inv : e.Inv) (x : Option EncErrName) : ({ e with err := x } : Encoder).Inv := inv

/-- The record of a command that passes keeps the encoder's part (R31). -/
theorem Encoder.Inv.setRecord (e : Encoder) {c : Cmd} (passes : validateCmd c = none) :
    (e.setRecord (buildRecord c)).Inv := ⟨fun _ => ⟨c, passes, rfl⟩, fun _ _ => rfl⟩

/-- A transmission keeps the encoder's part: its record is the checked one it began with. -/
theorem transmitAccepted_inv {s t : State} (inv : s.Inv) (h : transmitAccepted s = .next t) : t.Inv := by
  obtain ⟨dev, checked, -⟩ := State.inv_iff.mp inv
  obtain ⟨writes, written, words, written', -⟩ := transmitAccepted_next h
  refine State.inv_iff.mpr ⟨writes.device_inv dev, fun _ => ?_, fun _ _ => written'⟩
  rw [words]
  exact checked written

/-- A position of the serializer keeps the encoder's part: it leaves `Tx0` with a written `REC` only (R33). -/
theorem serializerStep_encoder_inv {s t : State} (inv : s.enc.Inv) (h : serializerStep s = .next t) : t.enc.Inv := by
  obtain ⟨-, words, written, -, idle, first⟩ := serializerStep_next h
  obtain ⟨checked, sending⟩ := inv
  refine ⟨fun w => ?_, fun notIdle _ => ?_⟩
  · rw [words]
    exact checked (written.symm.trans w)
  · rw [written]
    by_cases atTx0 : s.enc.step = .tx0
    · exact first atTx0
    · exact sending (fun atIdle => notIdle (idle atIdle ▸ atIdle)) atTx0

/-- Every instruction keeps the invariant. -/
theorem exec_inv {i : Instr} {s t : State} (inv : s.Inv) (h : exec i s = .next t) : t.Inv := by
  obtain ⟨dev, enc⟩ := State.inv_iff.mp inv
  obtain ⟨r, eq⟩ | ⟨x, r, eq⟩ | ⟨c, -, passes, eq⟩ | ⟨-, -, eq⟩ | ⟨c, -, passes, eq⟩ := exec_cases i s <;> rw [eq] at h
  · cases h
    exact State.inv_iff.mpr ⟨dev.ownEffect i, enc⟩
  · cases h
    exact State.inv_iff.mpr ⟨dev, enc.setErr x⟩
  · cases h
    exact State.inv_iff.mpr ⟨dev, .setRecord s.enc passes⟩
  · exact transmitAccepted_inv inv h
  · refine transmitAccepted_inv (State.inv_iff.mpr ⟨?_, ?_⟩) h
    · exact dev
    · exact .setRecord s.enc passes

/-- Every event that is no line keeps the invariant. -/
theorem runEvent_inv {e : Event} {s t : State} (noLine : ∀ l, e ≠ .line l) (inv : s.Inv) (h : runEvent e s = .next t) :
    t.Inv := by
  obtain ⟨dev, enc⟩ := State.inv_iff.mp inv
  obtain ⟨writes, same | ⟨-, begun⟩ | position | ⟨-, reset⟩⟩ := runEvent_next noLine h <;>
    refine State.inv_iff.mpr ⟨writes.device_inv dev, ?_⟩
  · rw [same]
    exact enc
  · rw [begun]
    exact ⟨enc.1, fun _ notTx0 => absurd rfl notTx0⟩
  · exact serializerStep_encoder_inv enc position
  · rw [reset]
    exact Encoder.reset_inv

/-- The invariant does not speak of the script. -/
theorem State.Inv.withScript {s : State} (inv : s.Inv) (script : List Event) : ({ s with script } : State).Inv :=
  have ⟨dev, enc⟩ := State.inv_iff.mp inv
  State.inv_iff.mpr ⟨dev, enc⟩

/-- Settles O54: an instruction keeps the invariant by what `exec_cases` says it can do, any other event by what
`runEvent_next` says. -/
theorem stepKeepsTheInvariant : Obligations.StepKeepsTheInvariant := by
  unfold Obligations.StepKeepsTheInvariant
  intro s t inv h
  obtain ⟨-, rfl⟩ | ⟨e, rest, -, ⟨l, i, -, -, run⟩ | ⟨noLine, run⟩⟩ := step_cases h
  · exact inv
  · exact exec_inv (inv.withScript rest) run
  · exact runEvent_inv noLine (inv.withScript rest) run

/-- Settles O55: either side's reset values have its part of the invariant. -/
theorem resetHasTheInvariant : Obligations.ResetHasTheInvariant := by
  unfold Obligations.ResetHasTheInvariant
  exact State.inv_iff.mpr ⟨Device.reset_inv, Encoder.reset_inv⟩

/-! ### The parameters and the script -/

/-- No instruction touches the parameters or the script. -/
theorem exec_params_script {i : Instr} {s t : State} (h : exec i s = .next t) :
    t.params = s.params ∧ t.script = s.script := by
  obtain ⟨r, eq⟩ | ⟨x, r, eq⟩ | ⟨c, -, -, eq⟩ | ⟨-, -, eq⟩ | ⟨c, -, -, eq⟩ := exec_cases i s <;> rw [eq] at h
  · cases h; exact ⟨rfl, rfl⟩
  · cases h; exact ⟨rfl, rfl⟩
  · cases h; exact ⟨rfl, rfl⟩
  · have writes := (transmitAccepted_next h).1
    exact ⟨writes.params, writes.script⟩
  · have writes := (transmitAccepted_next h).1
    exact ⟨writes.params, writes.script⟩

/-- Settles O56: the step takes the head of the script, and neither an instruction nor an event touches what is left. -/
theorem stepKeepsTheParameters : Obligations.StepKeepsTheParameters := by
  unfold Obligations.StepKeepsTheParameters
  intro s t h
  obtain ⟨empty, rfl⟩ | ⟨e, rest, script, ⟨l, i, -, -, run⟩ | ⟨noLine, run⟩⟩ := step_cases h
  · exact ⟨rfl, by rw [empty, List.tail_nil]⟩
  · rw [script]
    exact exec_params_script run
  · rw [script]
    have writes := (runEvent_next noLine run).1
    exact ⟨writes.params, writes.script⟩

/-! ### Who writes `REC` -/

/-- An instruction writes `REC` only as ENCODE or SUBMIT of a command that passes (R31, R114, R115). -/
theorem exec_writes_record {i : Instr} {s t : State} (h : exec i s = .next t) :
    (t.enc.recWords = s.enc.recWords ∧ t.enc.recWritten = s.enc.recWritten) ∨
      ∃ c, (i = .encode c ∨ i = .submit c) ∧ validateCmd c = none ∧ t.enc.recWords = buildRecord c ∧
        t.enc.recWritten = true := by
  obtain ⟨r, eq⟩ | ⟨x, r, eq⟩ | ⟨c, rfl, passes, eq⟩ | ⟨-, -, eq⟩ | ⟨c, rfl, passes, eq⟩ := exec_cases i s <;> rw [eq] at h
  · cases h; exact .inl ⟨rfl, rfl⟩
  · cases h; exact .inl ⟨rfl, rfl⟩
  · cases h; exact .inr ⟨c, .inl rfl, passes, rfl, rfl⟩
  · obtain ⟨-, written, words, written', -⟩ := transmitAccepted_next h
    exact .inl ⟨words, written'.trans written.symm⟩
  · obtain ⟨-, -, words, written', -⟩ := transmitAccepted_next h
    exact .inr ⟨c, .inr rfl, passes, words, written'⟩

/-- An event that is no line leaves `REC` alone, or is the encoder's reset (R33). -/
theorem runEvent_writes_record {e : Event} {s t : State} (noLine : ∀ l, e ≠ .line l) (h : runEvent e s = .next t) :
    (t.enc.recWords = s.enc.recWords ∧ t.enc.recWritten = s.enc.recWritten) ∨
      (e = .encoderReset ∧ t.enc.recWritten = false) := by
  obtain ⟨-, same | ⟨-, begun⟩ | position | ⟨isReset, reset⟩⟩ := runEvent_next noLine h
  · rw [same]
    exact .inl ⟨rfl, rfl⟩
  · rw [begun]
    exact .inl ⟨rfl, rfl⟩
  · obtain ⟨-, words, written, -⟩ := serializerStep_next position
    exact .inl ⟨words, written⟩
  · rw [reset]
    exact .inr ⟨isReset, rfl⟩

/-- Settles O58: the two rules above, for the instruction and for the event at the head of the script. -/
theorem onlyEncodeWritesTheRecord : Obligations.OnlyEncodeWritesTheRecord := by
  unfold Obligations.OnlyEncodeWritesTheRecord
  refine fun s t => ⟨fun i => exec_writes_record, fun h => ?_⟩
  obtain ⟨-, rfl⟩ | ⟨e, rest, script, ⟨l, i, rfl, row, run⟩ | ⟨noLine, run⟩⟩ := step_cases h
  · exact .inl ⟨rfl, rfl⟩
  · obtain same | ⟨c, rfl | rfl, written⟩ := exec_writes_record run
    · exact .inl same
    · exact .inr (.inl ⟨l, c, by rw [script, List.head?_cons], .inl row, written⟩)
    · exact .inr (.inl ⟨l, c, by rw [script, List.head?_cons], .inr row, written⟩)
  · obtain same | ⟨rfl, unwritten⟩ := runEvent_writes_record noLine run
    · exact .inl same
    · exact .inr (.inr ⟨by rw [script, List.head?_cons], unwritten⟩)

/-- Settles O40: a busy encoder accepts none of the four commands. -/
theorem busyCommandsAreTurnedAway : Obligations.BusyCommandsAreTurnedAway := by
  unfold Obligations.BusyCommandsAreTurnedAway
  exact fun s i => exec_busy

/-- Settles O43: SUBMIT and ENCODE followed by TRANSMIT come down to the same transmission, or to the same refusal. -/
theorem submitIsEncodeThenTransmit : Obligations.SubmitIsEncodeThenTransmit := by
  unfold Obligations.SubmitIsEncodeThenTransmit
  intro s c idle
  cases check : validateCmd c with
  | none =>
    refine ⟨_, exec_encode_passed idle check, fun _ => ?_, fun raised => absurd rfl raised⟩
    rw [exec_submit_passed idle check, exec_transmit_idle]
    exact idle
  | some e =>
    exact ⟨_, exec_encode_refused idle check, fun noError => absurd noError (Option.some_ne_none _),
      fun _ => exec_submit_refused idle check⟩

end Sys2Proof.Machine
end

section
/-! The encoder's checks and the record (R85 to R87, R112 to R115): each check as a condition on its numbers, the groups of
VALIDATE's checks in the order of R113, and the words ENCODE builds as arithmetic. -/

namespace Sys2Proof.Machine

/-! ### Single checks -/

section checks
variable {c : Cmd} {d : Dim} {r : Role} {e : EncError}

theorem dimZeroError_none_iff : dimZeroError c d = none ↔ dimOf c d ≠ 0 := by
  by_cases zero : dimOf c d = 0 <;> simp [dimZeroError, zero]

theorem dimZeroError_some_iff : dimZeroError c d = some e ↔ e = .invalidDimension d ∧ dimOf c d = 0 := by
  by_cases zero : dimOf c d = 0 <;> simp [dimZeroError, zero, eq_comm (a := e)]

/-- A block count fits its field exactly where the dimension is at most 16320 (R113). -/
theorem dimSizeError_none_iff : dimSizeError c d = none ↔ dimOf c d ≤ 16320 :=
  overflow_none_iff.trans block_lt_iff

theorem dimSizeError_some_iff :
    dimSizeError c d = some e ↔ e = .overflowField (.dim d) ((dimOf c d + 63) / 64) ∧ 16320 < dimOf c d := by
  have tooLarge : 2 ^ Config.dimBits ≤ block (dimOf c d) ↔ 16320 < dimOf c d := by
    rw [← Nat.not_lt, ← Nat.not_le (a := dimOf c d)]
    exact not_congr block_lt_iff
  rw [dimSizeError, overflow_some_iff, tooLarge, and_comm, block_eq]

theorem multipleError_none_iff : multipleError c r = none ↔ addrOf c r % align r = 0 := by
  by_cases multiple : addrOf c r % align r = 0 <;> simp [multipleError, multiple]

theorem multipleError_some_iff :
    multipleError c r = some e ↔ e = .nonMultipleAddress r (addrOf c r) ∧ addrOf c r % align r ≠ 0 := by
  by_cases multiple : addrOf c r % align r = 0 <;> simp [multipleError, multiple, eq_comm (a := e)]

theorem baseError_none_iff : baseError c r = none ↔ addrOf c r / align r < 2 ^ 24 := overflow_none_iff

theorem baseError_some_iff :
    baseError c r = some e ↔
      e = .overflowField (.baseAddrOf r) (addrOf c r / align r) ∧ 2 ^ 24 ≤ addrOf c r / align r := by
  rw [baseError, overflow_some_iff, and_comm, scaleAddr]

end checks

/-! ### Checks in order -/

section order
variable {x : Option EncError} {l l' : List (Option EncError)} {e : EncError}

/-- A check raises after those before it have passed (R113). -/
theorem firstError_cons_some_iff :
    firstError (x :: l) = some e ↔ x = some e ∨ (x = none ∧ firstError l = some e) := by
  cases x <;> simp [firstError]

theorem firstError_nil_ne_some : firstError [] ≠ some e := Option.some_ne_none e ∘ Eq.symm

theorem firstError_append_none_iff : firstError (l ++ l') = none ↔ firstError l = none ∧ firstError l' = none := by
  simp only [firstError_none_iff, List.mem_append]
  exact ⟨fun h => ⟨fun x m => h x (.inl m), fun x m => h x (.inr m)⟩, fun h x m => m.elim (h.1 x) (h.2 x)⟩

theorem firstError_append_some_iff :
    firstError (l ++ l') = some e ↔ firstError l = some e ∨ (firstError l = none ∧ firstError l' = some e) := by
  induction l with
  | nil => simp [firstError]
  | cons x rest ih => cases x <;> simp [firstError, ih]

end order

/-! ### The groups of VALIDATE's checks -/

section groups
variable (c : Cmd)

/-- The first group of R113: no dimension is zero. -/
def zeroChecks : List (Option EncError) := [dimZeroError c .m, dimZeroError c .n, dimZeroError c .k]

/-- The second group of R113: every block count fits. -/
def sizeChecks : List (Option EncError) := [dimSizeError c .m, dimSizeError c .n, dimSizeError c .k]

/-- The third group of R113: the flags and the type fit. -/
def flagChecks : List (Option EncError) :=
  [overflow 1 .ifBTranspose c.tB, overflow 1 .ifATranspose c.tA, overflow Config.itypeBits .instructionType c.itype]

/-- The two checks R113 makes for each role. -/
def roleChecks (r : Role) : List (Option EncError) := [multipleError c r, baseError c r]

theorem validateCmd_eq_groups :
    validateCmd c = firstError (zeroChecks c ++ (sizeChecks c ++ (flagChecks c ++
      (roleChecks c .din ++ (roleChecks c .b ++ (roleChecks c .a ++ roleChecks c .dout)))))) := rfl

variable {c} {e : EncError}

theorem zeroChecks_pass_iff : firstError (zeroChecks c) = none ↔ c.m ≠ 0 ∧ c.n ≠ 0 ∧ c.k ≠ 0 := by
  simp [zeroChecks, firstError_none_iff, dimZeroError_none_iff, dimOf]

theorem sizeChecks_pass_iff : firstError (sizeChecks c) = none ↔ c.m ≤ 16320 ∧ c.n ≤ 16320 ∧ c.k ≤ 16320 := by
  simp [sizeChecks, firstError_none_iff, dimSizeError_none_iff, dimOf]

theorem flagChecks_pass_iff : firstError (flagChecks c) = none ↔ c.tB ≤ 1 ∧ c.tA ≤ 1 ∧ c.itype ≤ 31 := by
  simp [flagChecks, firstError_none_iff, overflow_none_iff, Config.itypeBits, Nat.lt_succ_iff (n := 31)]

theorem roleChecks_pass_iff {r : Role} :
    firstError (roleChecks c r) = none ↔ addrOf c r % align r = 0 ∧ addrOf c r / align r < 2 ^ 24 := by
  simp [roleChecks, firstError_none_iff, multipleError_none_iff, baseError_none_iff]

/-- A check made of M, N and K in this order raises for the first that fails. -/
theorem dimChecks_raise {check : Dim → Option EncError} (raises : firstError [check .m, check .n, check .k] = some e) :
    ∃ d, check d = some e ∧ (d = .n → check .m = none) ∧ (d = .k → check .m = none ∧ check .n = none) := by
  simp only [firstError_cons_some_iff, firstError_nil_ne_some, and_false, or_false] at raises
  obtain hm | ⟨hm, hn | ⟨hn, hk⟩⟩ := raises
  · exact ⟨.m, hm, nofun, nofun⟩
  · exact ⟨.n, hn, fun _ => hm, nofun⟩
  · exact ⟨.k, hk, nofun, fun _ => ⟨hm, hn⟩⟩

/-- The first zero dimension is named. -/
theorem zeroChecks_raise (raises : firstError (zeroChecks c) = some e) :
    ∃ d, e = .invalidDimension d ∧ dimOf c d = 0 ∧ (d = .n → c.m ≠ 0) ∧ (d = .k → c.m ≠ 0 ∧ c.n ≠ 0) := by
  obtain ⟨d, raised, before⟩ := dimChecks_raise raises
  simp only [dimZeroError_none_iff] at before
  obtain ⟨he, zero⟩ := dimZeroError_some_iff.mp raised
  exact ⟨d, he, zero, before⟩

/-- The first dimension that is too large is named, with its block count. -/
theorem sizeChecks_raise (raises : firstError (sizeChecks c) = some e) :
    ∃ d, e = .overflowField (.dim d) ((dimOf c d + 63) / 64) ∧ 16320 < dimOf c d ∧
      (d = .n → c.m ≤ 16320) ∧ (d = .k → c.m ≤ 16320 ∧ c.n ≤ 16320) := by
  obtain ⟨d, raised, before⟩ := dimChecks_raise raises
  simp only [dimSizeError_none_iff] at before
  obtain ⟨he, large⟩ := dimSizeError_some_iff.mp raised
  exact ⟨d, he, large, before⟩

/-- The first of tB, tA and itype that does not fit is named, with its value. -/
theorem flagChecks_raise (raises : firstError (flagChecks c) = some e) :
    (e = .overflowField .ifBTranspose c.tB ∧ 1 < c.tB) ∨
      (c.tB ≤ 1 ∧ e = .overflowField .ifATranspose c.tA ∧ 1 < c.tA) ∨
      (c.tB ≤ 1 ∧ c.tA ≤ 1 ∧ e = .overflowField .instructionType c.itype ∧ 31 < c.itype) := by
  simp only [flagChecks, firstError_cons_some_iff, firstError_nil_ne_some, overflow_some_iff, overflow_none_iff,
    and_false, or_false] at raises
  obtain ⟨hb, he⟩ | ⟨hb, ⟨ha, he⟩ | ⟨ha, hi, he⟩⟩ := raises
  · exact .inl ⟨he, hb⟩
  · exact .inr (.inl ⟨Nat.le_of_lt_succ hb, he, ha⟩)
  · exact .inr (.inr ⟨Nat.le_of_lt_succ hb, Nat.le_of_lt_succ ha, he, hi⟩)

/-- The address of a role is no multiple of its alignment, or, being one, lies out of the role's range. -/
theorem roleChecks_raise {r : Role} (raises : firstError (roleChecks c r) = some e) :
    (e = .nonMultipleAddress r (addrOf c r) ∧ addrOf c r % align r ≠ 0) ∨
      (e = .overflowField (.baseAddrOf r) (addrOf c r / align r) ∧ addrOf c r % align r = 0 ∧
        2 ^ 24 ≤ addrOf c r / align r) := by
  simp only [roleChecks, firstError_cons_some_iff, firstError_nil_ne_some, multipleError_some_iff, multipleError_none_iff,
    baseError_some_iff, and_false, or_false] at raises
  exact raises.imp_right fun ⟨multiple, he, range⟩ => ⟨he, multiple, range⟩

/-- The first role in word order whose checks fail is the one named (R113). -/
theorem rolesChecks_raise
    (raises : firstError (roleChecks c .din ++ (roleChecks c .b ++ (roleChecks c .a ++ roleChecks c .dout))) = some e) :
    ∃ r, (∀ r', roleIndex r' < roleIndex r → firstError (roleChecks c r') = none) ∧
      firstError (roleChecks c r) = some e := by
  simp only [firstError_append_some_iff] at raises
  obtain he | ⟨hdin, he | ⟨hb, he | ⟨ha, he⟩⟩⟩ := raises
  · exact ⟨.din, fun r' before => absurd before (Nat.not_lt_zero _), he⟩
  · refine ⟨.b, fun r' before => ?_, he⟩
    cases r' with
    | din => exact hdin
    | _ => simp [roleIndex] at before
  · refine ⟨.a, fun r' before => ?_, he⟩
    cases r' with
    | din => exact hdin
    | b => exact hb
    | _ => simp [roleIndex] at before
  · refine ⟨.dout, fun r' before => ?_, he⟩
    cases r' with
    | din => exact hdin
    | b => exact hb
    | a => exact ha
    | dout => simp [roleIndex] at before

end groups

/-- VALIDATE passes exactly the commands of the contract (R112, R113). -/
theorem validateCmd_none_iff {c : Cmd} : validateCmd c = none ↔ Contract c := by
  simp only [validateCmd_eq_groups, firstError_append_none_iff, zeroChecks_pass_iff, sizeChecks_pass_iff,
    flagChecks_pass_iff, roleChecks_pass_iff, addrOf, align, Config.accumulatorAlign, Config.multiplicandAlign]
  constructor
  · rintro ⟨nonzero, sizes, flags, din, b, a, dout⟩
    exact ⟨by omega, by omega, by omega, by omega⟩
  · rintro ⟨dims, flags, multiples, ranges⟩
    omega

/-- Settles O37: the groups of R113 raise in their order, and within each group the first that fails is named. -/
theorem validateReportsTheFirstFailure : Obligations.ValidateReportsTheFirstFailure := by
  unfold Obligations.ValidateReportsTheFirstFailure
  intro c e raises
  rw [validateCmd_eq_groups, firstError_append_some_iff] at raises
  obtain zero | ⟨nonzero, raises⟩ := raises
  · exact .inl (zeroChecks_raise zero)
  obtain ⟨hm, hn, hk⟩ := zeroChecks_pass_iff.mp nonzero
  refine .inr ⟨hm, hn, hk, ?_⟩
  rw [firstError_append_some_iff] at raises
  obtain size | ⟨sizes, raises⟩ := raises
  · exact .inl (sizeChecks_raise size)
  obtain ⟨sm, sn, sk⟩ := sizeChecks_pass_iff.mp sizes
  refine .inr ⟨sm, sn, sk, ?_⟩
  rw [firstError_append_some_iff] at raises
  obtain flag | ⟨flags, roles⟩ := raises
  · exact (flagChecks_raise flag).imp_right (·.imp_right .inl)
  obtain ⟨hB, hA, hi⟩ := flagChecks_pass_iff.mp flags
  obtain ⟨r, before, role⟩ := rolesChecks_raise roles
  exact .inr (.inr (.inr ⟨hB, hA, hi, r, fun r' first => roleChecks_pass_iff.mp (before r' first), roleChecks_raise role⟩))

/-- Settles O36: VALIDATE's outcome is that of its checks, which pass exactly the commands of the contract. -/
theorem validatePassesTheContract : Obligations.ValidatePassesTheContract := by
  unfold Obligations.ValidatePassesTheContract
  refine fun s c idle => ⟨fun contract => ?_, fun noContract => ?_⟩
  · have passes : validateCmd c = none := validateCmd_none_iff.mpr contract
    refine (whenIdle_idle idle _).trans ?_
    simp only [validateAccepted, passes]
    rfl
  · obtain ⟨e, raises⟩ := Option.ne_none_iff_exists'.mp (mt validateCmd_none_iff.mp noContract)
    exact ⟨e, raises, exec_validate_refused idle raises⟩

/-! ### Packing and scaling -/

theorem exec_packOpd (sm sM ba : Nat) (s : State) :
    exec (.packOpd sm sM ba) s = checkedValue (packOpdError sm sM ba) (.word (packOpdValue sm sM ba)) s := rfl

theorem exec_packMeta (k n m tB tA it : Nat) (s : State) :
    exec (.packMeta k n m tB tA it) s =
      checkedValue (packMetaError k n m tB tA it) (.word (packMetaValue k n m tB tA it)) s := rfl

theorem exec_scale (r : Role) (addr : Nat) (s : State) :
    exec (.scale r addr) s = .next { s with reply := .number (addr / align r) } := rfl

/-- A pure function whose check passes returns its value and touches nothing else (log 13). -/
theorem checkedValue_passes {check : Option EncError} (value : Reply) (s : State) (passes : check = none) :
    checkedValue check value s = .next { s with reply := value } := by
  rw [passes]; rfl

/-- A pure function whose check raises sets `err` to the error's name and returns the error (R10, log 13). -/
theorem checkedValue_raises {check : Option EncError} {e : EncError} (value : Reply) (s : State) (raises : check = some e) :
    checkedValue check value s =
      .next { s with enc := { s.enc with err := some (errName e) }, reply := .refused e } := by
  rw [raises]; rfl

theorem packOpdError_none_iff {sm sM ba : Nat} :
    packOpdError sm sM ba = none ↔ sm < 2 ^ 20 ∧ sM < 2 ^ 20 ∧ ba < 2 ^ 24 := by
  simp [packOpdError, firstError_none_iff, overflow_none_iff, Config.strideMinorBits, Config.strideMajorBits,
    Config.baseBits]

theorem packMetaError_none_iff {k n m tB tA it : Nat} :
    packMetaError k n m tB tA it = none ↔
      k < 2 ^ 8 ∧ n < 2 ^ 8 ∧ m < 2 ^ 8 ∧ tB < 2 ∧ tA < 2 ∧ it < 2 ^ 5 := by
  simp [packMetaError, firstError_none_iff, overflow_none_iff, Config.dimBits, Config.itypeBits]

/-- The error of PACK_OPD names a field that does not fit, with its value (R85). -/
theorem packOpdError_some {sm sM ba : Nat} {e : EncError} (raises : packOpdError sm sM ba = some e) :
    ∃ f v, e = .overflowField f v ∧
      ((f = .strideMinor ∧ v = sm ∧ 2 ^ 20 ≤ sm) ∨ (f = .strideMajor ∧ v = sM ∧ 2 ^ 20 ≤ sM) ∨
        (f = .baseAddr ∧ v = ba ∧ 2 ^ 24 ≤ ba)) := by
  have mem := firstError_mem raises
  simp only [List.mem_cons, List.not_mem_nil, or_false, eq_comm (a := some e), overflow_some_iff] at mem
  obtain ⟨big, rfl⟩ | ⟨big, rfl⟩ | ⟨big, rfl⟩ := mem
  · exact ⟨_, _, rfl, .inl ⟨rfl, rfl, big⟩⟩
  · exact ⟨_, _, rfl, .inr (.inl ⟨rfl, rfl, big⟩)⟩
  · exact ⟨_, _, rfl, .inr (.inr ⟨rfl, rfl, big⟩)⟩

/-- The error of PACK_META names a field that does not fit, with its value (R86). -/
theorem packMetaError_some {k n m tB tA it : Nat} {e : EncError} (raises : packMetaError k n m tB tA it = some e) :
    ∃ f v, e = .overflowField f v ∧
      ((f = .dim .k ∧ v = k ∧ 2 ^ 8 ≤ k) ∨ (f = .dim .n ∧ v = n ∧ 2 ^ 8 ≤ n) ∨
        (f = .dim .m ∧ v = m ∧ 2 ^ 8 ≤ m) ∨ (f = .ifBTranspose ∧ v = tB ∧ 2 ≤ tB) ∨
        (f = .ifATranspose ∧ v = tA ∧ 2 ≤ tA) ∨ (f = .instructionType ∧ v = it ∧ 2 ^ 5 ≤ it)) := by
  have mem := firstError_mem raises
  simp only [List.mem_cons, List.not_mem_nil, or_false, eq_comm (a := some e), overflow_some_iff] at mem
  obtain ⟨big, rfl⟩ | ⟨big, rfl⟩ | ⟨big, rfl⟩ | ⟨big, rfl⟩ | ⟨big, rfl⟩ | ⟨big, rfl⟩ := mem
  · exact ⟨_, _, rfl, .inl ⟨rfl, rfl, big⟩⟩
  · exact ⟨_, _, rfl, .inr (.inl ⟨rfl, rfl, big⟩)⟩
  · exact ⟨_, _, rfl, .inr (.inr (.inl ⟨rfl, rfl, big⟩))⟩
  · exact ⟨_, _, rfl, .inr (.inr (.inr (.inl ⟨rfl, rfl, big⟩)))⟩
  · exact ⟨_, _, rfl, .inr (.inr (.inr (.inr (.inl ⟨rfl, rfl, big⟩))))⟩
  · exact ⟨_, _, rfl, .inr (.inr (.inr (.inr (.inr ⟨rfl, rfl, big⟩))))⟩

/-- Settles O34: the check of PACK_OPD passes exactly the fields that fit, and names one that does not. -/
theorem packOpdPacksOrOverflows : Obligations.PackOpdPacksOrOverflows := by
  unfold Obligations.PackOpdPacksOrOverflows
  refine fun s sm sM ba => ⟨fun fits => ?_, fun overflows => ?_⟩
  · have passes := packOpdError_none_iff.mpr fits
    obtain ⟨hsm, hsM, hba⟩ := fits
    exact ⟨_, (exec_packOpd sm sM ba s).trans (checkedValue_passes _ s passes), packOpdValue_toNat hsm hsM hba⟩
  · obtain ⟨e, raises⟩ := Option.ne_none_iff_exists'.mp (mt packOpdError_none_iff.mp overflows)
    obtain ⟨f, v, rfl, named⟩ := packOpdError_some raises
    exact ⟨f, v, (exec_packOpd sm sM ba s).trans (checkedValue_raises _ s raises), named⟩

/-- Settles O35: the check of PACK_META passes exactly the fields that fit, and names one that does not. -/
theorem packMetaPacksOrOverflows : Obligations.PackMetaPacksOrOverflows := by
  unfold Obligations.PackMetaPacksOrOverflows
  refine fun s k n m tB tA it => ⟨fun fits => ?_, fun overflows => ?_⟩
  · have passes := packMetaError_none_iff.mpr fits
    obtain ⟨hk, hn, hm, hB, hA, hi⟩ := fits
    exact ⟨_, (exec_packMeta k n m tB tA it s).trans (checkedValue_passes _ s passes),
      packMetaValue_toNat hk hn hm hB hA hi⟩
  · obtain ⟨e, raises⟩ := Option.ne_none_iff_exists'.mp (mt packMetaError_none_iff.mp overflows)
    obtain ⟨f, v, rfl, named⟩ := packMetaError_some raises
    exact ⟨f, v, (exec_packMeta k n m tB tA it s).trans (checkedValue_raises _ s raises), named⟩

/-- Settles O33: the role alignments are 2^14 and 2^12, so that the division is a shift. -/
theorem scaleDividesByAlignment : Obligations.ScaleDividesByAlignment := by
  unfold Obligations.ScaleDividesByAlignment
  refine fun s addr => ⟨?_, ?_⟩
  · rintro r (rfl | rfl) <;> exact ⟨exec_scale _ addr s, (Nat.shiftRight_eq_div_pow addr 14).symm⟩
  · rintro r (rfl | rfl) <;> exact ⟨exec_scale _ addr s, (Nat.shiftRight_eq_div_pow addr 12).symm⟩

/-! ### The record ENCODE builds -/

section built
variable {c : Cmd} (contract : Contract c)
include contract

/-- A scaled address of the contract fits `base_addr` (R89). -/
theorem Contract.scaled_lt (r : Role) : addrOf c r / align r < 2 ^ 24 := by
  obtain ⟨din, b, a, dout⟩ := contract.ranges
  cases r <;> simp only [addrOf, align, Config.accumulatorAlign, Config.multiplicandAlign] <;> omega

/-- An address of the contract is a multiple of its role alignment. -/
theorem Contract.scaled_mul (r : Role) : addrOf c r / align r * align r = addrOf c r := by
  obtain ⟨din, b, a, dout⟩ := contract.multiples
  cases r <;> simp only [addrOf, align, Config.accumulatorAlign, Config.multiplicandAlign] <;> omega

/-- The block counts of a command of the contract fit their fields (R113). -/
theorem Contract.blocks_lt : block c.m < 2 ^ 8 ∧ block c.n < 2 ^ 8 ∧ block c.k < 2 ^ 8 := by
  obtain ⟨⟨-, hm⟩, ⟨-, hn⟩, -, hk⟩ := contract.dims
  exact ⟨block_lt_iff.mpr hm, block_lt_iff.mpr hn, block_lt_iff.mpr hk⟩

/-- A transmitted `stride_minor` is a block count, so it fits 8 bits (R111). -/
theorem Contract.strideMinor_lt (r : Role) : strideMinorTx (block c.n) (block c.k) r < 2 ^ 8 := by
  obtain ⟨-, hn, hk⟩ := contract.blocks_lt
  cases r with
  | a => exact hk
  | _ => exact hn

/-- An operand word as arithmetic: `stride_major` is 1 (R111, R115). -/
theorem Contract.buildOpd_toNat (r : Role) :
    (buildOpd c r).toNat = strideMinorTx (block c.n) (block c.k) r + 2 ^ 20 + addrOf c r / align r * 2 ^ 40 := by
  have minor := contract.strideMinor_lt r
  rw [buildOpd, scaleAddr, packOpdValue_toNat (by omega) (by decide) (contract.scaled_lt r)]
  simp only [Config.strideMajorTx, one_mul]

/-- The Meta word as arithmetic (R115). -/
theorem Contract.buildMeta_toNat :
    (buildMeta c).toNat = block c.k + block c.n * 2 ^ 8 + block c.m * 2 ^ 16 + c.tB * 2 ^ 25 + c.tA * 2 ^ 26 +
      c.itype * 2 ^ 27 := by
  obtain ⟨hm, hn, hk⟩ := contract.blocks_lt
  obtain ⟨hA, hB, hi⟩ := contract.flags
  exact packMetaValue_toNat hk hn hm (by omega) (by omega) (by omega)

/-- Unpacking an operand word gives back what the command asked: its strides and its address (R88, R90, R115). -/
theorem Contract.unpackOpd_buildOpd (r : Role) :
    (unpackOpd r (buildOpd c r)).strideMinor.toNat = strideMinorTx (block c.n) (block c.k) r ∧
      (unpackOpd r (buildOpd c r)).strideMajor = 1#20 ∧ (unpackOpd r (buildOpd c r)).realAddr = addrOf c r := by
  have word := contract.buildOpd_toNat r
  have minor := contract.strideMinor_lt r
  refine ⟨?_, BitVec.eq_of_toNat_eq ?_, ?_⟩
  · change (strideMinorOf (buildOpd c r)).toNat = _
    rw [strideMinorOf_toNat]
    omega
  · change (strideMajorOf (buildOpd c r)).toNat = 1
    rw [strideMajorOf_toNat]
    omega
  · have base : (buildOpd c r).toNat / 2 ^ 40 = addrOf c r / align r := by omega
    rw [unpackOpd_realAddr, base, contract.scaled_mul r]

end built

/-- Settles O38: ENCODE writes `buildRecord`, whose words are packed without overflow under the contract. -/
theorem encodeBuildsTheRecord : Obligations.EncodeBuildsTheRecord := by
  unfold Obligations.EncodeBuildsTheRecord
  intro s c idle contract
  exact ⟨buildRecord c, exec_encode_passed idle (validateCmd_none_iff.mpr contract), contract.buildOpd_toNat .din,
    contract.buildOpd_toNat .b, contract.buildOpd_toNat .a, contract.buildOpd_toNat .dout, contract.buildMeta_toNat⟩

end Sys2Proof.Machine
end

section
/-! TRANSMIT and SUBMIT (R116 to R119): the serializer's positions under the set-up of R212, whatever is in flight, and what
the whole transmission leaves. -/

namespace Sys2Proof.Machine

/-! ### The arrivals of a path -/

/-- Every store of a path is answered once (R188, log 42). -/
theorem foldl_arrival_length (p : Params) (items : List PathItem) (acc : Device × List Reply) :
    (items.foldl (arrival p) acc).2.length = acc.2.length + storesIn items := by
  have one (acc : Device × List Reply) (addr : Nat) (bytes : List Byte) :
      (arrival p acc (.store addr bytes)).2.length = acc.2.length + 1 := by
    cases ho : route p addr with
    | none => simp [arrival, ho]
    | some off => cases hd : devWrite p off bytes.length bytes acc.1 <;> simp [arrival, ho, hd]
  induction items generalizing acc with
  | nil => rfl
  | cons x rest ih =>
    rw [List.foldl_cons, ih]
    cases x with
    | barrier => rfl
    | store addr bytes =>
      have count : storesIn (.store addr bytes :: rest) = storesIn rest + 1 := List.countP_cons_of_pos rfl
      rw [one, count]
      omega

/-- The stores held by a barrier and those behind it are all the stores of the path. -/
theorem storesIn_held_behind (path : List PathItem) :
    storesIn (heldByBarrier path) + storesIn (behindBarrier path) = storesIn path := by
  rw [storesIn, storesIn, ← List.countP_append, held_append_behind, storesIn]

/-- What settling does: the stores that a barrier holds arrive, and the others stay in flight (R59, R60). -/
theorem settle_eq (s : State) :
    ∃ r, settle s =
      { s with
        path := behindBarrier s.path
        dev := ((heldByBarrier s.path).foldl (arrival s.params) (s.dev, s.reports)).1
        reports := ((heldByBarrier s.path).foldl (arrival s.params) (s.dev, s.reports)).2
        reply := r } :=
  performStores_eq (heldByBarrier s.path) { s with path := behindBarrier s.path }

/-- A path behind which a compiler barrier is placed (R60). -/
def withBarrier (path : List PathItem) : List PathItem := if path = [] then [] else path ++ [.barrier]

theorem compilerBarrier_eq (s : State) :
    compilerBarrier s = .next { s with path := withBarrier s.path, reply := .nothing } := rfl

/-- A barrier at the end holds the whole path. -/
theorem heldByBarrier_withBarrier (path : List PathItem) : heldByBarrier (withBarrier path) = withBarrier path := by
  unfold withBarrier
  split <;> simp [heldByBarrier, PathItem.isStore]

theorem behindBarrier_withBarrier (path : List PathItem) : behindBarrier (withBarrier path) = [] := by
  unfold withBarrier
  split <;> simp [behindBarrier, PathItem.isStore]

/-- The barrier itself does nothing on arrival. -/
theorem foldl_arrival_withBarrier (p : Params) (path : List PathItem) (acc : Device × List Reply) :
    (withBarrier path).foldl (arrival p) acc = path.foldl (arrival p) acc := by
  unfold withBarrier
  split
  · simp [*]
  · rw [List.foldl_append, List.foldl_cons, List.foldl_nil, arrival]

/-! ### The positions of the serializer -/

/-- The state of a transmission under way: only the position, the path, the device and the reports have changed. -/
def State.sending (s : State) (p : EncStep) (path : List PathItem) (d : Device) (reports : List Reply) : State :=
  { s with enc := s.enc.goto p, path, dev := d, reports, reply := .nothing }

/-- The device and the reports once the stores that a compiler barrier already held have arrived (R60). -/
def heldArrived (s : State) : Device × List Reply := (heldByBarrier s.path).foldl (arrival s.params) (s.dev, s.reports)

/-- The device and the reports once word 0 is stored and then the other stores in flight have arrived (R60, R116). -/
def behindArrived (s : State) : Device × List Reply :=
  (behindBarrier s.path).foldl (arrival s.params) ((heldArrived s).1.storeWhole 0 s.enc.recWords[0], (heldArrived s).2)

/-- The device after words 1 to 3 are stored and word 4 has triggered (R116). -/
def Device.sendRest (d : Device) (r : Vector Word64 Config.recordWords) : Device :=
  (((d.storeWhole 1 r[1]).storeWhole 2 r[2]).storeWhole 3 r[3]).trigger r[4]

section positions
variable {s : State} (ready : s.Ready) (written : s.enc.recWritten = true) (d : Device) (path : List PathItem)
  (l : List Reply)
include ready written

/-- A position that stores word 0 to 3, whatever is in flight (R60, R116). -/
theorem sendWordBarrier_ready (i : Fin 4) (next : EncStep) :
    sendWordBarrier i.castSucc next s =
      .next (s.sending next (withBarrier (behindBarrier s.path))
        ((heldArrived s).1.storeWhole i.castSucc s.enc.recWords[i.castSucc]) (heldArrived s).2) := by
  obtain ⟨r, settled⟩ := settle_eq s
  rw [sendWordBarrier, sendWord, settled, storeWord_operand (by exact ready) (by exact written)]
  rfl

theorem serializerStep_begin :
    serializerStep (beginTransmit s) =
      .next (s.sending .tx1 (withBarrier (behindBarrier s.path)) ((heldArrived s).1.storeWhole 0 s.enc.recWords[0])
        (heldArrived s).2) :=
  sendWordBarrier_ready (s := beginTransmit s) ready written 0 .tx1

/-- At `Tx1` the barrier placed after word 0 lets everything in flight arrive first. -/
theorem serializerStep_tx1 :
    serializerStep (s.sending .tx1 (withBarrier path) d l) =
      .next (s.sending .tx2 [] ((path.foldl (arrival s.params) (d, l)).1.storeWhole 1 s.enc.recWords[1])
        (path.foldl (arrival s.params) (d, l)).2) := by
  have arrived : heldArrived (s.sending .tx1 (withBarrier path) d l) = path.foldl (arrival s.params) (d, l) := by
    change (heldByBarrier (withBarrier path)).foldl (arrival s.params) (d, l) = _
    rw [heldByBarrier_withBarrier, foldl_arrival_withBarrier]
  have left : withBarrier (behindBarrier (s.sending .tx1 (withBarrier path) d l).path) = [] := by
    change withBarrier (behindBarrier (withBarrier path)) = []
    rw [behindBarrier_withBarrier]
    rfl
  refine (sendWordBarrier_ready (s := s.sending .tx1 (withBarrier path) d l) ready written 1 .tx2).trans ?_
  rw [arrived, left]
  rfl

theorem serializerStep_tx2 :
    serializerStep (s.sending .tx2 [] d l) = .next (s.sending .tx3 [] (d.storeWhole 2 s.enc.recWords[2]) l) :=
  sendWordBarrier_operand (s := s.sending .tx2 [] d l) ready written rfl 2 .tx3

theorem serializerStep_tx3 :
    serializerStep (s.sending .tx3 [] d l) = .next (s.sending .tx4 [] (d.storeWhole 3 s.enc.recWords[3]) l) :=
  sendWordBarrier_operand (s := s.sending .tx3 [] d l) ready written rfl 3 .tx4

theorem serializerStep_tx4 :
    serializerStep (s.sending .tx4 [] d l) = .next ((s.sending .fence [] (d.trigger s.enc.recWords[4]) l).respond .ok) :=
  sendWord_trigger (s := s.sending .tx4 [] d l) ready written rfl .fence

omit ready written in
theorem serializerStep_fence (r : Reply) :
    serializerStep ((s.sending .fence [] d l).respond r) = .next (s.sending .readStatus [] d l) := rfl

omit written in
theorem serializerStep_readStatus :
    serializerStep (s.sending .readStatus [] d l) =
      .next { s with path := [], dev := d, reports := l, enc := s.enc.acknowledge d.status, reply := .ack d.status } :=
  readAcknowledge_ready (s := s.sending .readStatus [] d l) ready

end positions

/-- A run of the serializer goes on where its first position does. -/
theorem serializerRun_succ {k : Nat} {s t : State} (h : serializerStep s = .next t) :
    serializerRun (k + 1) s = serializerRun k t := by
  rw [serializerRun, h]

/-- What a transmission leaves, whatever is in flight (R60, R61, R116). -/
theorem transmitAccepted_ready {s : State} (ready : s.Ready) (written : s.enc.recWritten = true) :
    transmitAccepted s = .next { s with
      path := []
      dev := (behindArrived s).1.sendRest s.enc.recWords
      reports := (behindArrived s).2
      enc := s.enc.acknowledge Config.statusReceived
      reply := .ack Config.statusReceived } := by
  rw [transmitAccepted, transmitPositions, serializerRun_succ (serializerStep_begin ready written),
    serializerRun_succ (serializerStep_tx1 ready written ..), serializerRun_succ (serializerStep_tx2 ready written ..),
    serializerRun_succ (serializerStep_tx3 ready written ..), serializerRun_succ (serializerStep_tx4 ready written ..),
    serializerRun_succ (serializerStep_fence ..), serializerRun_succ (serializerStep_readStatus ready ..)]
  rfl

/-! ### The device after a transmission -/

/-- Words 1 to 4 are those of the record; word 0 is what it was when they were sent. -/
theorem Device.cell_sendRest (d : Device) (r : Vector Word64 Config.recordWords) (j : Fin 5) :
    (d.sendRest r).cell j = if j = 0 then d.cell 0 else r[j] := by
  match j with
  | 0 | 1 | 2 | 3 | 4 => simp [Device.sendRest]

/-- Five stores replace all five cells. -/
theorem set_all_words (w r : Vector Word64 Config.recordWords) :
    ((((w.set 0 r[0]).set 1 r[1]).set 2 r[2]).set 3 r[3]).set 4 r[4] = r := by
  ext i hi : 1
  match i, hi with
  | 0, _ | 1, _ | 2, _ | 3, _ | 4, _ => simp

/-- The device after a record whose five words were all stored (R143, R147). -/
def Device.received (d : Device) (r : Vector Word64 Config.recordWords) : Device :=
  { w := r, valid := false, fsm := .idle, status := Config.statusReceived, icount := d.icount + 1#64,
    execLog := d.execLog ++ [decodeRecord r] }

theorem Device.sendRest_storeWhole_zero (d : Device) (r : Vector Word64 Config.recordWords) :
    (d.storeWhole 0 r[0]).sendRest r = d.received r := congrArg d.received (set_all_words d.w r)

/-- With nothing in flight the transmission replaces the cells and triggers once (R116). -/
theorem transmitAccepted_nothing_in_flight {s : State} (ready : s.Ready) (written : s.enc.recWritten = true)
    (empty : s.path = []) :
    transmitAccepted s = .next { s with
      dev := s.dev.received s.enc.recWords
      enc := s.enc.acknowledge Config.statusReceived
      reply := .ack Config.statusReceived } := by
  have arrived : behindArrived s = (s.dev.storeWhole 0 s.enc.recWords[0], s.reports) := by
    simp only [behindArrived, heldArrived, empty, heldByBarrier_nil, behindBarrier_nil, List.foldl_nil]
  rw [transmitAccepted_ready ready written, arrived, Device.sendRest_storeWhole_zero, ← empty]

/-- Settles O41: TRANSMIT of an idle encoder is the transmission, here with nothing in flight. -/
theorem transmitSendsAndAcknowledges : Obligations.TransmitSendsAndAcknowledges := by
  unfold Obligations.TransmitSendsAndAcknowledges
  intro s ready empty idle written
  exact (exec_transmit_idle idle).trans (transmitAccepted_nothing_in_flight ready written empty)

/-- Settles O42: what the transmission leaves is `transmitAccepted_ready`; the counts of reports and the cells follow from
its two folds and its last four stores. -/
theorem transmitCompletesWithStoresInFlight : Obligations.TransmitCompletesWithStoresInFlight := by
  unfold Obligations.TransmitCompletesWithStoresInFlight
  intro s ready idle written
  refine ⟨_, (exec_transmit_idle idle).trans (transmitAccepted_ready ready written), rfl, rfl, rfl, rfl, rfl, rfl, ?cells,
    ⟨_, rfl⟩, ?answered, (heldArrived s).1, (behindArrived s).1, (heldArrived s).2, rfl, rfl, rfl⟩
  case cells =>
    intro j notZero
    exact (Device.cell_sendRest _ _ j).trans (if_neg fun h => notZero (congrArg Fin.val h))
  case answered =>
    change (behindArrived s).2.length = _
    rw [behindArrived, foldl_arrival_length, heldArrived, foldl_arrival_length, Nat.add_assoc, storesIn_held_behind]

/-! ### SUBMIT -/

/-- SUBMIT of a command of the contract, with nothing in flight: its record is sent (R115 to R117). -/
theorem exec_submit_contract {s : State} {c : Cmd} (ready : s.Ready) (empty : s.path = []) (idle : s.enc.step = .eIdle)
    (contract : Contract c) :
    exec (.submit c) s = .next { s with
      dev := s.dev.received (buildRecord c)
      enc := (s.enc.setRecord (buildRecord c)).acknowledge Config.statusReceived
      reply := .ack Config.statusReceived } := by
  rw [exec_submit_passed idle (validateCmd_none_iff.mpr contract)]
  exact transmitAccepted_nothing_in_flight (s := { s with enc := s.enc.setRecord (buildRecord c), reply := .done })
    ready rfl empty

/-- The Meta fields of the record that ENCODE builds are decoded as the command asked (R90, R115). -/
theorem Contract.decode_buildMeta {c : Cmd} (contract : Contract c) :
    (mOf (buildMeta c)).toNat = block c.m ∧ (nOf (buildMeta c)).toNat = block c.n ∧
      (kOf (buildMeta c)).toNat = block c.k ∧ (aTransposeOf (buildMeta c)).toNat = c.tA ∧
      (bTransposeOf (buildMeta c)).toNat = c.tB ∧ (itypeOf (buildMeta c)).toNat = c.itype := by
  have word := contract.buildMeta_toNat
  obtain ⟨hm, hn, hk⟩ := contract.blocks_lt
  obtain ⟨hA, hB, hi⟩ := contract.flags
  rw [mOf_toNat, nOf_toNat, kOf_toNat, aTransposeOf_toNat, bTransposeOf_toNat, itypeOf_toNat]
  refine ⟨?_, ?_, ?_, ?_, ?_, ?_⟩ <;> omega

/-- An idle encoder stays so when it takes an acknowledgement. -/
theorem Encoder.acknowledge_idle {e : Encoder} (v : Word64) (idle : e.step = .eIdle) :
    e.acknowledge v = { e with ack := v, ackWritten := true } := by
  rw [Encoder.acknowledge, ← idle]

/-- Settles O44: SUBMIT hands over `decodeRecord (buildRecord c)`, and decoding undoes packing word by word. -/
theorem submitHandsOverWhatWasAsked : Obligations.SubmitHandsOverWhatWasAsked := by
  unfold Obligations.SubmitHandsOverWhatWasAsked
  intro s c ready empty idle contract
  obtain ⟨hm, hn, hk, hA, hB, hi⟩ := contract.decode_buildMeta
  obtain ⟨minorDin, majorDin, addrDin⟩ := contract.unpackOpd_buildOpd .din
  obtain ⟨minorB, majorB, addrB⟩ := contract.unpackOpd_buildOpd .b
  obtain ⟨minorA, majorA, addrA⟩ := contract.unpackOpd_buildOpd .a
  obtain ⟨minorDout, majorDout, addrDout⟩ := contract.unpackOpd_buildOpd .dout
  exact ⟨_, decodeRecord (buildRecord c), exec_submit_contract ready empty idle contract, rfl, hm, hn, hk, hA, hB, hi,
    addrDin, addrB, addrA, addrDout, BitVec.eq_of_toNat_eq (minorDin.trans minorDout.symm),
    BitVec.eq_of_toNat_eq (minorB.trans minorDin.symm), minorDin, minorA, majorDin, majorB, majorA, majorDout, rfl, rfl,
    Encoder.acknowledge_idle (e := s.enc.setRecord (buildRecord c)) _ idle⟩

/-! ### Where a transmission stops, and where every instruction completes -/

/-- Settles O47: the last position is the read of `STATUS`, which the encoder takes as it is (R118). -/
theorem acknowledgementIsNotInterpreted : Obligations.AcknowledgementIsNotInterpreted := by
  unfold Obligations.AcknowledgementIsNotInterpreted
  intro s rest ready last script
  have position : serializerStep { s with script := rest } = readAcknowledge { s with script := rest } := by
    simp only [serializerStep, last]
  rw [step_of_script script]
  exact position.trans (readAcknowledge_ready ready)

theorem sendWordBarrier_fault {i : Fin 5} {next : EncStep} {s : State} {r : Fault} (h : sendWord i next s = .fault r) :
    sendWordBarrier i next s = .fault r := by
  rw [sendWordBarrier, h]

theorem sendWordBarrier_refused {i : Fin 5} {next : EncStep} {s : State} {r : Refusal}
    (h : sendWord i next s = .refused r) : sendWordBarrier i next s = .refused r := by
  rw [sendWordBarrier, h]

section unwritten
variable {s : State} (unwritten : s.enc.recWritten = false)
include unwritten

theorem sendWord_unwritten (i : Fin 5) (next : EncStep) : sendWord i next s = .fault .recNotWritten := by
  have same : (settle s).enc.recWritten = false := by rw [(settle_onlyWrites s).2, unwritten]
  exact storeWord_unwritten same i next

theorem sendWordBarrier_unwritten (i : Fin 5) (next : EncStep) :
    sendWordBarrier i next s = .fault .recNotWritten :=
  sendWordBarrier_fault (sendWord_unwritten unwritten i next)

/-- Every position that stores a word of `REC` faults at its read (R33, U11). -/
theorem serializerStep_unwritten (stores : s.enc.step ∈ [.tx0, .tx1, .tx2, .tx3, .tx4]) :
    serializerStep s = .fault .recNotWritten := by
  unfold serializerStep
  cases position : s.enc.step with
  | tx0 => exact sendWordBarrier_unwritten unwritten 0 .tx1
  | tx1 => exact sendWordBarrier_unwritten unwritten 1 .tx2
  | tx2 => exact sendWordBarrier_unwritten unwritten 2 .tx3
  | tx3 => exact sendWordBarrier_unwritten unwritten 3 .tx4
  | tx4 => exact sendWord_unwritten unwritten 4 .fence
  | eIdle => simp [position] at stores
  | fence => simp [position] at stores
  | readStatus => simp [position] at stores

end unwritten

theorem serializerRun_fault {k : Nat} {s : State} {r : Fault} (h : serializerStep s = .fault r) :
    serializerRun (k + 1) s = .fault r := by
  rw [serializerRun, h]

theorem serializerRun_refused {k : Nat} {s : State} {r : Refusal} (h : serializerStep s = .refused r) :
    serializerRun (k + 1) s = .refused r := by
  rw [serializerRun, h]

/-- Settles O48: the first position faults at its read of `REC`, as each position that stores a word does. -/
theorem transmitBeforeEncodeFaults : Obligations.TransmitBeforeEncodeFaults := by
  unfold Obligations.TransmitBeforeEncodeFaults
  refine fun s unwritten => ⟨fun idle => ⟨?_, whenIdle_idle idle _⟩, serializerStep_unwritten unwritten⟩
  have first : serializerStep (beginTransmit s) = .fault .recNotWritten :=
    serializerStep_unwritten unwritten (by exact List.mem_cons_self)
  exact (exec_transmit_idle idle).trans (serializerRun_fault first)

section wrongBase
variable {s : State} (written : s.enc.recWritten = true) {i : Fin 5} (next : EncStep)
include written

/-- A store of the serializer at an offset that fails is a fault of the run (R119). -/
theorem storeWord_failing {off : Nat} (routed : route s.params (s.params.encBase + 8 * i.val) = some off)
    (fails : accessError s.params off 8 ≠ none) : storeWord i next s = .fault .busAccessFailed := by
  obtain ⟨e, fails⟩ := Option.ne_none_iff_exists'.mp fails
  have error : devWrite s.params off 8 (wordBytes s.enc.recWords[i]) s.dev = .error e := devWrite_error.mpr fails
  simp only [storeWord, written, if_true, routed, error]

/-- A store of the serializer at an address that is not routed is refused (R51, D18). -/
theorem storeWord_unrouted (unrouted : route s.params (s.params.encBase + 8 * i.val) = none) :
    storeWord i next s = .refused .unroutedAddress := by
  simp only [storeWord, written, if_true, unrouted]

end wrongBase

/-- With nothing in flight a position's store is presented as it is. -/
theorem sendWord_nothing_in_flight {s : State} (empty : s.path = []) (i : Fin 5) (next : EncStep) :
    sendWord i next s = storeWord i next s := by
  rw [sendWord, settle_nil empty]

/-- Settles O49: with nothing in flight the first access is the store of word 0, and the transmission stops where it does. -/
theorem wrongBaseStopsTheTransmission : Obligations.WrongBaseStopsTheTransmission := by
  unfold Obligations.WrongBaseStopsTheTransmission
  intro s empty idle written
  have store : sendWord 0 .tx1 (beginTransmit s) = storeWord 0 .tx1 (beginTransmit s) :=
    sendWord_nothing_in_flight (by exact empty) 0 .tx1
  refine ⟨fun off routed fails => ?_, fun unrouted => ?_⟩
  · have stops := store.trans (storeWord_failing (s := beginTransmit s) written .tx1 (by exact routed) fails)
    exact (exec_transmit_idle idle).trans (serializerRun_fault (sendWordBarrier_fault stops))
  · have stops := store.trans (storeWord_unrouted (s := beginTransmit s) written .tx1 (by exact unrouted))
    exact (exec_transmit_idle idle).trans (serializerRun_refused (sendWordBarrier_refused stops))

/-- A transmission of a written `REC` completes, whatever is in flight. -/
theorem transmitAccepted_completes {s : State} (ready : s.Ready) (written : s.enc.recWritten = true) :
    ∃ t, transmitAccepted s = .next t := ⟨_, transmitAccepted_ready ready written⟩

/-- Settles O53: by `exec_cases` only a transmission could stop, and under the set-up it completes. -/
theorem everyInstructionCompletes : Obligations.EveryInstructionCompletes := by
  unfold Obligations.EveryInstructionCompletes
  intro s i ready encoded
  obtain ⟨r, eq⟩ | ⟨x, r, eq⟩ | ⟨c, -, -, eq⟩ | ⟨isTransmit, idle, eq⟩ | ⟨c, -, -, eq⟩ := exec_cases i s <;> rw [eq]
  · exact ⟨_, rfl⟩
  · exact ⟨_, rfl⟩
  · exact ⟨_, rfl⟩
  · exact transmitAccepted_completes ready (encoded isTransmit idle)
  · exact transmitAccepted_completes (by exact ready) rfl

end Sys2Proof.Machine
end

section
/-! The device's dispatch (R140, R160): the five updates and the four reads, each with the offset and width that select it,
and what follows for every access line. -/

namespace Sys2Proof.Machine

/-! ### The updates and the reads, each with its offset and width -/

section status
variable {p : Params} {off : Nat} (status : window p off = .status)
include status

theorem accessError_status {n : Nat} (width : n = 4 ∨ n = 8) : accessError p off n = none :=
  accessError_none_iff.mpr ⟨width, .inr (window_status_iff.mp status)⟩

/-- An 8-byte write of the status window (R172). -/
theorem devWrite_status (bytes : List Byte) (d : Device) :
    devWrite p off 8 bytes d = .ok (d.setStatus (payload64 bytes)) := by
  simp [devWrite, accessError_status status (.inr rfl), status]

/-- A 4-byte write of the status window (R173). -/
theorem devWrite_statusLow (bytes : List Byte) (d : Device) :
    devWrite p off 4 bytes d = .ok (d.storeStatusLow (payload32 bytes)) := by
  simp [devWrite, accessError_status status (.inl rfl), status]

/-- An 8-byte read of the status window, whatever the parameters (R170). -/
theorem devRead_statusWhole (d : Device) : devRead p off 8 d = .ok d.readStatus := by
  simp [devRead, accessError_status status (.inr rfl), status]

/-- A 4-byte read of the status window (R171). -/
theorem devRead_statusLow (d : Device) : devRead p off 4 d = .ok d.readStatusLow := by
  simp [devRead, accessError_status status (.inl rfl), status]

end status

/-- Where an access succeeds: the status window, or the start of a word of the instruction window (R55, R56). -/
theorem place_of_accessError_none {p : Params} {off n : Nat} (succeeds : accessError p off n = none) :
    (n = 4 ∨ n = 8) ∧ (window p off = .status ∨ ∃ i : Fin 5, off = 8 * i.val) := by
  obtain ⟨width, ⟨below, aligned⟩ | status⟩ := accessError_none_iff.mp succeeds
  · exact ⟨width, .inr ⟨⟨off / 8, by omega⟩, by simp only; omega⟩⟩
  · exact ⟨width, .inl (window_status_iff.mpr status)⟩

/-- Which update a successful write is: it depends on the access alone, not on the device (R142 to R144, R172, R173). -/
theorem devWrite_cases {p : Params} {off n : Nat} (succeeds : accessError p off n = none) (bytes : List Byte) :
    (n = 8 ∧ off = 0x20 ∧ ∀ d, devWrite p off n bytes d = .ok (d.trigger (payload64 bytes))) ∨
    (n = 8 ∧ window p off = .status ∧ ∀ d, devWrite p off n bytes d = .ok (d.setStatus (payload64 bytes))) ∨
    (n = 4 ∧ window p off = .status ∧ ∀ d, devWrite p off n bytes d = .ok (d.storeStatusLow (payload32 bytes))) ∨
    (∃ i : Fin 4, n = 8 ∧ off = 8 * i.val ∧
      ∀ d, devWrite p off n bytes d = .ok (d.storeWhole i.castSucc (payload64 bytes))) ∨
    ∃ i : Fin 5, n = 4 ∧ off = 8 * i.val ∧ ∀ d, devWrite p off n bytes d = .ok (d.storeLow i (payload32 bytes)) := by
  obtain ⟨rfl | rfl, status | ⟨i, rfl⟩⟩ := place_of_accessError_none succeeds
  · exact .inr (.inr (.inl ⟨rfl, status, devWrite_statusLow status bytes⟩))
  · exact .inr (.inr (.inr (.inr ⟨i, rfl, rfl, devWrite_narrow p i bytes⟩)))
  · exact .inr (.inl ⟨rfl, status, devWrite_status status bytes⟩)
  · cases i using Fin.lastCases with
    | last => exact .inl ⟨rfl, rfl, devWrite_trigger p bytes⟩
    | cast i => exact .inr (.inr (.inr (.inl ⟨i, rfl, rfl, devWrite_word p i bytes⟩)))

/-- Which bytes a successful read returns (R161, R162, R170, R171). -/
theorem devRead_cases {p : Params} {off n : Nat} (succeeds : accessError p off n = none) :
    (n = 8 ∧ window p off = .status ∧ ∀ d, devRead p off n d = .ok d.readStatus) ∨
    (n = 4 ∧ window p off = .status ∧ ∀ d, devRead p off n d = .ok d.readStatusLow) ∨
    (∃ i : Fin 5, n = 8 ∧ off = 8 * i.val ∧ ∀ d, devRead p off n d = .ok (d.readWhole i)) ∨
    ∃ i : Fin 5, n = 4 ∧ off = 8 * i.val ∧ ∀ d, devRead p off n d = .ok (d.readLow i) := by
  obtain ⟨rfl | rfl, status | ⟨i, rfl⟩⟩ := place_of_accessError_none succeeds
  · exact .inr (.inl ⟨rfl, status, devRead_statusLow status⟩)
  · exact .inr (.inr (.inr ⟨i, rfl, rfl, devRead_narrow p i⟩))
  · exact .inl ⟨rfl, status, devRead_statusWhole status⟩
  · exact .inr (.inr (.inl ⟨i, rfl, rfl, devRead_word p i⟩))

section readBytes
variable (d : Device) (i : Fin 5)

theorem Device.readWhole_length : (d.readWhole i).length = 8 := wordBytes_length _
theorem Device.readLow_length : (d.readLow i).length = 4 := halfBytes_length _
theorem Device.readStatus_length : d.readStatus.length = 8 := wordBytes_length _
theorem Device.readStatusLow_length : d.readStatusLow.length = 4 := halfBytes_length _

theorem Device.fromLE_readWhole : fromLE (d.readWhole i) = (d.cell i).toNat := fromLE_wordBytes _

theorem Device.fromLE_readLow : fromLE (d.readLow i) = (d.cell i).toNat % 2 ^ 32 :=
  (fromLE_halfBytes _).trans (lowHalf_toNat _)

theorem Device.fromLE_readStatus : fromLE d.readStatus = d.status.toNat := fromLE_wordBytes _

theorem Device.fromLE_readStatusLow : fromLE d.readStatusLow = d.status.toNat % 2 ^ 32 :=
  (fromLE_halfBytes _).trans (lowHalf_toNat _)

end readBytes

/-- A write that the device performs raises no error. -/
theorem accessError_of_write {p : Params} {off n : Nat} {bytes : List Byte} {d d' : Device}
    (write : devWrite p off n bytes d = .ok d') : accessError p off n = none := by
  by_contra fails
  obtain ⟨e, fails⟩ := Option.ne_none_iff_exists'.mp fails
  cases (devWrite_error.mpr fails).symm.trans write

/-- A read that the device answers raises no error. -/
theorem accessError_of_read {p : Params} {off n : Nat} {d : Device} {data : List Byte}
    (read : devRead p off n d = .ok data) : accessError p off n = none := by
  by_contra fails
  obtain ⟨e, fails⟩ := Option.ne_none_iff_exists'.mp fails
  cases (devRead_error.mpr fails).symm.trans read

/-- A read that succeeds returns as many bytes as its width (R160). -/
theorem devRead_length {p : Params} {off n : Nat} {d : Device} {data : List Byte} (h : devRead p off n d = .ok data) :
    data.length = n := by
  obtain ⟨rfl, -, row⟩ | ⟨rfl, -, row⟩ | ⟨i, rfl, -, row⟩ | ⟨i, rfl, -, row⟩ := devRead_cases (accessError_of_read h) <;>
    cases (row d).symm.trans h
  · exact d.readStatus_length
  · exact d.readStatusLow_length
  · exact d.readWhole_length i
  · exact d.readLow_length i

/-- A read sees the cell at its own offset, or `STATUS`, and nothing else of the device. -/
theorem devRead_congr {p : Params} {off : Nat} (n : Nat) {d d' : Device}
    (cells : ∀ i : Fin 5, off = 8 * i.val → d'.cell i = d.cell i)
    (status : window p off = .status → d'.status = d.status) : devRead p off n d' = devRead p off n d := by
  cases error : accessError p off n with
  | some e => rw [devRead_error.mpr error, devRead_error.mpr error]
  | none =>
    obtain ⟨-, h, row⟩ | ⟨-, h, row⟩ | ⟨i, -, h, row⟩ | ⟨i, -, h, row⟩ := devRead_cases error <;> rw [row, row]
    · rw [Device.readStatus, status h, Device.readStatus]
    · rw [Device.readStatusLow, status h, Device.readStatusLow]
    · rw [Device.readWhole, cells i h, Device.readWhole]
    · rw [Device.readLow, cells i h, Device.readLow]

/-! ### Access lines -/

section lines
variable (s : State) (off : Nat)

theorem State.storeAt_ok {s : State} {off : Nat} {bytes : List Byte} {d : Device}
    (write : devWrite s.params off bytes.length bytes s.dev = .ok d) : s.storeAt off bytes = s.wrote d := by
  rw [State.storeAt, write]

theorem State.storeAt_failed {s : State} {off : Nat} {bytes : List Byte} {e : AccessError}
    (fails : accessError s.params off bytes.length = some e) :
    s.storeAt off bytes = s.respond (.failed e off bytes.length) := by
  rw [State.storeAt, devWrite_error.mpr fails]

/-- A write line is the write of R140: each row of R95 is its update, and BAD_WR its failure. -/
theorem runLine_write (bytes : List Byte) :
    runLine (.access ⟨.write, off, bytes.length, bytes⟩) s = .next (s.storeAt off bytes) := by
  have written {i : Instr} {d : Device} (row : decodeWrite s.params off bytes.length bytes = .instr i)
      (run : exec i s = .next (s.wrote d)) (write : devWrite s.params off bytes.length bytes s.dev = .ok d) :
      runLine (.access ⟨.write, off, bytes.length, bytes⟩) s = .next (s.storeAt off bytes) := by
    rw [runLine_of_decode ((decode_write ..).trans row), run, State.storeAt_ok write]
  obtain ⟨len, rfl, row⟩ | ⟨len, rfl, row⟩ | ⟨len, status, row⟩ | ⟨len, status, row⟩ | ⟨i, len, rfl, row⟩ |
    ⟨i, len, rfl, row⟩ | ⟨fails, -⟩ := decodeWrite_cases s.params off bytes.length bytes rfl
  · exact written row rfl (by rw [len]; exact devWrite_trigger ..)
  · exact written row rfl (by rw [len]; exact devWrite_narrow _ 4 ..)
  · exact written row rfl (by rw [len]; exact devWrite_status status ..)
  · exact written row rfl (by rw [len]; exact devWrite_statusLow status ..)
  · exact written row rfl (by rw [len]; exact devWrite_word ..)
  · exact written row rfl (by rw [len]; exact devWrite_narrow _ i.castSucc ..)
  · obtain ⟨e, fails⟩ := Option.isSome_iff_exists.mp fails
    rw [runLine_failing_write rfl fails, State.storeAt_failed fails]
    rfl

/-- A read line that succeeds returns the bytes of R160 and changes nothing: each row of R95 is its read. -/
theorem runLine_read {s : State} {off n : Nat} {data : List Byte} (read : devRead s.params off n s.dev = .ok data) :
    runLine (.access ⟨.read, off, n, []⟩) s = .next (s.respond (.data data)) := by
  have returned {i : Instr} {bytes : List Byte} (row : decodeRead s.params off n = .instr i)
      (run : exec i s = .next (s.respond (.data bytes))) (bytesRead : devRead s.params off n s.dev = .ok bytes) :
      runLine (.access ⟨.read, off, n, []⟩) s = .next (s.respond (.data data)) := by
    cases bytesRead.symm.trans read
    rw [runLine_of_decode ((decode_read ..).trans row), run]
  obtain ⟨rfl, rfl, row⟩ | ⟨rfl, rfl, row⟩ | ⟨rfl, status, row⟩ | ⟨rfl, status, row⟩ | ⟨i, rfl, rfl, row⟩ |
    ⟨i, rfl, rfl, row⟩ | ⟨fails, -⟩ := decodeRead_cases s.params off n
  · exact returned row rfl (devRead_word _ 4 _)
  · exact returned row rfl (devRead_narrow _ 4 _)
  · exact returned row rfl (devRead_statusWhole status _)
  · exact returned row rfl (devRead_statusLow status _)
  · exact returned row rfl (devRead_word _ i.castSucc _)
  · exact returned row rfl (devRead_narrow _ i.castSucc _)
  · obtain ⟨e, fails⟩ := Option.isSome_iff_exists.mp fails
    cases (devRead_error.mpr fails).symm.trans read

end lines

/-- Settles O7: `runLine_write` is the dispatch of R140, and `runLine_read` and `runLine_failing_read` are that of R160. -/
theorem accessLinesFollowDispatch : Obligations.AccessLinesFollowDispatch := by
  unfold Obligations.AccessLinesFollowDispatch
  refine fun s off n bytes => ⟨fun len => ?_, ?_⟩
  · subst len
    rw [runLine_write]
    cases write : devWrite s.params off bytes.length bytes s.dev with
    | ok d => rw [State.storeAt_ok write]
    | error e => rw [State.storeAt_failed (devWrite_error.mp write)]
  · cases read : devRead s.params off n s.dev with
    | ok data => exact runLine_read read
    | error e => exact runLine_failing_read (devRead_error.mp read)

/-- With well-formed parameters an access succeeds exactly in the combinations the spec lists (R55, R56). -/
theorem accessError_none_iff_listed {p : Params} {off n : Nat} (wf : p.wf = true) :
    accessError p off n = none ↔
      (n = 4 ∨ n = 8) ∧ (off ∈ [0x00, 0x08, 0x10, 0x18, 0x20] ∨ off = p.devStatus) := by
  have above := (window_status_iff.mp (window_devStatus wf)).1
  rw [accessError_none_iff, mem_wordOffsets_iff]
  omega

/-- Settles O8: a write answers `ok`, a read its bytes, and either the failure, as `accessError` says. -/
theorem accessSucceedsExactly : Obligations.AccessSucceedsExactly := by
  unfold Obligations.AccessSucceedsExactly
  intro s a wfp wfa
  have listed := accessError_none_iff_listed (off := a.off) (n := a.n) wfp
  obtain ⟨off, bytes, rfl⟩ | ⟨off, n, rfl⟩ := access_cases wfa
  · cases error : accessError s.params off bytes.length with
    | none =>
      cases write : devWrite s.params off bytes.length bytes s.dev with
      | ok d =>
        refine ⟨s.wrote d, ?_, rfl, rfl, rfl, rfl, fun _ => listed.mp error, fun _ => .inl rfl⟩
        rw [runLine_write, State.storeAt_ok write]
      | error e => cases (devWrite_error.mp write).symm.trans error
    | some e =>
      refine ⟨_, runLine_failing_write rfl error, rfl, rfl, rfl, rfl, nofun, fun h => ?_⟩
      cases (listed.mpr h).symm.trans error
  · cases read : devRead s.params off n s.dev with
    | ok data =>
      exact ⟨_, runLine_read read, rfl, rfl, rfl, rfl, fun _ => listed.mp (accessError_of_read read),
        fun _ => .inr ⟨data, devRead_length read, rfl⟩⟩
    | error e =>
      have fails := devRead_error.mp read
      refine ⟨_, runLine_failing_read fails, rfl, rfl, rfl, rfl, nofun, fun h => ?_⟩
      cases (listed.mpr h).symm.trans fails

/-- Settles O10: a read that R161 to R171 do not list raises an error, and its line answers that and no data. -/
theorem failedReadDeliversNothing : Obligations.FailedReadDeliversNothing := by
  unfold Obligations.FailedReadDeliversNothing
  intro s off n _ other
  obtain ⟨e, fails⟩ := accessError_of_not_listed other
  exact ⟨e, runLine_failing_read fails⟩

/-- Inside a window an access that fails is one of wrong width or alignment (R182, D12). -/
theorem accessError_invalidWidth {p : Params} {off n : Nat} (fails : accessError p off n ≠ none)
    (inWindow : window p off ≠ .none) : accessError p off n = some .invalidWidth := by
  obtain ⟨e, fails⟩ := Option.ne_none_iff_exists'.mp fails
  rw [fails, accessError_name fails, accessErrorName, if_neg inWindow]

/-- Settles O12: either condition puts the offset in a window and breaks R55 or R56. -/
theorem wrongWidthOrAlignmentIsInvalidWidth : Obligations.WrongWidthOrAlignmentIsInvalidWidth := by
  unfold Obligations.WrongWidthOrAlignmentIsInvalidWidth
  intro s off n bytes wrong
  have fails : accessError s.params off n = some .invalidWidth :=
    accessError_invalidWidth (by rw [Ne, accessError_none_iff]; omega) (by rw [Ne, window_none_iff]; omega)
  exact ⟨fun len => runLine_failing_write len fails, runLine_failing_read fails⟩

/-- Settles O13: both answer `accessErrorName`, which is the error of an access that fails. -/
theorem badAccessesComplete : Obligations.BadAccessesComplete := by
  unfold Obligations.BadAccessesComplete
  intro s off n bytes
  refine ⟨accessErrorName s.params off, exec_badWr off n bytes s, exec_badRd off n s, fun wf => ?_⟩
  obtain ⟨e, fails⟩ := Option.isSome_iff_exists.mp wf
  rw [fails, accessError_name fails]

/-! ### What an access depends on, and what a second one does -/

/-- Two devices with the same cells and the same `STATUS` (R23: the rest is read by no access). -/
def Device.SameWords (d d' : Device) : Prop := d'.w = d.w ∧ d'.status = d.status

theorem Device.SameWords.cell {d d' : Device} (same : d.SameWords d') (i : Fin 5) : d'.cell i = d.cell i := by
  rw [Device.cell, same.1, Device.cell]

/-- The same write of two such devices leaves two such devices. -/
theorem Device.SameWords.devWrite {p : Params} {off n : Nat} {bytes : List Byte} {d d' x : Device}
    (same : d.SameWords d') (write : devWrite p off n bytes d = .ok x) :
    ∃ x', Machine.devWrite p off n bytes d' = .ok x' ∧ x.SameWords x' := by
  obtain ⟨-, -, row⟩ | ⟨-, -, row⟩ | ⟨-, -, row⟩ | ⟨i, -, -, row⟩ | ⟨i, -, -, row⟩ :=
      devWrite_cases (accessError_of_write write) bytes <;>
    cases (row d).symm.trans write <;> refine ⟨_, row d', ?_⟩
  · exact ⟨by rw [Device.trigger_w, Device.trigger_w, same.1], rfl⟩
  · exact ⟨same.1, rfl⟩
  · exact ⟨same.1, congrArg (replaceLow · _) same.2⟩
  · exact ⟨by rw [Device.storeWhole_w, Device.storeWhole_w, same.1], same.2⟩
  · exact ⟨by rw [Device.storeLow_w, Device.storeLow_w, same.cell i, same.1], same.2⟩

/-- A write line in two states whose devices have the same words. -/
theorem State.storeAt_sameWords {s s' : State} (params : s'.params = s.params) (same : s.dev.SameWords s'.dev) (off : Nat)
    (bytes : List Byte) :
    (s.storeAt off bytes).dev.SameWords (s'.storeAt off bytes).dev ∧
      (s'.storeAt off bytes).reply = (s.storeAt off bytes).reply := by
  cases write : Machine.devWrite s.params off bytes.length bytes s.dev with
  | ok d =>
    obtain ⟨d', write', same'⟩ := same.devWrite write
    rw [← params] at write'
    rw [State.storeAt_ok write, State.storeAt_ok write']
    exact ⟨same', rfl⟩
  | error e =>
    have fails := devWrite_error.mp write
    rw [State.storeAt_failed fails, State.storeAt_failed (params.symm ▸ fails)]
    exact ⟨same, rfl⟩

/-- A record word is one write: of words 0 to 3 whole, of word 4 the trigger (R142, R143). -/
theorem exec_decodeRecordWord (idx : Fin 5) (w : Word64) (s : State) :
    exec (decodeRecordWord idx w) s = .next (s.wrote (if idx = 4 then s.dev.trigger w else s.dev.storeWhole idx w)) := by
  have operand (i : Fin 4) :
      receiveOperand i (strideMinorOf w) (strideMajorOf w) (baseAddrOf w) s =
        .next (s.wrote (s.dev.storeWhole i.castSucc w)) := by
    rw [receiveOperand, opdWord_fields]
  match idx with
  | 0 => exact operand 0
  | 1 => exact operand 1
  | 2 => exact operand 2
  | 3 => exact operand 3
  | 4 =>
    change exec (decodeMeta w) s = receiveMeta w s
    unfold decodeMeta
    split
    · rename_i gemm
      change receiveMeta (metaWord _ _ _ _ _ _ Config.gemmType _) s = _
      rw [← gemm, metaWord_fields]
    · change receiveMeta (metaWord _ _ _ _ _ _ _ _) s = _
      rw [metaWord_fields]

/-- An access line that runs carries a payload of its width (log 37). -/
theorem runLine_access_wf {a : Access} {s t : State} (h : runLine (.access a) s = .next t) : (Line.access a).wf = true := by
  by_contra bad
  have malformed : decode s.params (.access a) = .rejected .payloadLength := by
    obtain ⟨op, off, n, bytes⟩ := a
    cases op with
    | write => exact if_pos (mt beq_iff_eq.mpr bad)
    | read => exact if_pos (mt beq_iff_eq.mpr bad)
  cases (runLine_of_rejected malformed).symm.trans h

theorem runLine_word_length {idx : Fin 5} {bytes : List Byte} {s t : State} (h : runLine (.word idx bytes) s = .next t) :
    bytes.length = 8 := by
  by_contra bad
  have malformed : decode s.params (.word idx bytes) = .rejected .wordLength := if_pos bad
  cases (runLine_of_rejected malformed).symm.trans h

/-- Settles O59: a write, a read and a record word see the cells and `STATUS` alone. -/
theorem outcomeDependsOnCellsAndStatus : Obligations.OutcomeDependsOnCellsAndStatus := by
  unfold Obligations.OutcomeDependsOnCellsAndStatus
  intro s s' t l noCommand params words status run
  have same : s.dev.SameWords s'.dev := ⟨words, status⟩
  cases l with
  | command c args => exact absurd rfl (noCommand c args)
  | access a =>
    obtain ⟨off, bytes, rfl⟩ | ⟨off, n, rfl⟩ := access_cases (runLine_access_wf run)
    · cases (runLine_write s off bytes).symm.trans run
      obtain ⟨⟨words', status'⟩, reply⟩ := State.storeAt_sameWords params same off bytes
      exact ⟨_, runLine_write s' off bytes, words', status', reply⟩
    · have reads : devRead s'.params off n s'.dev = devRead s.params off n s.dev := by
        rw [params]
        exact devRead_congr n (fun i _ => same.cell i) fun _ => status
      cases read : devRead s.params off n s.dev with
      | ok data =>
        cases (runLine_read read).symm.trans run
        exact ⟨_, runLine_read (reads.trans read), words, status, rfl⟩
      | error e =>
        cases (runLine_failing_read (devRead_error.mp read)).symm.trans run
        exact ⟨_, runLine_failing_read (devRead_error.mp (reads.trans read)), words, status, rfl⟩
  | word idx bytes =>
    have len := runLine_word_length run
    have word (s : State) :=
      (runLine_of_decode (decode_word s.params idx len)).trans (exec_decodeRecordWord idx (payload64 bytes) s)
    cases (word s).symm.trans run
    refine ⟨_, word s', ?_, ?_, rfl⟩
    · by_cases last : idx = 4 <;> simp [last, words]
    · by_cases last : idx = 4 <;> simp [last, status]

end Sys2Proof.Machine
end

section
/-! The device's instructions one by one (R142 to R149, R161, R162, R170 to R174, R210): their cells, the trigger's record, the
padding, and what a store does not reach. -/

namespace Sys2Proof.Machine

/-! ### Cells after a store -/

theorem castSucc_eq_iff {i : Fin 4} {j : Fin 5} : i.castSucc = j ↔ j.val = i.val :=
  ⟨fun h => h ▸ rfl, fun h => Fin.ext h.symm⟩

theorem four_eq_iff {j : Fin 5} : 4 = j ↔ j.val = 4 := ⟨fun h => h ▸ rfl, fun h => Fin.ext h.symm⟩

/-- The cells after a narrow write, as arithmetic (R144). -/
theorem Device.cell_storeLow_toNat (d : Device) (i j : Fin 5) (v : Word32) :
    ((d.storeLow i v).cell j).toNat =
      if i = j then (d.cell j).toNat / 2 ^ 32 * 2 ^ 32 + v.toNat else (d.cell j).toNat := by
  by_cases same : i = j
  · subst same
    simp only [Device.cell_storeLow, if_true, replaceLow_toNat]
  · simp only [Device.cell_storeLow, if_neg same]

/-- No narrow write reaches the upper half of a cell. -/
theorem Device.cell_storeLow_high (d : Device) (i j : Fin 5) (v : Word32) :
    ((d.storeLow i v).cell j).toNat / 2 ^ 32 = (d.cell j).toNat / 2 ^ 32 := by
  have low := v.isLt
  rw [Device.cell_storeLow_toNat]
  split <;> omega

/-! ### Writes of the instruction window -/

section writes
variable (s : State)

theorem exec_wr8W (i : Fin 4) (v : Word64) : exec (.wr8W i v) s = .next (s.wrote (s.dev.storeWhole i.castSucc v)) := rfl

theorem exec_wr4W (i : Fin 4) (h : Word32) : exec (.wr4W i h) s = .next (s.wrote (s.dev.storeLow i.castSucc h)) := rfl

theorem exec_wr4Meta (h : Word32) : exec (.wr4Meta h) s = .next (s.wrote (s.dev.storeLow 4 h)) := rfl

theorem exec_wr8Trig (v : Word64) : exec (.wr8Trig v) s = .next (s.wrote (s.dev.trigger v)) := rfl

theorem exec_wr8St (v : Word64) : exec (.wr8St v) s = .next (s.wrote (s.dev.setStatus v)) := rfl

theorem exec_wr4St (h : Word32) : exec (.wr4St h) s = .next (s.wrote (s.dev.storeStatusLow h)) := rfl

theorem exec_record (k n m : BitVec 8) (rsv tB tA : BitVec 1) (it : BitVec 5) (pad : Word32) :
    exec (.record k n m rsv tB tA it pad) s = .next (s.wrote (s.dev.trigger (metaWord k n m rsv tB tA it pad))) := rfl

end writes

/-- Settles O14: WR8_W is one whole store. -/
theorem wordWriteReplacesCell : Obligations.WordWriteReplacesCell := by
  unfold Obligations.WordWriteReplacesCell
  refine fun s i v => ⟨_, exec_wr8W s i v, fun j => ?_, rfl⟩
  exact (s.dev.cell_storeWhole i.castSucc j v).trans (if_congr castSucc_eq_iff rfl rfl)

/-- Settles O15: each operand word is the whole store of `opdWord` that WR8_W makes. -/
theorem operandWordsAreWordWrites : Obligations.OperandWordsAreWordWrites := by
  unfold Obligations.OperandWordsAreWordWrites
  exact fun s sm sM ba => ⟨opdWord sm sM ba, opdWord_toNat sm sM ba, _, _, _, _, rfl, exec_wr8W s 0 _, rfl, exec_wr8W s 1 _,
    rfl, exec_wr8W s 2 _, rfl, exec_wr8W s 3 _⟩

/-- Settles O16: WR4_W is one narrow store, of word 4 as of the others. -/
theorem narrowWriteReplacesLowHalf : Obligations.NarrowWriteReplacesLowHalf := by
  unfold Obligations.NarrowWriteReplacesLowHalf
  refine fun s v => ⟨fun i => ⟨_, exec_wr4W s i v, fun j => ?_, rfl⟩, _, exec_wr4Meta s v, fun j => ?_, rfl⟩
  · exact (s.dev.cell_storeLow_toNat i.castSucc j v).trans (if_congr castSucc_eq_iff rfl rfl)
  · exact (s.dev.cell_storeLow_toNat 4 j v).trans (if_congr four_eq_iff rfl rfl)

/-- Settles O17: WR8_TRIG is the trigger, whose fields are those of the laws of the state. -/
theorem triggerCompletes : Obligations.TriggerCompletes := by
  unfold Obligations.TriggerCompletes
  refine fun s v => ⟨_, exec_wr8Trig s v, fun j => ?_, BitVec.toNat_add _ _, rfl⟩
  exact (s.dev.cell_trigger j v).trans (if_congr four_eq_iff rfl rfl)

/-- Settles O18: GEMM and RECORD are the trigger with `metaWord`, whose type is 1 in GEMM's. -/
theorem metaWordsTrigger : Obligations.MetaWordsTrigger := by
  unfold Obligations.MetaWordsTrigger
  exact fun s k n m rsv tB tA pad it => ⟨_, _, metaWord_toNat k n m rsv tB tA Config.gemmType pad,
    metaWord_toNat k n m rsv tB tA it pad, _, _, rfl, exec_wr8Trig s _, rfl, exec_wr8Trig s _⟩

/-! ### The record a trigger hands over -/

/-- Word 4 gives the record its Meta fields and nothing else (R147). -/
theorem decodeRecord_set_four (w : Vector Word64 Config.recordWords) (v : Word64) :
    decodeRecord (w.set (4 : Fin 5) v) =
      { decodeRecord w with
        k := kOf v, n := nOf v, m := mOf v, ifBTranspose := bTransposeOf v, ifATranspose := aTransposeOf v,
        instructionType := itypeOf v } := by
  simp [decodeRecord]

/-- Settles O19: the reserved bit and the padding are in no field of the decoded record, and the type is in one. -/
theorem everyTypeTriggersAlike : Obligations.EveryTypeTriggersAlike := by
  unfold Obligations.EveryTypeTriggersAlike
  intro s k n m rsv rsv' tB tA pad pad' it it'
  refine ⟨_, _, { decodeRecord s.dev.w with k, n, m, ifBTranspose := tB, ifATranspose := tA }, exec_record ..,
    exec_record .., rfl, fun j notFour => ?_, ?_, ?_⟩
  · have other : ¬(4 = j) := fun h => notFour (four_eq_iff.mp h)
    rw [State.wrote_dev, State.wrote_dev, Device.cell_trigger, Device.cell_trigger, if_neg other, if_neg other]
  · simp only [State.wrote_dev, Device.trigger_execLog, decodeRecord_set_four, kOf_metaWord, nOf_metaWord, mOf_metaWord,
      bTransposeOf_metaWord, aTransposeOf_metaWord, itypeOf_metaWord]
  · simp only [State.wrote_dev, Device.trigger_execLog, decodeRecord_set_four, kOf_metaWord, nOf_metaWord, mOf_metaWord,
      bTransposeOf_metaWord, aTransposeOf_metaWord, itypeOf_metaWord]

/-! ### Padding -/

/-- Decoding reads the lower half of word 4 only (R147). -/
theorem decodeRecord_set_four_congr (w : Vector Word64 Config.recordWords) {v v' : Word64}
    (low : v.toNat % 2 ^ 32 = v'.toNat % 2 ^ 32) :
    decodeRecord (w.set (4 : Fin 5) v) = decodeRecord (w.set (4 : Fin 5) v') := by
  have k : kOf v = kOf v' := BitVec.eq_of_toNat_eq (by rw [kOf_toNat, kOf_toNat]; omega)
  have n : nOf v = nOf v' := BitVec.eq_of_toNat_eq (by rw [nOf_toNat, nOf_toNat]; omega)
  have m : mOf v = mOf v' := BitVec.eq_of_toNat_eq (by rw [mOf_toNat, mOf_toNat]; omega)
  have tB : bTransposeOf v = bTransposeOf v' :=
    BitVec.eq_of_toNat_eq (by rw [bTransposeOf_toNat, bTransposeOf_toNat]; omega)
  have tA : aTransposeOf v = aTransposeOf v' :=
    BitVec.eq_of_toNat_eq (by rw [aTransposeOf_toNat, aTransposeOf_toNat]; omega)
  have it : itypeOf v = itypeOf v' := BitVec.eq_of_toNat_eq (by rw [itypeOf_toNat, itypeOf_toNat]; omega)
  rw [decodeRecord_set_four, decodeRecord_set_four, k, n, m, tB, tA, it]

/-- The Meta word ENCODE builds has no padding bit set (R86, R92). -/
theorem buildMeta_padding {c : Cmd} (passes : validateCmd c = none) : (buildMeta c).toNat < 2 ^ 32 := by
  have contract := validateCmd_none_iff.mp passes
  obtain ⟨hm, hn, hk⟩ := contract.blocks_lt
  obtain ⟨hA, hB, hi⟩ := contract.flags
  rw [contract.buildMeta_toNat]
  omega

/-- After a transmission word 4 of the device is word 4 of `REC` (R116). -/
theorem transmitAccepted_cell_four {s : State} (ready : s.Ready) (written : s.enc.recWritten = true) :
    ∃ t, transmitAccepted s = .next t ∧ t.dev.cell 4 = s.enc.recWords[4] :=
  ⟨_, transmitAccepted_ready ready written, Device.cell_sendRest _ _ 4⟩

/-- After the last store of a paced transmission word 4 of the device is word 4 of `REC`, whatever was in flight (R116). -/
theorem runEvent_txAdvance_cell_four {s : State} (ready : s.Ready) (written : s.enc.recWritten = true)
    (last : s.enc.step = .tx4) :
    ∃ t, runEvent .txAdvance s = .next t ∧ t.dev.cell 4 = s.enc.recWords[4] := by
  obtain ⟨writes, enc⟩ := settle_onlyWrites s
  have ready' : (settle s).Ready := by rw [State.Ready, writes.params]; exact ready
  have position : runEvent .txAdvance s = sendWord 4 .fence s := by simp only [runEvent, serializerStep, last]
  refine ⟨_, position.trans (storeWord_trigger ready' (enc.symm ▸ written) .fence), ?_⟩
  change ((settle s).dev.trigger (settle s).enc.recWords[(4 : Fin 5)]).cell 4 = _
  rw [Device.cell_trigger, if_pos rfl, enc]
  rfl

/-- A 4-byte write line leaves the padding of word 4, whatever its offset (R92, R144). -/
theorem runLine_narrow_padding (s : State) (off : Nat) {bytes : List Byte} (len : bytes.length = 4) :
    ∃ t, runLine (.access ⟨.write, off, 4, bytes⟩) s = .next t ∧
      (t.dev.cell 4).toNat / 2 ^ 32 = (s.dev.cell 4).toNat / 2 ^ 32 := by
  refine ⟨s.storeAt off bytes, by rw [← len, runLine_write], ?_⟩
  cases error : accessError s.params off bytes.length with
  | some e => rw [State.storeAt_failed error, State.respond_dev]
  | none =>
    obtain ⟨width, -⟩ | ⟨width, -⟩ | ⟨-, -, row⟩ | ⟨i, width, -⟩ | ⟨i, -, -, row⟩ := devWrite_cases error bytes
    · omega
    · omega
    · rw [State.storeAt_ok (row s.dev), State.wrote_dev, Device.cell_storeStatusLow]
    · omega
    · rw [State.storeAt_ok (row s.dev), State.wrote_dev, Device.cell_storeLow_high]

/-- Settles O20: the padding is zero where ENCODE's Meta word stands, kept by narrow writes, and read by no decoding. -/
theorem paddingIsCarriedNotDecoded : Obligations.PaddingIsCarriedNotDecoded := by
  unfold Obligations.PaddingIsCarriedNotDecoded
  refine ⟨fun c => buildMeta_padding, fun s c idle passes => ⟨?encode, fun ready => ?submit⟩,
    fun s inv ready => ⟨fun idle written => ?transmit, fun last => ?lastStore⟩, fun s v => ?readBack,
    fun s v v' low => ?handOver, fun s v => ?metaLow, fun s off bytes len => runLine_narrow_padding s off len⟩
  case encode => exact ⟨_, exec_encode_passed idle passes, buildMeta_padding passes⟩
  case submit =>
    obtain ⟨t, run, cell⟩ := transmitAccepted_cell_four
      (s := { s with enc := s.enc.setRecord (buildRecord c), reply := .done }) ready rfl
    refine ⟨t, (exec_submit_passed idle passes).trans run, ?_⟩
    rw [cell]
    exact buildMeta_padding passes
  case transmit =>
    obtain ⟨t, run, cell⟩ := transmitAccepted_cell_four ready written
    obtain ⟨c, passes, checked⟩ := inv.recordChecked written
    refine ⟨t, (exec_transmit_idle idle).trans run, ?_⟩
    rw [cell, checked]
    exact buildMeta_padding passes
  case lastStore =>
    have written : s.enc.recWritten = true := inv.sendingWritten (last ▸ nofun) (last ▸ nofun)
    obtain ⟨t, run, cell⟩ := runEvent_txAdvance_cell_four ready written last
    obtain ⟨c, passes, checked⟩ := inv.recordChecked written
    refine ⟨t, run, ?_⟩
    rw [cell, checked]
    exact buildMeta_padding passes
  case readBack =>
    refine ⟨_, _, _, exec_wr8Trig s v, rfl, rfl, ?_⟩
    rw [Device.fromLE_readWhole, State.wrote_dev, Device.cell_trigger, if_pos rfl]
  case handOver =>
    refine ⟨_, _, exec_wr8Trig s v, exec_wr8Trig s v', ?_, rfl, rfl⟩
    rw [State.wrote_dev, State.wrote_dev, Device.trigger_execLog, Device.trigger_execLog,
      decodeRecord_set_four_congr s.dev.w low]
  case metaLow =>
    exact ⟨_, exec_wr4Meta s v, s.dev.cell_storeLow_high 4 4 v⟩

/-- Settles O22: DECODE returns `decodeRecord`, which unpacks words 0 to 3 in word order. -/
theorem decodeReturnsTheRecord : Obligations.DecodeReturnsTheRecord := by
  unfold Obligations.DecodeReturnsTheRecord
  exact fun s => ⟨decodeRecord s.dev.w, rfl, rfl, rfl, rfl, rfl, rfl⟩

/-! ### Reads and the Status Register -/

/-- Settles O23: the four rows return `readWhole` or `readLow` of their word. -/
theorem wordReadsReturnTheCell : Obligations.WordReadsReturnTheCell := by
  unfold Obligations.WordReadsReturnTheCell
  intro s
  have whole (i : Fin 5) := And.intro (s.dev.readWhole_length i) (s.dev.fromLE_readWhole i)
  have low (i : Fin 5) := And.intro (s.dev.readLow_length i) (s.dev.fromLE_readLow i)
  exact ⟨fun i => ⟨⟨_, rfl, whole i.castSucc⟩, _, rfl, low i.castSucc⟩, ⟨_, rfl, whole 4⟩, _, rfl, low 4⟩

/-- Settles O24: the two rows return `readStatus` or `readStatusLow`. -/
theorem statusReadsReturnStatus : Obligations.StatusReadsReturnStatus := by
  unfold Obligations.StatusReadsReturnStatus
  exact fun s => ⟨⟨_, rfl, s.dev.readStatus_length, s.dev.fromLE_readStatus⟩,
    _, rfl, s.dev.readStatusLow_length, s.dev.fromLE_readStatusLow⟩

/-- Settles O25: the write sets `STATUS`, and the read returns the bytes of it. -/
theorem statusWriteRoundTrip : Obligations.StatusWriteRoundTrip := by
  unfold Obligations.StatusWriteRoundTrip
  exact fun s v => ⟨_, _, _, exec_wr8St s v, rfl, rfl, rfl, rfl, Device.fromLE_readStatus _⟩

/-- Settles O26: the narrow status write is `replaceLow`, read as arithmetic. -/
theorem statusNarrowWriteKeepsHigh : Obligations.StatusNarrowWriteKeepsHigh := by
  unfold Obligations.StatusNarrowWriteKeepsHigh
  exact fun s v => ⟨_, exec_wr4St s v, replaceLow_toNat s.dev.status v⟩

/-- Settles O27: SET_RECEIVED assigns the constant of R174. -/
theorem setReceivedCompletes : Obligations.SetReceivedCompletes := by
  unfold Obligations.SetReceivedCompletes
  exact fun s => rfl

/-! ### What a store does not reach -/

section otherOffsets
variable (p : Params) (d : Device) {off : Nat} (n : Nat)

/-- A store of one word is seen at that word's offset alone. -/
theorem devRead_storeWhole (i : Fin 5) (v : Word64) (other : off ≠ 8 * i.val) :
    devRead p off n (d.storeWhole i v) = devRead p off n d := by
  refine devRead_congr n (fun j here => ?_) fun _ => rfl
  have ne : i ≠ j := fun same => other (by rw [same, here])
  rw [Device.cell_storeWhole, if_neg ne]

theorem devRead_storeLow (i : Fin 5) (h : Word32) (other : off ≠ 8 * i.val) :
    devRead p off n (d.storeLow i h) = devRead p off n d := by
  refine devRead_congr n (fun j here => ?_) fun _ => rfl
  have ne : i ≠ j := fun same => other (by rw [same, here])
  rw [Device.cell_storeLow, if_neg ne]

/-- A change of `STATUS` is seen at the status offset alone. -/
theorem devRead_setStatus (v : Word64) (other : off ≠ p.devStatus) :
    devRead p off n (d.setStatus v) = devRead p off n d :=
  devRead_congr n (fun _ _ => rfl) fun status => absurd (window_status_iff.mp status).2 other

/-- A trigger is seen at word 4 and at the status offset alone (D7). -/
theorem devRead_trigger (v : Word64) (otherWord : off ≠ 0x20) (otherStatus : off ≠ p.devStatus) :
    devRead p off n (d.trigger v) = devRead p off n d := by
  refine devRead_congr n (fun j here => ?_) fun status => absurd (window_status_iff.mp status).2 otherStatus
  have ne : 4 ≠ j := fun same => otherWord (by rw [here, ← same]; rfl)
  rw [Device.cell_trigger, if_neg ne]

end otherOffsets

/-- Settles O28: each storing access is one of the four updates above. -/
theorem storesLeaveOtherOffsets : Obligations.StoresLeaveOtherOffsets := by
  unfold Obligations.StoresLeaveOtherOffsets
  refine fun s t off n => ⟨fun i v h run other => ?_, fun h run other => ?_, fun v h run other => ?_,
    fun v run otherWord otherStatus => ?_⟩
  · obtain run | run := run <;> cases run
    · exact devRead_storeWhole s.params s.dev n i.castSucc v other
    · exact devRead_storeLow s.params s.dev n i.castSucc h other
  · cases run
    exact devRead_storeLow s.params s.dev n 4 h other
  · obtain run | run := run <;> cases run
    · exact devRead_setStatus s.params s.dev n v other
    · exact devRead_setStatus s.params s.dev n _ other
  · cases run
    exact devRead_trigger s.params s.dev n v otherWord otherStatus

/-- The cells at reset (R26). -/
theorem Device.cell_reset (j : Fin 5) : Device.reset.cell j = 0#64 := by
  revert j
  decide

/-- Settles O29: RESET installs `Device.reset` and the encoder's reset `Encoder.reset`, each on its own side. -/
theorem resetCompletes : Obligations.ResetCompletes := by
  unfold Obligations.ResetCompletes
  exact fun s => ⟨⟨_, exec_reset s, Device.cell_reset, rfl, rfl⟩, _, rfl, rfl, rfl, rfl, rfl, rfl⟩

/-! ### A repeated access, and a sequence of accesses -/

theorem Device.storeWhole_storeWhole (d : Device) (i : Fin 5) (v : Word64) :
    (d.storeWhole i v).storeWhole i v = d.storeWhole i v := by
  simp [Device.storeWhole, Device.setCell, Device.setFilling]

theorem Device.storeLow_storeLow (d : Device) (i : Fin 5) (h : Word32) :
    (d.storeLow i h).storeLow i h = d.storeLow i h := by
  have again : replaceLow (replaceLow (d.cell i) h) h = replaceLow (d.cell i) h := by
    rw [replaceLow, ← paddingOf, paddingOf_replaceLow, paddingOf, ← replaceLow]
  change (d.storeWhole i (replaceLow (d.cell i) h)).storeWhole i (replaceLow ((d.storeLow i h).cell i) h) = _
  rw [Device.cell_storeLow, if_pos rfl, again, Device.storeWhole_storeWhole]
  rfl

theorem Device.storeStatusLow_storeStatusLow (d : Device) (h : Word32) :
    (d.storeStatusLow h).storeStatusLow h = d.storeStatusLow h := by
  have again : replaceLow (replaceLow d.status h) h = replaceLow d.status h := by
    rw [replaceLow, ← paddingOf, paddingOf_replaceLow, paddingOf, ← replaceLow]
  exact congrArg d.setStatus again

/-- A write other than the trigger's has no more to do the second time (R57). -/
theorem devWrite_again {p : Params} {off n : Nat} {bytes : List Byte} {d d' : Device}
    (write : devWrite p off n bytes d = .ok d') (noTrigger : ¬(n = 8 ∧ off = 0x20)) :
    devWrite p off n bytes d' = .ok d' := by
  obtain ⟨width, place, -⟩ | ⟨-, -, row⟩ | ⟨-, -, row⟩ | ⟨i, -, -, row⟩ | ⟨i, -, -, row⟩ :=
    devWrite_cases (accessError_of_write write) bytes
  · exact absurd ⟨width, place⟩ noTrigger
  all_goals
    cases (row d).symm.trans write
    rw [row]
  · rfl
  · rw [Device.storeStatusLow_storeStatusLow]
  · rw [Device.storeWhole_storeWhole]
  · rw [Device.storeLow_storeLow]

/-- The device after an access (R140): a write that succeeds changes it, and nothing else does. -/
def Device.afterAccess (p : Params) (d : Device) (a : Access) : Device :=
  match a.op with
  | .read => d
  | .write =>
    match devWrite p a.off a.n a.bytes d with
    | .ok d' => d'
    | .error _ => d

theorem Device.afterAccess_ok {p : Params} {off n : Nat} {bytes : List Byte} {d d' : Device}
    (write : devWrite p off n bytes d = .ok d') : d.afterAccess p ⟨.write, off, n, bytes⟩ = d' := by
  simp only [Device.afterAccess, write]

theorem Device.afterAccess_failed {p : Params} {off n : Nat} {bytes : List Byte} {d : Device} {e : AccessError}
    (write : devWrite p off n bytes d = .error e) : d.afterAccess p ⟨.write, off, n, bytes⟩ = d := by
  simp only [Device.afterAccess, write]

/-- A well-formed access line goes on; it changes the device as the access does, and nothing else but the reply. -/
theorem runLine_access {a : Access} (wf : (Line.access a).wf = true) (s : State) :
    ∃ r, runLine (.access a) s = .next { s with dev := s.dev.afterAccess s.params a, reply := r } := by
  obtain ⟨off, bytes, rfl⟩ | ⟨off, n, rfl⟩ := access_cases wf
  · cases write : devWrite s.params off bytes.length bytes s.dev with
    | ok d => exact ⟨.ok, by rw [runLine_write, State.storeAt_ok write, Device.afterAccess_ok write]; rfl⟩
    | error e => exact ⟨_, by rw [runLine_failing_write rfl (devWrite_error.mp write), Device.afterAccess_failed write]⟩
  · cases read : devRead s.params off n s.dev with
    | ok data => exact ⟨_, runLine_read read⟩
    | error e => exact ⟨_, runLine_failing_read (devRead_error.mp read)⟩

/-- An access other than the trigger's write leaves nothing more to do to the same access. -/
theorem Device.afterAccess_again {p : Params} {a : Access} (noTrigger : ¬(a.op = .write ∧ a.n = 8 ∧ a.off = 0x20))
    (d : Device) : (d.afterAccess p a).afterAccess p a = d.afterAccess p a := by
  obtain ⟨op, off, n, bytes⟩ := a
  cases op with
  | read => rfl
  | write =>
    cases write : devWrite p off n bytes d with
    | error e => rw [Device.afterAccess_failed write, Device.afterAccess_failed write]
    | ok d' =>
      have again := devWrite_again write fun trigger => noTrigger ⟨rfl, trigger⟩
      rw [Device.afterAccess_ok write, Device.afterAccess_ok again]

/-- The trigger's write hands one record over (R143). -/
theorem Device.afterAccess_trigger_length (p : Params) (d : Device) (bytes : List Byte) :
    (d.afterAccess p ⟨.write, 0x20, 8, bytes⟩).execLog.length = d.execLog.length + 1 := by
  have write : devWrite p 0x20 8 bytes d = .ok (d.trigger (payload64 bytes)) := devWrite_trigger p bytes d
  rw [Device.afterAccess_ok write, Device.trigger_execLog, List.length_append, List.length_singleton]

/-- Settles O60: an access line does to the device what `afterAccess` says, the second time as the first. -/
theorem onlyTheTriggerIsNotIdempotent : Obligations.OnlyTheTriggerIsNotIdempotent := by
  unfold Obligations.OnlyTheTriggerIsNotIdempotent
  intro s a wf
  obtain ⟨r, first⟩ := runLine_access wf s
  obtain ⟨r', second⟩ := runLine_access wf { s with dev := s.dev.afterAccess s.params a, reply := r }
  refine ⟨_, _, first, second, fun noTrigger => Device.afterAccess_again noTrigger s.dev, fun trigger => ?_⟩
  obtain ⟨op, off, n, bytes⟩ := a
  obtain ⟨rfl, rfl, rfl⟩ := trigger
  exact Device.afterAccess_trigger_length ..

/-- A run takes the event at the head of the script and goes on where it does (log 1). -/
theorem run_event {e : Event} {rest : List Event} {k : Nat} {s t : State}
    (h : runEvent e { s with script := rest } = .next t) :
    Host.Core.run core (k + 1) { s with script := e :: rest } = Host.Core.run core k t :=
  run_next (M := core) h

/-- A script of well-formed accesses runs to its end; the device is the fold of the accesses (20_memory section 5). -/
theorem run_accesses {accs : List Access} (wf : ∀ a ∈ accs, (Line.access a).wf = true) (s : State) :
    ∃ r, Host.Core.run core accs.length { s with script := accs.map fun a => .line (.access a) } =
      .next { s with script := [], dev := accs.foldl (Device.afterAccess s.params) s.dev, reply := r } := by
  induction accs generalizing s with
  | nil => exact ⟨s.reply, rfl⟩
  | cons a rest ih =>
    obtain ⟨r, line⟩ := runLine_access (wf a List.mem_cons_self)
      { s with script := rest.map fun a => .line (.access a) }
    obtain ⟨r', run⟩ := ih (fun b mem => wf b (List.mem_cons_of_mem a mem))
      { s with dev := s.dev.afterAccess s.params a, reply := r }
    exact ⟨r', (run_event (s := s) (e := .line (.access a)) line).trans run⟩

/-- Settles O52: the script runs by `run_accesses`, and the read at its end by `runLine_read`. -/
theorem deviceFoldsItsAccesses : Obligations.DeviceFoldsItsAccesses := by
  unfold Obligations.DeviceFoldsItsAccesses
  intro s accs wf
  obtain ⟨r, run⟩ := run_accesses wf s
  exact ⟨_, run, rfl, rfl, rfl, fun off n data read => runLine_read read⟩

end Sys2Proof.Machine
end

section
/-! Runs of the script (R30, R97, log 1, log 10): a transmission paced by `txAdvance` is TRANSMIT, and SUBMIT's expansion leaves
what SUBMIT leaves. -/

namespace Sys2Proof.Machine

/-! ### No position of the serializer reads the script -/

/-- An outcome whose next state has another script. -/
def onScript (x : List Event) : StepOutcome → StepOutcome
  | .next t => .next { t with script := x }
  | .fault r => .fault r
  | .refused r => .refused r

section script
variable (s : State) (x : List Event)

theorem performStores_script (items : List PathItem) :
    performStores items { s with script := x } = { performStores items s with script := x } := by
  induction items generalizing s with
  | nil => rfl
  | cons item rest ih =>
    cases item with
    | barrier => exact ih s
    | store addr bytes =>
      have arrive : arriveStore addr bytes { s with script := x } = { arriveStore addr bytes s with script := x } := by
        rw [arriveStore_eq, arriveStore_eq]
      rw [performStores, arrive]
      exact ih (arriveStore addr bytes s)

theorem settle_script : settle { s with script := x } = { settle s with script := x } :=
  performStores_script { s with path := behindBarrier s.path } x (heldByBarrier s.path)

theorem storeWord_script (i : Fin 5) (next : EncStep) :
    storeWord i next { s with script := x } = onScript x (storeWord i next s) := by
  cases written : s.enc.recWritten with
  | false => rw [storeWord_unwritten written, storeWord_unwritten (by exact written)]; rfl
  | true =>
    cases routed : route s.params (s.params.encBase + 8 * i.val) with
    | none => rw [storeWord_unrouted written next routed, storeWord_unrouted (by exact written) next (by exact routed)]; rfl
    | some off =>
      cases write : devWrite s.params off 8 (wordBytes s.enc.recWords[i]) s.dev <;>
        simp only [storeWord, written, if_true, routed, write] <;> rfl

theorem sendWord_script (i : Fin 5) (next : EncStep) :
    sendWord i next { s with script := x } = onScript x (sendWord i next s) := by
  rw [sendWord, settle_script, storeWord_script, sendWord]

theorem sendWordBarrier_script (i : Fin 5) (next : EncStep) :
    sendWordBarrier i next { s with script := x } = onScript x (sendWordBarrier i next s) := by
  rw [sendWordBarrier, sendWord_script, sendWordBarrier]
  cases sendWord i next s <;> rfl

theorem fullBarrier_script : fullBarrier { s with script := x } = onScript x (fullBarrier s) := by
  have performed := performStores_script { s with path := [] } x s.path
  exact congrArg (fun t : State => (Host.Outcome.next (t.respond .nothing) : StepOutcome)) performed

theorem readAcknowledge_script : readAcknowledge { s with script := x } = onScript x (readAcknowledge s) := by
  cases routed : route s.params (s.params.encBase + s.params.encStatus) with
  | none => simp only [readAcknowledge, routed]; rfl
  | some off => cases read : devRead s.params off 8 s.dev <;> simp only [readAcknowledge, routed, read] <;> rfl

theorem serializerStep_script : serializerStep { s with script := x } = onScript x (serializerStep s) := by
  unfold serializerStep
  cases s.enc.step with
  | eIdle => rfl
  | tx0 => exact sendWordBarrier_script s x 0 .tx1
  | tx1 => exact sendWordBarrier_script s x 1 .tx2
  | tx2 => exact sendWordBarrier_script s x 2 .tx3
  | tx3 => exact sendWordBarrier_script s x 3 .tx4
  | tx4 => exact sendWord_script s x 4 .fence
  | fence => exact fullBarrier_script { s with enc := s.enc.goto .readStatus } x
  | readStatus => exact readAcknowledge_script s x

end script

/-! ### Paced transmissions -/

section stops
variable {e : Event} {rest : List Event} {k : Nat} {s : State}

/-- A run stops where the event at the head of its script does. -/
theorem run_event_fault {r : Fault} (h : runEvent e { s with script := rest } = .fault r) :
    Host.Core.run core (k + 1) { s with script := e :: rest } = .fault r := run_fault (M := core) h

theorem run_event_refused {r : Refusal} (h : runEvent e { s with script := rest } = .refused r) :
    Host.Core.run core (k + 1) { s with script := e :: rest } = .refused r := run_refused (M := core) h

end stops

/-- `k` paced positions are the serializer's `k` positions, stops included (log 10). -/
theorem run_txAdvance (k : Nat) (s : State) (rest : List Event) :
    Host.Core.run core k { s with script := List.replicate k .txAdvance ++ rest } =
      serializerRun k { s with script := rest } := by
  induction k generalizing s with
  | zero => rfl
  | succ k ih =>
    have paced := serializerStep_script s (List.replicate k .txAdvance ++ rest)
    have whole := serializerStep_script s rest
    rw [List.replicate_succ, List.cons_append]
    cases position : serializerStep s with
    | next t =>
      rw [position] at paced whole
      rw [serializerRun_succ whole]
      exact (run_event (s := s) (e := .txAdvance) paced).trans (ih t)
    | fault r =>
      rw [position] at paced whole
      rw [serializerRun_fault whole]
      exact run_event_fault (s := s) (e := .txAdvance) paced
    | refused r =>
      rw [position] at paced whole
      rw [serializerRun_refused whole]
      exact run_event_refused (s := s) (e := .txAdvance) paced

/-- Settles O46: both begin at `Tx0`, and the seven events are the seven positions. -/
theorem pacedTransmissionIsTransmit : Obligations.PacedTransmissionIsTransmit := by
  unfold Obligations.PacedTransmissionIsTransmit
  intro s rest idle
  have begun : runEvent .txBegin { s with script := List.replicate 7 .txAdvance ++ rest } =
      .next (beginTransmit { s with script := List.replicate 7 .txAdvance ++ rest }) :=
    whenIdle_idle (by exact idle) _
  have whole : exec .transmit { s with script := rest } = transmitAccepted { s with script := rest } :=
    exec_transmit_idle idle
  rw [run_event begun, whole]
  exact run_txAdvance 7 (beginTransmit s) rest

/-! ### SUBMIT's expansion -/

section expansion
variable {s : State} (empty : s.path = []) {d : Device} {r : Reply} {k : Nat} {rest : List Event}
include empty

/-- A word line and the compiler barrier after it store the word, with nothing in flight to wait for (R97). -/
theorem run_word_barrier (i : Fin 4) (w : Word64) :
    Host.Core.run core (k + 2)
        { s with dev := d, reply := r, script := .line (writeLine8 (8 * i.val) w) :: .compilerBarrier :: rest } =
      Host.Core.run core k { s with dev := d.storeWhole i.castSucc w, reply := .nothing, script := rest } := by
  let t : State := { s with dev := d, reply := r }
  have line : runLine (writeLine8 (8 * i.val) w) { t with script := .compilerBarrier :: rest } =
      .next { t.wrote (d.storeWhole i.castSucc w) with script := .compilerBarrier :: rest } :=
    runLine_of_decode (decode_writeLine8 w fun _ => decodeWrite_word i)
  have barrier : compilerBarrier { t.wrote (d.storeWhole i.castSucc w) with script := rest } =
      .next { s with dev := d.storeWhole i.castSucc w, reply := .nothing, script := rest } :=
    compilerBarrier_nil empty
  exact (run_event (s := t) (e := .line (writeLine8 (8 * i.val) w)) line).trans
    (run_event (s := t.wrote (d.storeWhole i.castSucc w)) (e := .compilerBarrier) barrier)

/-- The line of word 4 and the full barrier after it trigger, with nothing in flight to wait for (R97). -/
theorem run_trigger_barrier (w : Word64) :
    Host.Core.run core (k + 2)
        { s with dev := d, reply := r, script := .line (writeLine8 Config.triggerOffset w) :: .fullBarrier :: rest } =
      Host.Core.run core k { s with dev := d.trigger w, reply := .nothing, script := rest } := by
  let t : State := { s with dev := d, reply := r }
  have line : runLine (writeLine8 Config.triggerOffset w) { t with script := .fullBarrier :: rest } =
      .next { t.wrote (d.trigger w) with script := .fullBarrier :: rest } :=
    runLine_of_decode (decode_writeLine8 w fun _ => decodeWrite_trigger)
  have barrier : fullBarrier { t.wrote (d.trigger w) with script := rest } =
      .next { s with dev := d.trigger w, reply := .nothing, script := rest } := fullBarrier_nil empty
  exact (run_event (s := t) (e := .line (writeLine8 Config.triggerOffset w)) line).trans
    (run_event (s := t.wrote (d.trigger w)) (e := .fullBarrier) barrier)

end expansion

/-- ACK reads the Status Register (R97). -/
theorem run_ack {s : State} (wf : s.params.wf = true) :
    Host.Core.run core 1 { s with script := [.line (readLine s.params.devStatus 8)] } =
      .next { s with reply := .data s.dev.readStatus, script := [] } :=
  run_event (s := s) (e := .line (readLine s.params.devStatus 8))
    (runLine_read (s := { s with script := [] }) (devRead_status wf s.dev))

/-- Settles O45: four words with their barriers, the trigger with its fence, and the read; their five stores are those of
the transmission. -/
theorem submitExpandsToItsScript : Obligations.SubmitExpandsToItsScript := by
  unfold Obligations.SubmitExpandsToItsScript
  intro s c ready empty idle contract
  have device := Device.sendRest_storeWhole_zero s.dev (buildRecord c)
  refine ⟨_, { s with
      dev := (s.dev.storeWhole 0 (buildRecord c)[0]).sendRest (buildRecord c)
      reply := .data ((s.dev.storeWhole 0 (buildRecord c)[0]).sendRest (buildRecord c)).readStatus
      script := [] }, _, exec_submit_contract ready empty idle contract, ?run, device, rfl, Device.fromLE_readStatus _⟩
  case run =>
    exact (run_word_barrier (d := s.dev) (r := s.reply) empty 0 _).trans <| (run_word_barrier empty 1 _).trans <|
      (run_word_barrier empty 2 _).trans <| (run_word_barrier empty 3 _).trans <| (run_trigger_barrier empty _).trans <|
      run_ack (s := { s with dev := _, reply := .nothing }) ready.1

end Sys2Proof.Machine
end

section
/-! The producer's accesses and the path (R51, R57 to R61): routing, deliveries and barriers, how many stores are in flight or
answered, and what an event presents to the device. -/

namespace Sys2Proof.Machine

/-! ### Routing -/

section routing
variable {s : State} {addr off : Nat}

theorem presentStore_routed (bytes : List Byte) (routed : route s.params addr = some off) :
    presentStore addr bytes s = .next (s.storeAt off bytes) := by
  rw [presentStore, routed]

theorem presentStore_unrouted (bytes : List Byte) (unrouted : route s.params addr = none) :
    presentStore addr bytes s = .refused .unroutedAddress := by
  rw [presentStore, unrouted]

/-- A routed load is the read line at its offset (R51, R160). -/
theorem presentLoad_routed (n : Nat) (routed : route s.params addr = some off) :
    presentLoad addr n s = runLine (.access ⟨.read, off, n, []⟩) s := by
  cases read : devRead s.params off n s.dev with
  | ok data =>
    rw [runLine_read read]
    simp only [presentLoad, routed, read]
  | error e =>
    rw [runLine_failing_read (devRead_error.mp read)]
    simp only [presentLoad, routed, read]
    rfl

theorem presentLoad_unrouted (n : Nat) (unrouted : route s.params addr = none) :
    presentLoad addr n s = .refused .unroutedAddress := by
  rw [presentLoad, unrouted]

/-- With nothing in flight a store is presented as it is (R60). -/
theorem producerStore_nothing_in_flight (bytes : List Byte) (empty : s.path = []) :
    producerStore addr bytes s = presentStore addr bytes s := by
  rw [producerStore, settle_nil empty]

end routing

/-- Settles O50: the address is routed exactly at and above DEVICE_BASE, to its distance from it. -/
theorem producerAccessesAreRouted : Obligations.ProducerAccessesAreRouted := by
  unfold Obligations.ProducerAccessesAreRouted
  intro s addr n bytes empty fits
  have store := producerStore_nothing_in_flight (addr := addr) bytes empty
  refine ⟨fun above => ?_, fun below => ?_⟩
  · have routed : route s.params addr = some (addr - s.params.devBase) := route_some_iff.mpr ⟨above, fits, rfl⟩
    refine ⟨?_, presentLoad_routed n routed⟩
    rw [runLine_write, ← presentStore_routed bytes routed]
    exact store
  · have unrouted : route s.params addr = none := if_neg fun h => absurd h.1 (Nat.not_le.mpr below)
    exact ⟨store.trans (presentStore_unrouted bytes unrouted), presentLoad_unrouted n unrouted⟩

/-! ### Stores in flight or answered -/

/-- From `s` to `t` no store is issued, and each that leaves the path is answered once (R189, log 42). -/
def KeepsStores (s t : State) : Prop :=
  storesIn t.path + t.reports.length = storesIn s.path + s.reports.length

theorem KeepsStores.of_eq {s t : State} (path : t.path = s.path) (reports : t.reports = s.reports) : KeepsStores s t := by
  rw [KeepsStores, path, reports]

theorem KeepsStores.trans {s t u : State} (h : KeepsStores s t) (h' : KeepsStores t u) : KeepsStores s u :=
  Eq.trans h' h

/-- The stores that arrive are answered, and the path stays. -/
theorem performStores_answers (items : List PathItem) (s : State) :
    (performStores items s).path = s.path ∧ (performStores items s).reports.length = s.reports.length + storesIn items := by
  obtain ⟨r, performed⟩ := performStores_eq items s
  rw [performed]
  exact ⟨rfl, foldl_arrival_length ..⟩

theorem settle_keepsStores (s : State) : KeepsStores s (settle s) := by
  obtain ⟨path, answered⟩ := performStores_answers (heldByBarrier s.path) { s with path := behindBarrier s.path }
  have all := storesIn_held_behind s.path
  rw [KeepsStores, settle, path, answered]
  change storesIn (behindBarrier s.path) + (s.reports.length + _) = _
  omega

theorem fullBarrier_keepsStores {s t : State} (h : fullBarrier s = .next t) : KeepsStores s t := by
  cases h
  obtain ⟨path, answered⟩ := performStores_answers s.path { s with path := [] }
  rw [KeepsStores, State.respond_path, State.respond_reports, path, answered, storesIn, List.countP_nil]
  change 0 + (s.reports.length + storesIn s.path) = _
  omega

/-- A barrier is no store. -/
theorem storesIn_withBarrier (path : List PathItem) : storesIn (withBarrier path) = storesIn path := by
  unfold withBarrier
  split
  · simp [*]
  · simp [storesIn, List.countP_append, PathItem.isStore]

theorem compilerBarrier_keepsStores {s t : State} (h : compilerBarrier s = .next t) : KeepsStores s t := by
  rw [compilerBarrier_eq] at h
  cases h
  exact congrArg (· + s.reports.length) (storesIn_withBarrier s.path)

theorem State.storeAt_path_reports (s : State) (off : Nat) (bytes : List Byte) :
    (s.storeAt off bytes).path = s.path ∧ (s.storeAt off bytes).reports = s.reports := by
  obtain ⟨d, r, stored, -⟩ := s.storeAt_eq off bytes
  rw [stored]
  exact ⟨rfl, rfl⟩

theorem producerStore_keepsStores {addr : Nat} {bytes : List Byte} {s t : State}
    (h : producerStore addr bytes s = .next t) : KeepsStores s t := by
  obtain ⟨off, -, rfl⟩ := presentStore_next h
  obtain ⟨path, reports⟩ := (settle s).storeAt_path_reports off bytes
  exact (settle_keepsStores s).trans (.of_eq path reports)

/-- A load touches nothing but the reply. -/
theorem presentLoad_next {addr n : Nat} {s t : State} (h : presentLoad addr n s = .next t) : ∃ r, t = s.respond r := by
  unfold presentLoad at h
  split at h
  · cases h
  · split at h <;> cases h <;> exact ⟨_, rfl⟩

/-- A delivered store was the `j`-th of the path, and its leaving takes one store from the path. -/
theorem storesIn_withoutItem {path : List PathItem} {j : Nat} {addr : Nat} {bytes : List Byte}
    (ready : (readyStores path)[j]? = some (.store addr bytes)) : storesIn (withoutItem path j) + 1 = storesIn path := by
  obtain ⟨lt, item⟩ := List.getElem?_eq_some_iff.mp ready
  have isPrefix : readyStores path <+: path := List.takeWhile_prefix _
  have lt' : j < path.length := Nat.lt_of_lt_of_le lt isPrefix.length_le
  have head : path[j] = .store addr bytes := (isPrefix.getElem lt).symm.trans item
  have erased : storesIn (path.eraseIdx j) + 1 = storesIn path := by
    have count := (List.getElem_cons_eraseIdx_perm lt').countP_eq PathItem.isStore
    rwa [head, List.countP_cons_of_pos rfl] at count
  have marks : (List.takeWhile (fun x => !x.isStore) (path.eraseIdx j)).countP PathItem.isStore = 0 :=
    List.countP_eq_zero.mpr fun x mem isStore => by simpa [isStore] using List.mem_takeWhile_imp mem
  have kept : storesIn (withoutItem path j) = storesIn (path.eraseIdx j) := by
    have split := congrArg (List.countP PathItem.isStore)
      (List.takeWhile_append_dropWhile (p := fun x : PathItem => !x.isStore) (l := path.eraseIdx j))
    rw [List.countP_append, marks, Nat.zero_add] at split
    exact split
  rw [kept, erased]

/-- A delivery is the arrival of a store that no barrier holds back, or is turned away (R59, R60). -/
theorem deliverStore_next {j : Nat} {s t : State} (h : deliverStore j s = .next t) :
    (∃ addr bytes, (readyStores s.path)[j]? = some (.store addr bytes) ∧
      t = arriveStore addr bytes { s with path := withoutItem s.path j }) ∨
    ((∀ addr bytes, (readyStores s.path)[j]? ≠ some (.store addr bytes)) ∧ t = s.respond .turnedAway) := by
  unfold deliverStore at h
  split at h
  · rename_i addr bytes item
    cases h
    exact .inl ⟨addr, bytes, item, rfl⟩
  · rename_i none
    cases h
    exact .inr ⟨none, rfl⟩

theorem deliverStore_keepsStores {j : Nat} {s t : State} (h : deliverStore j s = .next t) : KeepsStores s t := by
  obtain ⟨addr, bytes, ready, rfl⟩ | ⟨-, rfl⟩ := deliverStore_next h
  · have count := storesIn_withoutItem ready
    obtain ⟨path, answered⟩ := performStores_answers [.store addr bytes] { s with path := withoutItem s.path j }
    have one : storesIn [.store addr bytes] = 1 := rfl
    change (arriveStore addr bytes _).path = _ at path
    change (arriveStore addr bytes _).reports.length = _ at answered
    rw [KeepsStores, path, answered, one]
    change storesIn (withoutItem s.path j) + (s.reports.length + 1) = _
    omega
  · exact .of_eq rfl rfl

/-- What a store of the serializer that completes has done (R116). -/
theorem storeWord_next {i : Fin 5} {next : EncStep} {s t : State} (h : storeWord i next s = .next t) :
    ∃ off d, route s.params (s.params.encBase + 8 * i.val) = some off ∧
      devWrite s.params off 8 (wordBytes s.enc.recWords[i]) s.dev = .ok d ∧
      t = { s.wrote d with enc := s.enc.goto next } := by
  unfold storeWord at h
  split at h
  · split at h
    · cases h
    · rename_i off routed
      split at h
      · rename_i d write
        cases h
        exact ⟨off, d, routed, write, rfl⟩
      · cases h
  · cases h

theorem sendWord_keepsStores {i : Fin 5} {next : EncStep} {s t : State} (h : sendWord i next s = .next t) :
    KeepsStores s t := by
  obtain ⟨off, d, -, -, rfl⟩ := storeWord_next h
  exact (settle_keepsStores s).trans (.of_eq rfl rfl)

/-- A position with a barrier is its store, then the barrier. -/
theorem sendWordBarrier_next {i : Fin 5} {next : EncStep} {s t : State} (h : sendWordBarrier i next s = .next t) :
    ∃ u, sendWord i next s = .next u ∧ compilerBarrier u = .next t := by
  unfold sendWordBarrier at h
  cases sent : sendWord i next s with
  | next u => rw [sent] at h; exact ⟨u, rfl, h⟩
  | fault r => rw [sent] at h; cases h
  | refused r => rw [sent] at h; cases h

theorem sendWordBarrier_keepsStores {i : Fin 5} {next : EncStep} {s t : State} (h : sendWordBarrier i next s = .next t) :
    KeepsStores s t := by
  obtain ⟨u, sent, barrier⟩ := sendWordBarrier_next h
  exact (sendWord_keepsStores sent).trans (compilerBarrier_keepsStores barrier)

/-- The status read touches the encoder and the reply only. -/
theorem readAcknowledge_next {s t : State} (h : readAcknowledge s = .next t) :
    ∃ v, t = { s with enc := s.enc.acknowledge v, reply := .ack v } := by
  unfold readAcknowledge at h
  split at h
  · cases h
  · split at h <;> cases h
    exact ⟨_, rfl⟩

theorem serializerStep_keepsStores {s t : State} (h : serializerStep s = .next t) : KeepsStores s t := by
  unfold serializerStep at h
  cases position : s.enc.step <;> rw [position] at h <;> simp only at h
  case eIdle => cases h; exact .of_eq rfl rfl
  case tx0 => exact sendWordBarrier_keepsStores h
  case tx1 => exact sendWordBarrier_keepsStores h
  case tx2 => exact sendWordBarrier_keepsStores h
  case tx3 => exact sendWordBarrier_keepsStores h
  case tx4 => exact sendWord_keepsStores h
  case fence => exact fullBarrier_keepsStores (s := { s with enc := s.enc.goto .readStatus }) h
  case readStatus =>
    obtain ⟨v, rfl⟩ := readAcknowledge_next h
    exact .of_eq rfl rfl

theorem serializerRun_keepsStores {k : Nat} {s t : State} (h : serializerRun k s = .next t) : KeepsStores s t := by
  induction k generalizing s with
  | zero => cases h; exact .of_eq rfl rfl
  | succ k ih =>
    cases position : serializerStep s with
    | next u =>
      rw [serializerRun_succ position] at h
      exact (serializerStep_keepsStores position).trans (ih h)
    | fault r => cases (serializerRun_fault position).symm.trans h
    | refused r => cases (serializerRun_refused position).symm.trans h

theorem transmitAccepted_keepsStores {s t : State} (h : transmitAccepted s = .next t) : KeepsStores s t :=
  serializerRun_keepsStores (s := beginTransmit s) h

/-- No instruction issues a store of the producer. -/
theorem exec_keepsStores {i : Instr} {s t : State} (h : exec i s = .next t) : KeepsStores s t := by
  obtain ⟨r, eq⟩ | ⟨x, r, eq⟩ | ⟨c, -, -, eq⟩ | ⟨-, -, eq⟩ | ⟨c, -, -, eq⟩ := exec_cases i s <;> rw [eq] at h
  · cases h; exact .of_eq rfl rfl
  · cases h; exact .of_eq rfl rfl
  · cases h; exact .of_eq rfl rfl
  · exact transmitAccepted_keepsStores h
  · have kept := transmitAccepted_keepsStores h
    exact kept

theorem runLine_keepsStores {l : Line} {s t : State} (h : runLine l s = .next t) : KeepsStores s t := by
  cases row : decode s.params l with
  | instr i => exact exec_keepsStores ((runLine_of_decode row).symm.trans h)
  | rejected e => cases (runLine_of_rejected row).symm.trans h

/-- How many stores an event issues that stay in flight (R59). -/
def issued : Event → Nat
  | .post _ _ => 1
  | _ => 0

/-- Whatever the event, a store leaves the path exactly when it is answered; only a posted store is new (R59, log 42). -/
theorem runEvent_stores {e : Event} {s t : State} (h : runEvent e s = .next t) :
    storesIn t.path + t.reports.length = storesIn s.path + s.reports.length + issued e := by
  cases e with
  | line l => exact runLine_keepsStores h
  | memWrite addr bytes => exact producerStore_keepsStores h
  | memRead addr n =>
    obtain ⟨r, rfl⟩ := presentLoad_next h
    rfl
  | post addr bytes =>
    cases h
    change (s.path ++ [PathItem.store addr bytes]).countP PathItem.isStore + s.reports.length = _
    rw [List.countP_append]
    change storesIn s.path + 1 + s.reports.length = storesIn s.path + s.reports.length + 1
    omega
  | deliver j => exact deliverStore_keepsStores h
  | compilerBarrier => exact compilerBarrier_keepsStores h
  | fullBarrier => exact fullBarrier_keepsStores h
  | txBegin =>
    by_cases idle : s.enc.step = .eIdle
    · cases (whenIdle_idle idle _).symm.trans h
      rfl
    · cases (whenIdle_busy idle _).symm.trans h
      rfl
  | txAdvance => exact serializerStep_keepsStores h
  | encoderReset => cases h; rfl

/-! ### Barriers and deliveries -/

section litmus
variable {s : State} {a1 a2 : Nat} {b1 b2 : List Byte}

theorem arriveStore_unrouted (unrouted : route s.params a1 = none) :
    arriveStore a1 b1 s = { s with reports := s.reports ++ [.elsewhere], reply := .nothing } := by
  rw [arriveStore, unrouted]
  rfl

/-- With no barrier between them either of two stores may arrive first (R59). -/
theorem deliver_either (two : s.path = [.store a1 b1, .store a2 b2]) :
    runEvent (.deliver 0) s = .next (arriveStore a1 b1 { s with path := [.store a2 b2] }) ∧
      runEvent (.deliver 1) s = .next (arriveStore a2 b2 { s with path := [.store a1 b1] }) := by
  simp only [runEvent, deliverStore, two]
  exact ⟨rfl, rfl⟩

/-- A compiler barrier is placed behind the stores in flight (R60). -/
theorem compilerBarrier_one (one : s.path = [.store a1 b1]) :
    runEvent .compilerBarrier s = .next { s with path := [.store a1 b1, .barrier], reply := .nothing } := by
  simp only [runEvent, compilerBarrier, one]
  rfl

/-- Behind a compiler barrier a later store waits for the earlier one (R60). -/
theorem deliver_behind_barrier (two : s.path = [.store a1 b1, .barrier, .store a2 b2]) :
    runEvent (.deliver 1) s = .next (s.respond .turnedAway) ∧
      runEvent (.deliver 0) s = .next (arriveStore a1 b1 { s with path := [.store a2 b2] }) := by
  simp only [runEvent, deliverStore, two]
  exact ⟨rfl, rfl⟩

/-- A store issued behind a compiler barrier arrives after the earlier one (R60). -/
theorem memWrite_behind_barrier (held : s.path = [.store a1 b1, .barrier]) :
    runEvent (.memWrite a2 b2) s = presentStore a2 b2 (arriveStore a1 b1 { s with path := [] }) := by
  simp only [runEvent, producerStore, settle, held]
  rfl

end litmus

/-- A full barrier performs every store in flight, oldest first, and completes (R61). -/
theorem fullBarrier_eq (s : State) :
    fullBarrier s = .next { s with
      path := []
      dev := (s.path.foldl (arrival s.params) (s.dev, s.reports)).1
      reports := (s.path.foldl (arrival s.params) (s.dev, s.reports)).2
      reply := .nothing } := by
  obtain ⟨r, performed⟩ := performStores_eq s.path { s with path := [] }
  rw [fullBarrier, performed]
  rfl

/-- Settles O51: an arrival by `arriveStore_eq`, the litmus clauses by the four lemmas above, the full barrier by
`fullBarrier_eq`, the count by `runEvent_stores`. -/
theorem barriersOrderStoresInFlight : Obligations.BarriersOrderStoresInFlight := by
  unfold Obligations.BarriersOrderStoresInFlight
  refine fun s a1 a2 b1 b2 => ⟨⟨_, rfl, rfl⟩, fun off routed => ?arrives, arriveStore_unrouted, deliver_either,
    fun one => ?barrier, fullBarrier_eq s, fun e t => runEvent_stores⟩
  case arrives =>
    rw [arriveStore_eq]
    cases write : devWrite s.params off b1.length b1 s.dev <;> simp only [arrival, routed, write]
  case barrier =>
    refine ⟨_, compilerBarrier_one one, rfl, rfl, ⟨_, rfl, ?_⟩, memWrite_behind_barrier rfl⟩
    exact deliver_behind_barrier rfl

end Sys2Proof.Machine
end

section
/-! What changes the trace, the counter, `valid` and `STATUS` (R22, R24, R25): of the instructions the triggers, RESET and the
status writes, of the other events the stores they present. -/

namespace Sys2Proof.Machine

/-! ### The device after arrivals -/

/-- What one item of the path does to the device when it arrives; the reports do not enter. -/
def deviceArrival (p : Params) (d : Device) (x : PathItem) : Device := (arrival p (d, []) x).1

theorem arrival_fst (p : Params) (acc : Device × List Reply) (x : PathItem) :
    (arrival p acc x).1 = deviceArrival p acc.1 x := by
  cases x with
  | barrier => rfl
  | store addr bytes =>
    cases routed : route p addr with
    | none => simp only [deviceArrival, arrival, routed]
    | some off => cases write : devWrite p off bytes.length bytes acc.1 <;> simp only [deviceArrival, arrival, routed, write]

theorem foldl_arrival_fst (p : Params) (items : List PathItem) (acc : Device × List Reply) :
    (items.foldl (arrival p) acc).1 = items.foldl (deviceArrival p) acc.1 := by
  induction items generalizing acc with
  | nil => rfl
  | cons x rest ih => rw [List.foldl_cons, List.foldl_cons, ih, arrival_fst]

section arrivals
variable {p : Params} {d : Device} {addr off : Nat} {bytes : List Byte}

theorem deviceArrival_unrouted (unrouted : route p addr = none) : deviceArrival p d (.store addr bytes) = d := by
  simp only [deviceArrival, arrival, unrouted]

theorem deviceArrival_ok {d' : Device} (routed : route p addr = some off)
    (write : devWrite p off bytes.length bytes d = .ok d') : deviceArrival p d (.store addr bytes) = d' := by
  simp only [deviceArrival, arrival, routed, write]

theorem deviceArrival_failed {e : AccessError} (routed : route p addr = some off)
    (write : devWrite p off bytes.length bytes d = .error e) : deviceArrival p d (.store addr bytes) = d := by
  simp only [deviceArrival, arrival, routed, write]

end arrivals

theorem performStores_dev (items : List PathItem) (s : State) :
    (performStores items s).dev = items.foldl (deviceArrival s.params) s.dev := by
  obtain ⟨r, performed⟩ := performStores_eq items s
  rw [performed]
  exact foldl_arrival_fst ..

theorem arriveStore_dev (addr : Nat) (bytes : List Byte) (s : State) :
    (arriveStore addr bytes s).dev = deviceArrival s.params s.dev (.store addr bytes) :=
  performStores_dev [.store addr bytes] s

theorem settle_dev (s : State) : (settle s).dev = (heldByBarrier s.path).foldl (deviceArrival s.params) s.dev :=
  performStores_dev ..

/-- A store presented at once is the last to arrive. -/
theorem foldl_store_last (p : Params) (items : List PathItem) (x : PathItem) (d : Device) :
    (items ++ [x]).foldl (deviceArrival p) d = deviceArrival p (items.foldl (deviceArrival p) d) x := by
  rw [List.foldl_append, List.foldl_cons, List.foldl_nil]

/-! ### What an event presents -/

theorem producerStore_dev {addr : Nat} {bytes : List Byte} {s t : State} (h : producerStore addr bytes s = .next t) :
    t.dev = (heldByBarrier s.path ++ [PathItem.store addr bytes]).foldl (deviceArrival s.params) s.dev := by
  obtain ⟨off, routed, rfl⟩ := presentStore_next h
  have params : (settle s).params = s.params := (settle_onlyWrites s).1.params
  rw [foldl_store_last, ← settle_dev, ← params]
  cases write : devWrite (settle s).params off bytes.length bytes (settle s).dev with
  | ok d => rw [State.storeAt_ok write, deviceArrival_ok routed write, State.wrote_dev]
  | error e =>
    rw [State.storeAt_failed (devWrite_error.mp write), deviceArrival_failed routed write, State.respond_dev]

theorem sendWord_dev {i : Fin 5} {next : EncStep} {s t : State} (h : sendWord i next s = .next t) :
    t.dev = (heldByBarrier s.path ++ [presented.recordStore s i]).foldl (deviceArrival s.params) s.dev := by
  obtain ⟨off, d, routed, write, rfl⟩ := storeWord_next h
  obtain ⟨writes, enc⟩ := settle_onlyWrites s
  rw [writes.params] at routed write
  rw [enc, ← wordBytes_length s.enc.recWords[i]] at write
  rw [foldl_store_last, ← settle_dev, presented.recordStore, deviceArrival_ok routed write]
  rfl

theorem sendWordBarrier_dev {i : Fin 5} {next : EncStep} {s t : State} (h : sendWordBarrier i next s = .next t) :
    t.dev = (heldByBarrier s.path ++ [presented.recordStore s i]).foldl (deviceArrival s.params) s.dev := by
  obtain ⟨u, sent, barrier⟩ := sendWordBarrier_next h
  cases barrier
  exact sendWord_dev (t := u) sent

theorem serializerStep_dev {s t : State} (h : serializerStep s = .next t) :
    t.dev = (presented s .txAdvance).foldl (deviceArrival s.params) s.dev := by
  unfold serializerStep at h
  unfold presented
  cases position : s.enc.step <;> rw [position] at h <;> simp only at h ⊢
  case eIdle => cases h; rfl
  case tx0 => exact sendWordBarrier_dev h
  case tx1 => exact sendWordBarrier_dev h
  case tx2 => exact sendWordBarrier_dev h
  case tx3 => exact sendWordBarrier_dev h
  case tx4 => exact sendWord_dev h
  case fence => cases h; exact performStores_dev ..
  case readStatus =>
    obtain ⟨v, rfl⟩ := readAcknowledge_next h
    rfl

/-- What an event presents does not depend on the script. -/
theorem presented_script (s : State) (x : List Event) (e : Event) : presented { s with script := x } e = presented s e := by
  cases e <;> rfl

/-- An event that is no line changes the device by the stores it presents, in their order (R59 to R61). -/
theorem runEvent_dev {e : Event} {s t : State} (noLine : ∀ l, e ≠ .line l) (h : runEvent e s = .next t) :
    t.dev = (presented s e).foldl (deviceArrival s.params) s.dev := by
  cases e with
  | line l => exact absurd rfl (noLine l)
  | memWrite addr bytes => exact producerStore_dev h
  | memRead addr n =>
    obtain ⟨r, rfl⟩ := presentLoad_next h
    rfl
  | post addr bytes => cases h; rfl
  | deliver j =>
    obtain ⟨addr, bytes, ready, rfl⟩ | ⟨blocked, rfl⟩ := deliverStore_next h
    · rw [arriveStore_dev, presented, ready]
      rfl
    · rw [presented, State.respond_dev]
      match item : (readyStores s.path)[j]? with
      | none => rfl
      | some .barrier => rfl
      | some (.store addr bytes) => exact absurd item (blocked addr bytes)
  | compilerBarrier => cases h; rfl
  | fullBarrier => cases h; exact performStores_dev ..
  | txBegin =>
    by_cases idle : s.enc.step = .eIdle
    · cases (whenIdle_idle idle _).symm.trans h
      rfl
    · cases (whenIdle_busy idle _).symm.trans h
      rfl
  | txAdvance => exact serializerStep_dev h
  | encoderReset => cases h; rfl

/-! ### What does not trigger -/

/-- From `d` to `d'` no record was handed over: the trace, the counter and `valid` are as they were (R22, R25). -/
def Device.SameTrace (d d' : Device) : Prop :=
  d'.execLog = d.execLog ∧ d'.icount = d.icount ∧ d'.valid = d.valid

theorem Device.SameTrace.refl (d : Device) : d.SameTrace d := ⟨rfl, rfl, rfl⟩

theorem Device.SameTrace.trans {d d' d'' : Device} (h : d.SameTrace d') (h' : d'.SameTrace d'') : d.SameTrace d'' :=
  ⟨h'.1.trans h.1, h'.2.1.trans h.2.1, h'.2.2.trans h.2.2⟩

/-- Only the 8-byte write at 0x20 hands over a record, and only it and the status window's writes change `STATUS`. -/
theorem devWrite_sameTrace {p : Params} {off n : Nat} {bytes : List Byte} {d d' : Device}
    (write : devWrite p off n bytes d = .ok d') (noTrigger : off = 0x20 → n ≠ 8) :
    d.SameTrace d' ∧ (off ≠ p.devStatus → d'.status = d.status) := by
  obtain ⟨width, place, -⟩ | ⟨-, status, row⟩ | ⟨-, status, row⟩ | ⟨i, -, -, row⟩ | ⟨i, -, -, row⟩ :=
    devWrite_cases (accessError_of_write write) bytes
  · exact absurd width (noTrigger place)
  all_goals cases (row d).symm.trans write
  · exact ⟨.refl _, fun other => absurd (window_status_iff.mp status).2 other⟩
  · exact ⟨.refl _, fun other => absurd (window_status_iff.mp status).2 other⟩
  · exact ⟨.refl _, fun _ => rfl⟩
  · exact ⟨.refl _, fun _ => rfl⟩

/-- An item of the path that is no 8-byte store at 0x20 hands over no record. -/
theorem deviceArrival_sameTrace {p : Params} (d : Device) {x : PathItem}
    (noTrigger : ∀ a b, .store a b = x → route p a = some 0x20 → b.length ≠ 8) :
    d.SameTrace (deviceArrival p d x) ∧
      ((∀ a b, .store a b = x → route p a ≠ some p.devStatus) → (deviceArrival p d x).status = d.status) := by
  cases x with
  | barrier => exact ⟨.refl d, fun _ => rfl⟩
  | store addr bytes =>
    cases routed : route p addr with
    | none => rw [deviceArrival_unrouted routed]; exact ⟨.refl d, fun _ => rfl⟩
    | some off =>
      cases write : devWrite p off bytes.length bytes d with
      | error e => rw [deviceArrival_failed routed write]; exact ⟨.refl d, fun _ => rfl⟩
      | ok d' =>
        rw [deviceArrival_ok routed write]
        obtain ⟨trace, status⟩ := devWrite_sameTrace write fun place => noTrigger addr bytes rfl (place ▸ routed)
        exact ⟨trace, fun noStatus => status fun place => noStatus addr bytes rfl (place ▸ routed)⟩

theorem foldl_deviceArrival_sameTrace {p : Params} {items : List PathItem} (d : Device)
    (noTrigger : ∀ a b, .store a b ∈ items → route p a = some 0x20 → b.length ≠ 8) :
    d.SameTrace (items.foldl (deviceArrival p) d) ∧
      ((∀ a b, .store a b ∈ items → route p a ≠ some p.devStatus) →
        (items.foldl (deviceArrival p) d).status = d.status) := by
  induction items generalizing d with
  | nil => exact ⟨.refl d, fun _ => rfl⟩
  | cons x rest ih =>
    obtain ⟨trace, status⟩ := deviceArrival_sameTrace d fun a b here => noTrigger a b (here ▸ List.mem_cons_self)
    obtain ⟨trace', status'⟩ := ih (deviceArrival p d x) fun a b mem => noTrigger a b (List.mem_cons_of_mem x mem)
    refine ⟨trace.trans trace', fun noStatus => ?_⟩
    exact (status' fun a b mem => noStatus a b (List.mem_cons_of_mem x mem)).trans
      (status fun a b here => noStatus a b (here ▸ List.mem_cons_self))

/-- An instruction's own update hands over no record, unless it is a trigger or RESET; and it changes `STATUS` only as one of
those, a status write or SET_RECEIVED. -/
theorem ownEffect_sameTrace {i : Instr} (d : Device) (noTrig : ∀ v, i ≠ .wr8Trig v)
    (noGemm : ∀ k n m rsv tB tA pad, i ≠ .gemm k n m rsv tB tA pad)
    (noRecord : ∀ k n m rsv tB tA it pad, i ≠ .record k n m rsv tB tA it pad) (noReset : i ≠ .reset) :
    d.SameTrace (ownEffect d i) ∧
      ((∀ v, i ≠ .wr8St v) → (∀ v, i ≠ .wr4St v) → i ≠ .setReceived → (ownEffect d i).status = d.status) := by
  cases i with
  | wr8Trig v => exact absurd rfl (noTrig v)
  | gemm k n m rsv tB tA pad => exact absurd rfl (noGemm k n m rsv tB tA pad)
  | record k n m rsv tB tA it pad => exact absurd rfl (noRecord k n m rsv tB tA it pad)
  | reset => exact absurd rfl noReset
  | wr8St v => exact ⟨.refl _, fun noStatus => absurd rfl (noStatus v)⟩
  | wr4St v => exact ⟨.refl _, fun _ noStatus => absurd rfl (noStatus v)⟩
  | setReceived => exact ⟨.refl _, fun _ _ noStatus => absurd rfl noStatus⟩
  | _ => exact ⟨.refl _, fun _ _ _ => rfl⟩

/-- Settles O57: an instruction by its own update, any other event by the stores it presents. -/
theorem onlyTriggersHandOver : Obligations.OnlyTriggersHandOver := by
  unfold Obligations.OnlyTriggersHandOver
  refine ⟨fun s t i h noTrig noGemm noRecord noTransmit noSubmit noReset => ?instruction, fun s t h => ?step⟩
  case instruction =>
    have own := ownEffect_sameTrace s.dev noTrig noGemm noRecord noReset
    obtain ⟨r, eq⟩ | ⟨x, r, eq⟩ | ⟨c, -, -, eq⟩ | ⟨isTransmit, -⟩ | ⟨c, isSubmit, -⟩ := exec_cases i s
    · cases eq.symm.trans h
      obtain ⟨⟨log, count, valid⟩, status⟩ := own
      exact ⟨log, count, valid, status⟩
    · cases eq.symm.trans h
      exact ⟨rfl, rfl, rfl, fun _ _ _ => rfl⟩
    · cases eq.symm.trans h
      exact ⟨rfl, rfl, rfl, fun _ _ _ => rfl⟩
    · exact absurd isTransmit noTransmit
    · exact absurd isSubmit (noSubmit c)
  case step =>
    obtain ⟨empty, rfl⟩ | ⟨e, rest, script, ⟨l, i, rfl, row, run⟩ | ⟨noLine, run⟩⟩ := step_cases h
    · rw [empty]
    · rw [script]
      exact ⟨i, row, run⟩
    · have dev : t.dev = (presented s e).foldl (deviceArrival s.params) s.dev := by
        rw [← presented_script s rest]
        exact runEvent_dev (s := { s with script := rest }) noLine run
      have changes := dev.trans (foldl_arrival_fst s.params (presented s e) (s.dev, [])).symm
      have quiet (noTrigger : ∀ a b, .store a b ∈ presented s e → route s.params a = some 0x20 → b.length ≠ 8) :=
        foldl_deviceArrival_sameTrace s.dev noTrigger
      rw [← dev] at quiet
      rw [script]
      cases e with
      | line l => exact absurd rfl (noLine l)
      | _ =>
        refine ⟨changes, fun noTrigger => ?_⟩
        obtain ⟨⟨log, count, valid⟩, status⟩ := quiet noTrigger
        exact ⟨log, count, valid, status⟩

end Sys2Proof.Machine
end
